-- ==== Sys2Proof/Word.lean ====
section
/-! DEFINITION. The value types of the codec that depend on no implementation parameter: the two formats, the command
word, the permission names and permission sets (00_scope.md R3, R8, R12; 30_encoding.md R74). -/

namespace Sys2Proof

/-- One byte of a capability's memory image (20_memory.md R52). -/
abbrev Byte := BitVec 8

/-- A command word (30_encoding.md R74). -/
abbrev CmdWord := BitVec 32

/-- The two formats; a model instance is built for exactly one of them (00_scope.md R3). -/
inductive Fmt where
  | c64r
  | c128r
deriving DecidableEq, Repr, Inhabited

/-- The permission names of 00_scope.md R12. The hybrid bit M is kept apart. -/
inductive Perm where
  | x | r | w | c | lm | asr | el | sl
deriving DecidableEq, Repr, Inhabited

/-- Every permission name, each once. -/
def Perm.all : List Perm := [.x, .r, .w, .c, .lm, .asr, .el, .sl]

/-- A permission set (00_scope.md R12): a set of names, held as one membership bit per name. -/
structure PermSet where
  x : Bool
  r : Bool
  w : Bool
  c : Bool
  lm : Bool
  asr : Bool
  el : Bool
  sl : Bool
deriving DecidableEq, Repr, Inhabited

namespace PermSet

/-- Membership of a name in a set. -/
def has (s : PermSet) : Perm → Bool
  | .x => s.x
  | .r => s.r
  | .w => s.w
  | .c => s.c
  | .lm => s.lm
  | .asr => s.asr
  | .el => s.el
  | .sl => s.sl

/-- The set of the names that satisfy a test. -/
def ofTest (f : Perm → Bool) : PermSet :=
  ⟨f .x, f .r, f .w, f .c, f .lm, f .asr, f .el, f .sl⟩

/-- The set of the names in a list. -/
def ofList (l : List Perm) : PermSet := ofTest fun p => l.contains p

/-- The empty set. -/
def empty : PermSet := ofTest fun _ => false

/-- The set without one name. -/
def erase (s : PermSet) (p : Perm) : PermSet := ofTest fun q => s.has q && q != p

/-- Inclusion of the first set in the second. -/
def subset (a b : PermSet) : Bool := Perm.all.all fun p => !a.has p || b.has p

/-- How many names a set holds. -/
def card (s : PermSet) : Nat := (Perm.all.filter s.has).length

end PermSet

end Sys2Proof
end

