-- ==== Sys2Proof/Syntax.lean ====
section
/-! DEFINITION. The commands of the block: one constructor per row of the opcode map (30_encoding.md R75). A command
word carries an opcode and, for the REG_* commands but REG_RESET, a register index rn (R74); operand values travel beside
the word and are held in the machine's command port. -/

namespace Sys2Proof

/-- A decoded command word (30_encoding.md R74, R75). -/
inductive Instr where
  -- permission codec
  | permEncode
  | permDecode
  | permFixup
  | capHasPerms
  -- bounds codec and representability
  | boundsDecode
  | boundsEncode
  | setBounds
  | isRepresentableWithAddr
  | markUnrepresentable
  -- capability value: codec and constructors
  | compress
  | decompress
  | makeNullDerived
  | makeMaxPermsCap
  | roundtripCheck
  -- capability value: accessors
  | getBase
  | getTop
  | getTopFull
  | getLength
  | getLengthFull
  | getOffset
  | getPerms
  | getUperms
  -- capability value: predicates
  | isInBounds
  | isRepresentable
  | isSealed
  | isUnsealed
  | isSealedEntry
  -- capability value: mutators
  | setSealed
  | setUnsealed
  | setCursor
  | setPerms
  -- register cache
  | regRead (rn : Nat)
  | regWrite (rn : Nat)
  | regWriteInt (rn : Nat)
  | regWriteRaw (rn : Nat)
  | regReadCursor (rn : Nat)
  | regReadRaw (rn : Nat)
  | regReset
deriving DecidableEq, Repr

namespace Instr

/-- The register index of a command that names one (30_encoding.md R74). -/
def rn? : Instr → Option Nat
  | .regRead rn | .regWrite rn | .regWriteInt rn | .regWriteRaw rn | .regReadCursor rn | .regReadRaw rn => some rn
  | .permEncode | .permDecode | .permFixup | .capHasPerms | .boundsDecode | .boundsEncode | .setBounds
     | .isRepresentableWithAddr | .markUnrepresentable | .compress | .decompress | .makeNullDerived
     | .makeMaxPermsCap | .roundtripCheck | .getBase | .getTop | .getTopFull | .getLength | .getLengthFull
     | .getOffset | .getPerms | .getUperms | .isInBounds | .isRepresentable | .isSealed | .isUnsealed
     | .isSealedEntry | .setSealed | .setUnsealed | .setCursor | .setPerms | .regReset => none

/-- The mnemonic of a command in the assembler syntax (30_encoding.md R75, R77). -/
def mnemonic : Instr → String
  | .permEncode => "PERM_ENCODE"
  | .permDecode => "PERM_DECODE"
  | .permFixup => "PERM_FIXUP"
  | .capHasPerms => "CAP_HAS_PERMS"
  | .boundsDecode => "BOUNDS_DECODE"
  | .boundsEncode => "BOUNDS_ENCODE"
  | .setBounds => "SET_BOUNDS"
  | .isRepresentableWithAddr => "IS_REPRESENTABLE_WITH_ADDR"
  | .markUnrepresentable => "MARK_UNREPRESENTABLE"
  | .compress => "COMPRESS"
  | .decompress => "DECOMPRESS"
  | .makeNullDerived => "MAKE_NULL_DERIVED"
  | .makeMaxPermsCap => "MAKE_MAX_PERMS_CAP"
  | .roundtripCheck => "ROUNDTRIP_CHECK"
  | .getBase => "GET_BASE"
  | .getTop => "GET_TOP"
  | .getTopFull => "GET_TOP_FULL"
  | .getLength => "GET_LENGTH"
  | .getLengthFull => "GET_LENGTH_FULL"
  | .getOffset => "GET_OFFSET"
  | .getPerms => "GET_PERMS"
  | .getUperms => "GET_UPERMS"
  | .isInBounds => "IS_IN_BOUNDS"
  | .isRepresentable => "IS_REPRESENTABLE"
  | .isSealed => "IS_SEALED"
  | .isUnsealed => "IS_UNSEALED"
  | .isSealedEntry => "IS_SEALED_ENTRY"
  | .setSealed => "SET_SEALED"
  | .setUnsealed => "SET_UNSEALED"
  | .setCursor => "SET_CURSOR"
  | .setPerms => "SET_PERMS"
  | .regRead _ => "REG_READ"
  | .regWrite _ => "REG_WRITE"
  | .regWriteInt _ => "REG_WRITE_INT"
  | .regWriteRaw _ => "REG_WRITE_RAW"
  | .regReadCursor _ => "REG_READ_CURSOR"
  | .regReadRaw _ => "REG_READ_RAW"
  | .regReset => "REG_RESET"

end Instr

end Sys2Proof
end

