-- ==== Sys2Proof/WellFormed.lean ====
section
/-! DEFINITION. What makes a command encodable: a register index fits bits [15:8] of the word (30_encoding.md R74).
Whether the index names a register of the instance is checked when the command runs (43_regcache.md R191). -/

namespace Sys2Proof

/-- The command has a command word: its register index, if it names one, fits eight bits (30_encoding.md R74). -/
def Instr.wellFormed (i : Instr) : Bool :=
  match i.rn? with
  | some rn => rn < 256
  | none => true

/-- The proposition that a command is well-formed. -/
abbrev Instr.WellFormed (i : Instr) : Prop := i.wellFormed = true

end Sys2Proof
end

