-- ==== Sys2Proof/Decode.lean ====
section
/-! DEFINITION. The command word's decoder and encoder (30_encoding.md R74, R75, R76). Decoding is total on the 32-bit
words; a word that is no command is rejected by name, the unknown opcode before the reserved bits (60_exceptions.md R214). -/

namespace Sys2Proof

/-- Why a word is no command (30_encoding.md R76). -/
inductive Reject where
  /-- bits [7:0] are no opcode of R75 -/
  | unknownOpcode
  /-- a non-zero bit in [31:16], or in [15:8] of a command without rn -/
  | reservedBits
deriving DecidableEq, Repr

/-- What an opcode stands for: a command without rn, or one that names a register (30_encoding.md R74). -/
inductive Form where
  | plain (i : Instr)
  | reg (mk : Nat → Instr)

/-- The opcode map (30_encoding.md R75). -/
def formOf : Nat → Option Form
  | 0x01 => some (.plain .permEncode)
  | 0x02 => some (.plain .permDecode)
  | 0x03 => some (.plain .permFixup)
  | 0x04 => some (.plain .capHasPerms)
  | 0x10 => some (.plain .boundsDecode)
  | 0x11 => some (.plain .boundsEncode)
  | 0x12 => some (.plain .setBounds)
  | 0x13 => some (.plain .isRepresentableWithAddr)
  | 0x14 => some (.plain .markUnrepresentable)
  | 0x20 => some (.plain .compress)
  | 0x21 => some (.plain .decompress)
  | 0x22 => some (.plain .makeNullDerived)
  | 0x23 => some (.plain .makeMaxPermsCap)
  | 0x24 => some (.plain .roundtripCheck)
  | 0x30 => some (.plain .getBase)
  | 0x31 => some (.plain .getTop)
  | 0x32 => some (.plain .getTopFull)
  | 0x33 => some (.plain .getLength)
  | 0x34 => some (.plain .getLengthFull)
  | 0x35 => some (.plain .getOffset)
  | 0x36 => some (.plain .getPerms)
  | 0x37 => some (.plain .getUperms)
  | 0x40 => some (.plain .isInBounds)
  | 0x41 => some (.plain .isRepresentable)
  | 0x42 => some (.plain .isSealed)
  | 0x43 => some (.plain .isUnsealed)
  | 0x44 => some (.plain .isSealedEntry)
  | 0x50 => some (.plain .setSealed)
  | 0x51 => some (.plain .setUnsealed)
  | 0x52 => some (.plain .setCursor)
  | 0x53 => some (.plain .setPerms)
  | 0x60 => some (.reg .regRead)
  | 0x61 => some (.reg .regWrite)
  | 0x62 => some (.reg .regWriteInt)
  | 0x63 => some (.reg .regWriteRaw)
  | 0x64 => some (.reg .regReadCursor)
  | 0x65 => some (.reg .regReadRaw)
  | 0x66 => some (.plain .regReset)
  | _ => none

/-- Bits [7:0] of a command word (30_encoding.md R74). -/
def wordOpcode (w : CmdWord) : Nat := w.toNat % 2 ^ 8

/-- Bits [15:8] of a command word (30_encoding.md R74). -/
def wordRn (w : CmdWord) : Nat := w.toNat / 2 ^ 8 % 2 ^ 8

/-- Bits [31:16] of a command word (30_encoding.md R74). -/
def wordHigh (w : CmdWord) : Nat := w.toNat / 2 ^ 16

/-- The command a word stands for, or the name of its rejection (30_encoding.md R76; priority 60_exceptions.md R214). -/
def decode (w : CmdWord) : Except Reject Instr :=
  match formOf (wordOpcode w) with
  | none => .error .unknownOpcode
  | some (.plain i) => if wordHigh w = 0 ∧ wordRn w = 0 then .ok i else .error .reservedBits
  | some (.reg mk) => if wordHigh w = 0 then .ok (mk (wordRn w)) else .error .reservedBits

/-- The opcode of a command (30_encoding.md R75). -/
def opcodeOf : Instr → Nat
  | .permEncode => 0x01
  | .permDecode => 0x02
  | .permFixup => 0x03
  | .capHasPerms => 0x04
  | .boundsDecode => 0x10
  | .boundsEncode => 0x11
  | .setBounds => 0x12
  | .isRepresentableWithAddr => 0x13
  | .markUnrepresentable => 0x14
  | .compress => 0x20
  | .decompress => 0x21
  | .makeNullDerived => 0x22
  | .makeMaxPermsCap => 0x23
  | .roundtripCheck => 0x24
  | .getBase => 0x30
  | .getTop => 0x31
  | .getTopFull => 0x32
  | .getLength => 0x33
  | .getLengthFull => 0x34
  | .getOffset => 0x35
  | .getPerms => 0x36
  | .getUperms => 0x37
  | .isInBounds => 0x40
  | .isRepresentable => 0x41
  | .isSealed => 0x42
  | .isUnsealed => 0x43
  | .isSealedEntry => 0x44
  | .setSealed => 0x50
  | .setUnsealed => 0x51
  | .setCursor => 0x52
  | .setPerms => 0x53
  | .regRead _ => 0x60
  | .regWrite _ => 0x61
  | .regWriteInt _ => 0x62
  | .regWriteRaw _ => 0x63
  | .regReadCursor _ => 0x64
  | .regReadRaw _ => 0x65
  | .regReset => 0x66

/-- The command word of a well-formed command: opcode in [7:0], rn (0 where there is none) in [15:8], zero above
(30_encoding.md R74). -/
def encode (i : Instr) : CmdWord := BitVec.ofNat 32 (opcodeOf i + 2 ^ 8 * (i.rn?.getD 0))

/-- The command the decoder reads from a word given as a number whose bits at and above nbits are 0. -/
def decodeTableWord (nbits w : Nat) : Option Instr := (decode (BitVec.ofNat 32 (w % 2 ^ nbits))).toOption

end Sys2Proof
end

