-- ==== Sys2Proof/Config.lean ====
section
/-! DEFINITION. What an instance of the block fixes (00_scope.md R7, 10_state.md R38): the configuration record, whose
every OPEN parameter is a field, and the draws of the spec (00_scope.md R11), which are opaque functions under no law.
The last part is the configuration of the instance State.reset belongs to: its OPEN parameters are free values, so no
proof can rest on one (log 2). -/

namespace Sys2Proof

/-- A predicate on the current (m, set), as the `requires` of a fix-up rule (40_permissions.md R97) or an OPEN legacy
name (R101) needs it. The connectives express every predicate of the nine bits (log 13). -/
inductive Cond where
  | always
  | m
  | has (p : Perm)
  | neg (a : Cond)
  | both (a b : Cond)
  | either (a b : Cond)
deriving DecidableEq, Repr, Inhabited

/-- What a fix-up rule clears: one permission name, or the hybrid bit M (40_permissions.md R97). -/
inductive FixTarget where
  | perm (p : Perm)
  | m
deriving DecidableEq, Repr, Inhabited

/-- One normalisation rule (40_permissions.md R97): where it applies, what it clears, what it requires. -/
structure FixupRule where
  onC64R : Bool
  onC128R : Bool
  onLvb0 : Bool
  onLvb1 : Bool
  target : FixTarget
  requires : Cond
deriving DecidableEq, Repr, Inhabited

/-- One entry of a quadrant decode table (40_permissions.md R91). -/
inductive ApEntry where
  | used (set : PermSet) (m : Bool)
  | unused
deriving DecidableEq, Repr, Inhabited

/-- AP_TABLE: for each lvb the 32 entries of the four quadrants, entry q * 8 + i at that index
(40_permissions.md R91, 30_encoding.md R64). -/
structure ApTable where
  lvb0 : Vector ApEntry 32
  lvb1 : Vector ApEntry 32
deriving DecidableEq, Repr

/-- AP128_MAP: the AP bit (0..5) of each of the six C128R permissions (40_permissions.md R96). -/
structure Ap128Map where
  x : Fin 6
  r : Fin 6
  w : Fin 6
  c : Fin 6
  lm : Fin 6
  asr : Fin 6
deriving DecidableEq, Repr

/-- LAYOUT64: the positions of the C64R fields other than SDP (30_encoding.md R66). -/
structure Layout64 where
  bLo : Nat
  tLo : Nat
  efPos : Nat
  ctPos : Nat
  apLo : Nat
deriving DecidableEq, Repr

/-- The six legacy names LEGACY_MAP leaves OPEN (40_permissions.md R101). -/
structure LegacyOpen where
  global : Cond
  storeLocal : Cond
  sealing : Cond
  unsealing : Cond
  cinvoke : Cond
  setcid : Cond
deriving DecidableEq, Repr

/-- IMAGE_ORDER: byte order of a capability's memory image (20_memory.md R53). -/
inductive ByteOrder where
  | little
  | big
deriving DecidableEq, Repr

/-- The configuration of an instance (00_scope.md R7, 10_state.md R38). Parameters of the other format are present and
not read. NUM_GPR is not a field: it is the length of the register file (log 5). -/
structure Config where
  /-- FMT (R3) -/
  fmt : Fmt
  /-- LVB, the level-bits flag (R38) -/
  lvb : Bool
  /-- AP_TABLE (40_permissions.md R91), C64R -/
  apTable : ApTable
  /-- FULL(1), the fail-open fallback set when lvb = 1 (R93) -/
  full1 : PermSet
  /-- FALLBACK_M, the m bit of a fallback set (R93) -/
  fallbackM : Bool
  /-- AP128_MAP (R96), C128R -/
  ap128Map : Ap128Map
  /-- M_POS_128 (30_encoding.md R61), C128R -/
  mPos128 : Nat
  /-- LAYOUT64 (R66), C64R -/
  layout64 : Layout64
  /-- NULL_PESBT_64 (R69), C64R -/
  nullPesbt64 : BitVec 32
  /-- MAX_AP_64 (42_capvalue.md R144), C64R -/
  maxAp64 : BitVec 5
  /-- FIXUP_RULES (40_permissions.md R97, R98) -/
  fixupRules : List FixupRule
  /-- MAX_OTYPE (30_encoding.md R70) -/
  maxOtype : Nat
  /-- the OPEN part of LEGACY_MAP (40_permissions.md R101) -/
  legacy : LegacyOpen
  /-- IMAGE_ORDER (20_memory.md R53) -/
  imageOrder : ByteOrder
deriving DecidableEq, Repr

namespace FixupRule

/-- A rule that applies to every format and every LVB. -/
def everywhere (target : FixTarget) (requires : Cond) : FixupRule :=
  ⟨true, true, true, true, target, requires⟩

/-- F1: "ASR requires {C,R,W,X} all set, else clear ASR" (40_permissions.md R98). -/
def f1 : FixupRule :=
  everywhere (.perm .asr) (.both (.both (.has .c) (.has .r)) (.both (.has .w) (.has .x)))

/-- F2: "C requires R or W, else clear C" (40_permissions.md R98). -/
def f2 : FixupRule := everywhere (.perm .c) (.either (.has .r) (.has .w))

/-- F3: "M requires X, else clear M" (40_permissions.md R98). -/
def f3 : FixupRule := everywhere .m (.has .x)

end FixupRule

/-! ## Draws: values the spec leaves open, as functions of the operands under no law. The results are natural numbers;
the machine reads each in the range the rule gives it, so every value of that range is possible. -/

/-- OOR_DECODE(p, a): base and top of a word whose stored exponent is above MAX_E (41_bounds.md R115), read as a base
below 2^AW and a top of at most 2^AW (92_eei_decisions.md D12). Free value, log 9. -/
opaque Config.oorDecode (k : Config) (p a : Nat) : Nat × Nat

/-- INVERTED_LENGTH(c): the length of a capability (pesbt, cursor, tag) with top < base (42_capvalue.md R148). Free value,
log 10. DESIGN CHOICE: the draw may depend on the tag, as a function of c under no law (R148), although R149 says that the
tag is not read. -/
opaque Config.invertedLength (k : Config) (pesbt cursor : Nat) (tag : Bool) : Nat

/-- The fields ENCODE_INVERTED leaves open (41_bounds.md R117), and the rounded bounds and exponent the rule does not name;
the exponent is read in 0..MAX_E (R110). -/
structure EncodeDraw where
  ef : Bool
  es : Nat
  t : Nat
  b : Nat
  base : Nat
  top : Nat
  e : Nat
deriving DecidableEq, Repr, Inhabited

/-- ENCODE_INVERTED(b, t): the encoding of a request with b > t or t > 2^AW (41_bounds.md R117). Free value, log 11. -/
opaque Config.encodeInverted (k : Config) (b t : Nat) : EncodeDraw

/-- The set an Unused entry of quadrant 1 decodes to; the spec gives none, since no such entry exists at lvb = 0
(40_permissions.md R93). Free value, log 12. -/
opaque Config.quadrant1Fallback (k : Config) (code : Nat) (lvb : Bool) : PermSet

/-! ## The instance of State.reset (log 2): C128R, IMAGE_ORDER little-endian; every OPEN parameter a free value. -/

namespace Config

/-- LVB of the reset instance. Free value, log 2. -/
opaque freeLvb : Bool

/-- An entry of AP_TABLE of the reset instance. Free value, log 2. -/
opaque freeApEntry (lvb : Bool) (code : Nat) : ApEntry

/-- FULL(1) of the reset instance. Free value, log 2. -/
opaque freeFull1 : PermSet

/-- FALLBACK_M of the reset instance. Free value, log 2. -/
opaque freeFallbackM : Bool

/-- The order AP128_MAP of the reset instance puts the six names in. Free value, log 2. -/
opaque freeAp128Order : Equiv.Perm (Fin 6)

/-- Which of the 19 admitted positions M_POS_128 of the reset instance is. Free value, log 2. -/
opaque freeMIndex : Fin 19

/-- A number of LAYOUT64 of the reset instance. Free value, log 2. -/
opaque freeLayout (field : Nat) : Nat

/-- NULL_PESBT_64 of the reset instance. Free value, log 2. -/
opaque freeNullPesbt64 : BitVec 32

/-- MAX_AP_64 of the reset instance. Free value, log 2. -/
opaque freeMaxAp64 : BitVec 5

/-- The twelve fix-up rules the spec does not give. Free value, log 2. -/
opaque freeFixupRule (i : Nat) : FixupRule

/-- The order of the fifteen fix-up rules of the reset instance. Free value, log 2. -/
opaque freeFixupOrder : Equiv.Perm (Fin 15)

/-- MAX_OTYPE of the reset instance. Free value, log 2. -/
opaque freeMaxOtype : Nat

/-- An OPEN legacy name of the reset instance. Free value, log 2. -/
opaque freeLegacy (i : Nat) : Cond

/-- Fix-up rule number i before ordering: F1, F2, F3 (40_permissions.md R98), then the twelve open ones. -/
def resetRule (i : Fin 15) : FixupRule :=
  match i.val with
  | 0 => .f1
  | 1 => .f2
  | 2 => .f3
  | n + 3 => freeFixupRule n

/-- M_POS_128 from its number: one of bits 52:50 or 43:28 (30_encoding.md R61). -/
def mPosition (i : Fin 19) : Nat := if i.val < 3 then 50 + i.val else 25 + i.val

/-- The configuration of the instance State.reset belongs to (log 2). -/
def reset : Config where
  fmt := .c128r
  lvb := freeLvb
  apTable := ⟨.ofFn fun i => freeApEntry false i.val, .ofFn fun i => freeApEntry true i.val⟩
  full1 := freeFull1
  fallbackM := freeFallbackM
  ap128Map := ⟨freeAp128Order 0, freeAp128Order 1, freeAp128Order 2, freeAp128Order 3, freeAp128Order 4, freeAp128Order 5⟩
  mPos128 := mPosition freeMIndex
  layout64 := ⟨freeLayout 0, freeLayout 1, freeLayout 2, freeLayout 3, freeLayout 4⟩
  nullPesbt64 := freeNullPesbt64
  maxAp64 := freeMaxAp64
  fixupRules := List.ofFn fun i => resetRule (freeFixupOrder i)
  maxOtype := freeMaxOtype
  legacy := ⟨freeLegacy 0, freeLegacy 1, freeLegacy 2, freeLegacy 3, freeLegacy 4, freeLegacy 5⟩
  imageOrder := .little

end Config

end Sys2Proof
end

