-- ==== Sys2Proof/Machine/Params.lean ====
section
/-! DEFINITION. The derived constants of a format (00_scope.md R3, R7) and the constants an instance's configuration
fixes: field positions, NULL_PESBT, MAX_CODE, the otype numbers (30_encoding.md R61, R66, R69, R70), the permission table of
one lvb and which fix-up rules apply (40_permissions.md R91, R97). -/

namespace Sys2Proof

/-- The truth of a predicate at (m, set). -/
def Cond.holds (m : Bool) (s : PermSet) : Cond → Bool
  | .always => true
  | .m => m
  | .has p => s.has p
  | .neg a => !a.holds m s
  | .both a b => a.holds m s && b.holds m s
  | .either a b => a.holds m s || b.holds m s

namespace Fmt

/-- AW, the address width and the pesbt width (00_scope.md R3). -/
abbrev aw : Fmt → Nat
  | .c64r => 32
  | .c128r => 64

/-- MW, the mantissa width (00_scope.md R3). -/
abbrev mw : Fmt → Nat
  | .c64r => 10
  | .c128r => 14

/-- TW = MW - 2, the T field width (00_scope.md R7). DEDUCED for C64R by analogy (log 17). -/
abbrev tw (f : Fmt) : Nat := f.mw - 2

/-- MAX_E = AW - MW + 2, the largest exponent (00_scope.md R7). DEDUCED for C64R by analogy (log 17). -/
abbrev maxE (f : Fmt) : Nat := f.aw - f.mw + 2

/-- EXPW, the stored-exponent width (00_scope.md R7). -/
abbrev expw (_ : Fmt) : Nat := 6

/-- SDPW, the width of the software-defined permissions (00_scope.md R7, 30_encoding.md R62, R67). -/
abbrev sdpw : Fmt → Nat
  | .c64r => 2
  | .c128r => 4

/-- APW, the permission code width: 5 with M inside the code, or 7 = M and AP (00_scope.md R7). -/
abbrev apw : Fmt → Nat
  | .c64r => 5
  | .c128r => 7

/-- The width of the AP field of the pesbt (30_encoding.md R61, R66). -/
def apFieldWidth : Fmt → Nat
  | .c64r => 5
  | .c128r => 6

/-- Alignment in bytes a consumer gives a memory image (20_memory.md R54). -/
def imageAlign (f : Fmt) : Nat := 2 * f.aw / 8

end Fmt

namespace Config

/-- Lowest bit of the SDP field (30_encoding.md R62, R67). -/
def sdpLo (k : Config) : Nat :=
  match k.fmt with
  | .c64r => 30
  | .c128r => 53

/-- Lowest bit of the AP field (30_encoding.md R61, R66). -/
def apLo (k : Config) : Nat :=
  match k.fmt with
  | .c64r => k.layout64.apLo
  | .c128r => 44

/-- Position of the CT (sealed) bit (30_encoding.md R61, R66). PRESUMED for C128R (log 15). -/
def ctPos (k : Config) : Nat :=
  match k.fmt with
  | .c64r => k.layout64.ctPos
  | .c128r => 27

/-- Position of the EF bit (30_encoding.md R61, R66). -/
def efPos (k : Config) : Nat :=
  match k.fmt with
  | .c64r => k.layout64.efPos
  | .c128r => 26

/-- Lowest bit of the T field (30_encoding.md R61, R66). -/
def tLo (k : Config) : Nat :=
  match k.fmt with
  | .c64r => k.layout64.tLo
  | .c128r => 14

/-- Lowest bit of the B field (30_encoding.md R61, R66). -/
def bLo (k : Config) : Nat :=
  match k.fmt with
  | .c64r => k.layout64.bLo
  | .c128r => 0

/-- Position of the separate M bit, where the format has one (30_encoding.md R61, R66). -/
def mBit? (k : Config) : Option Nat :=
  match k.fmt with
  | .c64r => none
  | .c128r => some k.mPos128

/-- NULL_PESBT, the canonical null pesbt (30_encoding.md R69): 0 for C128R (log 18), OPEN for C64R. -/
def nullPesbt (k : Config) : BitVec k.fmt.aw :=
  match k.fmt with
  | .c64r => k.nullPesbt64.setWidth _
  | .c128r => BitVec.ofNat _ 0

/-- MAX_CODE, the permission code MAKE_MAX_PERMS_CAP stores (42_capvalue.md R144). -/
def maxCode (k : Config) : BitVec k.fmt.apw :=
  match k.fmt with
  | .c64r => k.maxAp64.setWidth _
  | .c128r => BitVec.ofNat _ 0x3F

/-- OTYPE_UNSEALED = MAX_OTYPE - 0 (30_encoding.md R70). -/
def otypeUnsealed (k : Config) : Nat := k.maxOtype

/-- OTYPE_SENTRY = MAX_OTYPE - 1 (30_encoding.md R70); the subtraction is of natural numbers (log 14). -/
def otypeSentry (k : Config) : Nat := k.maxOtype - 1

/-- The AP bit AP128_MAP gives a permission; EL and SL have none (40_permissions.md R90, R96; 90_conflicts.md C11). -/
def apBit? (k : Config) : Perm → Option Nat
  | .x => some k.ap128Map.x.val
  | .r => some k.ap128Map.r.val
  | .w => some k.ap128Map.w.val
  | .c => some k.ap128Map.c.val
  | .lm => some k.ap128Map.lm.val
  | .asr => some k.ap128Map.asr.val
  | .el => none
  | .sl => none

/-- The table of one lvb. -/
def apEntries (k : Config) (lvb : Bool) : Vector ApEntry 32 :=
  if lvb then k.apTable.lvb1 else k.apTable.lvb0

/-- LVB or FMT applicability of a fix-up rule (40_permissions.md R97). -/
def ruleApplies (k : Config) (r : FixupRule) : Bool :=
  (match k.fmt with | .c64r => r.onC64R | .c128r => r.onC128R) && (if k.lvb then r.onLvb1 else r.onLvb0)

end Config

end Sys2Proof
end

