-- ==== Sys2Proof/Machine/State.lean ====
section
/-! DEFINITION. The state of an instance as plain data (10_state.md R44): the register cache, the sticky fault mark,
the instance's configuration (R38, log 1) and the command port through which the consumer issues commands and receives
outcomes (log 3). The block has no pc, flags, control registers or memory (R39, R40, R41, 20_memory.md R50). -/

namespace Sys2Proof.Machine

/-- A capability value (10_state.md R20): every other property is a view of these three fields. -/
structure Cap (f : Fmt) where
  pesbt : BitVec f.aw
  cursor : BitVec f.aw
  tag : Bool
deriving DecidableEq, Repr

/-- Which view of a register-cache entry is authoritative (10_state.md R33, R34). -/
inductive EntryState where
  | integer
  | fullyDecompressed
  | taggedCap
  | untaggedCap
deriving DecidableEq, Repr

/-- The decompressed cache slot: a capability, or Poison, which has no numeric value (10_state.md R33, R34). -/
inductive Slot (f : Fmt) where
  | poison
  | cap (c : Cap f)
deriving DecidableEq, Repr

/-- A register-cache entry (10_state.md R33). -/
structure Entry (f : Fmt) where
  pesbt : BitVec f.aw
  cursor : BitVec f.aw
  state : EntryState
  slot : Slot f
deriving DecidableEq, Repr

/-- Decoded bounds (41_bounds.md R110, R113). -/
structure Bounds (f : Fmt) where
  base : BitVec f.aw
  top : BitVec (f.aw + 1)
  valid : Bool
deriving DecidableEq, Repr

/-- The result of BOUNDS_ENCODE (41_bounds.md R116): the fields, whether no rounding occurred, the rounded bounds and
the exponent. -/
structure Encoded (f : Fmt) where
  ef : Bool
  es : BitVec f.expw
  t : BitVec f.tw
  b : BitVec f.mw
  exact : Bool
  base : BitVec f.aw
  top : BitVec (f.aw + 1)
  e : Nat
deriving DecidableEq, Repr

/-- The record ROUNDTRIP_CHECK returns (42_capvalue.md R161). -/
structure RoundTrip (f : Fmt) where
  base : BitVec f.aw
  cursor : BitVec f.aw
  top : BitVec (f.aw + 1)
  length : BitVec (f.aw + 1)
  sealed : Bool
  reserved : BitVec f.aw
  boundsValid : Bool
  reencoded : BitVec f.aw
  equal : Bool
deriving DecidableEq, Repr

/-- The result of a command, by the result types of the opcode map (30_encoding.md R75). -/
inductive Value (f : Fmt) where
  /-- no result -/
  | unit
  | bool (b : Bool)
  | code (c : BitVec f.apw)
  | perms (set : PermSet) (m : Bool)
  | fixup (m : Bool) (set : PermSet) (changed : Bool)
  | bounds (v : Bounds f)
  | encoded (v : Encoded f)
  | cap (c : Cap f)
  | capExact (c : Cap f) (exact : Bool)
  /-- a UInt(AW) result -/
  | word (v : BitVec f.aw)
  /-- a UInt(AW+1) result -/
  | wide (v : BitVec (f.aw + 1))
  | uperms (v : BitVec f.sdpw)
  | raw (pesbt cursor : BitVec f.aw) (tag : Bool)
  | roundTrip (v : RoundTrip f)
deriving DecidableEq, Repr

/-- The operand values beside a command word, each under the name 30_encoding.md R75 gives it. A command reads the
operands its row names and no other (log 4). -/
structure Operands (f : Fmt) where
  set : PermSet
  req : PermSet
  s : PermSet
  m : Bool
  lvb : Bool
  code : BitVec f.apw
  c : Cap f
  p : BitVec f.aw
  a : BitVec f.aw
  b : BitVec f.aw
  t : BitVec (f.aw + 1)
  rb : BitVec f.aw
  rt : BitVec (f.aw + 1)
  v : BitVec f.aw
  n : BitVec (f.aw + 1)
  tag : Bool
  ot : Nat
  u : BitVec f.sdpw
deriving DecidableEq, Repr

/-- A command as the consumer issues it: its word and the typed operands beside it (30_encoding.md R74). -/
structure Command (f : Fmt) where
  word : CmdWord
  operands : Operands f
deriving DecidableEq, Repr

/-- The model faults (60_exceptions.md R212) with what each records. The command that meets one delivers it as its
outcome and sets the sticky mark, in a next state; step raises the marked fault for every later command (R216). A stop
is safe: the spec has every later command return that fault without executing. -/
inductive Fault where
  /-- Raised by the check after a command when an entry breaks I1 to I4 of 43_regcache.md R199: the register index and
  the entry (with its format). Unreachable from reset. Safe. -/
  | cacheDesync (rn : Nat) (fmt : Fmt) (entry : Entry fmt)
  /-- Raised by REG_READ and REG_READ_RAW when the slot they read is Poison: the register index. Unreachable from reset.
  Safe. -/
  | poisonRead (rn : Nat)
deriving DecidableEq, Repr

/-- The refusals of the spec (60_exceptions.md R213) with what each records, delivered to the issuer in a next state
(R215; log 6), and the refusal of a command the model gives no meaning. -/
inductive Refusal where
  /-- Raised by an arm of exec that has no meaning yet. Safe: the run stops. No arm raises it. -/
  | notModelled (mnemonic : String)
  /-- Delivered by step for a word whose bits [7:0] are no opcode (code 1): the command word. Safe: the spec's own outcome. -/
  | unknownOpcode (word : CmdWord)
  /-- Delivered by step for a word with a non-zero reserved bit (code 2): the command word. Safe: the spec's own outcome. -/
  | reservedBits (word : CmdWord)
  /-- Delivered by the REG_* commands for rn at or above NUM_GPR (code 3): the command word. Safe: the spec's own outcome. -/
  | badRegister (word : CmdWord)
  /-- Delivered by SET_SEALED for an otype other than OTYPE_SENTRY (code 4): the command word and the otype. Safe: the
  spec's own outcome. -/
  | unsupportedOtype (word : CmdWord) (otype : Nat)
deriving DecidableEq, Repr

/-- The outcome of a command, delivered to its issuer (00_scope.md R11, 60_exceptions.md R215). -/
inductive Response (f : Fmt) where
  | returned (v : Value f)
  | refused (r : Refusal)
  | faulted (x : Fault)
deriving DecidableEq, Repr

/-- The state of an instance. -/
structure State where
  /-- the instance's configuration (10_state.md R38; log 1); no step changes it -/
  cfg : Config
  /-- the register cache, NUM_GPR entries (10_state.md R32, R44; log 5) -/
  gpr : List (Entry cfg.fmt)
  /-- the sticky fault mark (10_state.md R44, 60_exceptions.md R216) -/
  mark : Option Fault
  /-- the commands issued and not yet executed, in issue order (20_memory.md R56; log 3) -/
  pending : List (Command cfg.fmt)
  /-- the operands beside the word under execution (30_encoding.md R74; log 4) -/
  operands : Operands cfg.fmt
  /-- the outcome delivered for the last command (60_exceptions.md R215; log 3) -/
  response : Option (Response cfg.fmt)
deriving DecidableEq, Repr

/-- NUM_GPR of the instance (10_state.md R32; log 5). -/
def State.numGpr (s : State) : Nat := s.gpr.length

/-- NullCap (10_state.md R35). -/
def nullCap (k : Config) : Cap k.fmt := ⟨k.nullPesbt, BitVec.ofNat _ 0, false⟩

/-- Register 0 at all times (10_state.md R35, R43). -/
def zeroEntry (k : Config) : Entry k.fmt := ⟨k.nullPesbt, BitVec.ofNat _ 0, .fullyDecompressed, .cap (nullCap k)⟩

/-- A register other than 0 after reset (10_state.md R43). -/
def resetEntry (k : Config) : Entry k.fmt := ⟨k.nullPesbt, BitVec.ofNat _ 0, .integer, .poison⟩

/-- The register file of n registers after reset (10_state.md R43, 43_regcache.md R198). -/
def resetFile (k : Config) : Nat → List (Entry k.fmt)
  | 0 => []
  | n + 1 => zeroEntry k :: List.replicate n (resetEntry k)

/-- The capability with every field zero, as an operand no consumer has given yet (log 4). -/
def Cap.zero (f : Fmt) : Cap f := ⟨BitVec.ofNat _ 0, BitVec.ofNat _ 0, false⟩

/-- The operand port before the first command (log 4). -/
def Operands.zero (f : Fmt) : Operands f where
  set := .empty
  req := .empty
  s := .empty
  m := false
  lvb := false
  code := BitVec.ofNat _ 0
  c := Cap.zero f
  p := BitVec.ofNat _ 0
  a := BitVec.ofNat _ 0
  b := BitVec.ofNat _ 0
  t := BitVec.ofNat _ 0
  rb := BitVec.ofNat _ 0
  rt := BitVec.ofNat _ 0
  v := BitVec.ofNat _ 0
  n := BitVec.ofNat _ 0
  tag := false
  ot := 0
  u := BitVec.ofNat _ 0

/-- The power-on state of an instance with configuration k and n registers (70_reset_and_hazards.md R230). -/
def State.powerOn (k : Config) (n : Nat) : State where
  cfg := k
  gpr := resetFile k n
  mark := none
  pending := []
  operands := Operands.zero k.fmt
  response := none

/-- The machine right after reset (10_state.md R43, 70_reset_and_hazards.md R230): the power-on state of the instance
Config.reset with the default 32 registers (10_state.md R32; log 2). -/
def State.reset : State := State.powerOn Config.reset 32

end Sys2Proof.Machine
end

