-- ==== Sys2Proof/Machine/Fields.lean ====
section
/-! DEFINITION. The compressed word (pesbt): splitting it into named fields and packing them back (30_encoding.md R60 to
R68). The machine's operand forms are the typed operands of the port; the fields here are the operands packed in a word. -/

namespace Sys2Proof.Machine

/-- The named fields of a pesbt (30_encoding.md R60), and the reserved bits at their own positions (10_state.md R27).
`code` is the permission code: the AP code for C64R (R64), M and AP for C128R (R65). -/
structure Fields (f : Fmt) where
  sdp : BitVec f.sdpw
  code : BitVec f.apw
  ct : Bool
  ef : Bool
  t : BitVec f.tw
  b : BitVec f.mw
  reserved : BitVec f.aw
deriving DecidableEq, Repr

/-- A field value placed with its lowest bit at a position of the word (30_encoding.md R68). -/
def place (f : Fmt) (lo : Nat) {n : Nat} (v : BitVec n) : BitVec f.aw := (v.setWidth f.aw) <<< lo

/-- A Boolean as the one-bit field it stands for. -/
def bit (b : Bool) : BitVec 1 := BitVec.ofBool b

/-- The separate M bit placed at M_POS_128, for the format that has one (30_encoding.md R61, R65). -/
def placeM (k : Config) (m : Bool) : BitVec k.fmt.aw :=
  match k.mBit? with
  | none => BitVec.ofNat _ 0
  | some pos => place k.fmt pos (bit m)

/-- Pack(f): a word from its fields (30_encoding.md R68). The low bits of the permission code are the AP field; for
C128R bit 6 of the code is M (R65). -/
def pack (k : Config) (x : Fields k.fmt) : BitVec k.fmt.aw :=
  place k.fmt k.sdpLo x.sdp |||
  place k.fmt k.apLo (x.code.setWidth k.fmt.apFieldWidth) |||
  placeM k (x.code.getLsbD k.fmt.apFieldWidth) |||
  place k.fmt k.ctPos (bit x.ct) |||
  place k.fmt k.efPos (bit x.ef) |||
  place k.fmt k.tLo x.t |||
  place k.fmt k.bLo x.b |||
  x.reserved

/-- Every bit a named field uses (30_encoding.md R60). -/
def namedMask (k : Config) : BitVec k.fmt.aw :=
  pack k ⟨BitVec.allOnes _, BitVec.allOnes _, true, true, BitVec.allOnes _, BitVec.allOnes _, BitVec.ofNat _ 0⟩

/-- The reserved bits of a word, at their positions, every other bit zero (10_state.md R27). -/
def reservedOf (k : Config) (p : BitVec k.fmt.aw) : BitVec k.fmt.aw := p &&& ~~~(namedMask k)

/-- The M bit of a word, 0 for the format without a separate one (30_encoding.md R61, R66). -/
def mOf (k : Config) (p : BitVec k.fmt.aw) : Bool :=
  match k.mBit? with
  | none => false
  | some pos => p.getLsbD pos

/-- The permission code of a word: the AP field, with M above it for C128R (30_encoding.md R64, R65). -/
def codeOf (k : Config) (p : BitVec k.fmt.aw) : BitVec k.fmt.apw :=
  BitVec.ofNat _
    ((p.extractLsb' k.apLo k.fmt.apFieldWidth).toNat + 2 ^ k.fmt.apFieldWidth * (mOf k p).toNat)

/-- Fields(p): a word split into its named fields (30_encoding.md R61, R66). -/
def fields (k : Config) (p : BitVec k.fmt.aw) : Fields k.fmt where
  sdp := p.extractLsb' k.sdpLo k.fmt.sdpw
  code := codeOf k p
  ct := p.getLsbD k.ctPos
  ef := p.getLsbD k.efPos
  t := p.extractLsb' k.tLo k.fmt.tw
  b := p.extractLsb' k.bLo k.fmt.mw
  reserved := reservedOf k p

end Sys2Proof.Machine
end

