-- ==== Sys2Proof/Machine/BoundsCodec.lean ====
section
/-! DEFINITION. The bounds codec as functions: exponent and mantissa decode, cursor-relative decode with its
corrections, and the rounding encoder (41_bounds.md R110 to R117). Intermediate values are unbounded integers
(00_scope.md R9). PRESUMED by the spec itself: the comparisons, the implied length bit, the top correction and the
encoder's granularity (log 16). -/

namespace Sys2Proof.Machine

/-- bitlen(v) (00_scope.md R9). -/
def bitlen (v : Nat) : Nat := if v = 0 then 0 else Nat.log2 v + 1

/-- What R112 reads from the bounds fields: the exponent, the T bits, the base mantissa and the implied length bit. -/
structure Mantissas where
  e : Nat
  tLow : Nat
  bm : Nat
  lmsb : Nat
deriving DecidableEq, Repr

/-- The stored exponent ES = T[2:0] ‖ B[2:0] (30_encoding.md R63). -/
def storedExponent (t b : Nat) : Nat := t % 8 * 8 + b % 8

/-- Exponent and mantissa decode; none is the OutOfRange of a stored exponent above MAX_E (41_bounds.md R112). -/
def mantissas (f : Fmt) (ef : Bool) (t b : Nat) : Option Mantissas :=
  if ef then some ⟨0, t, b, 0⟩
  else if storedExponent t b > f.maxE then none
  else some ⟨f.maxE - storedExponent t b, t / 8 * 8, b / 8 * 8, 1⟩

/-- Tm, the MW-bit top mantissa: its two high bits come from the base mantissa, the length carry and the implied bit
(41_bounds.md R113). -/
def topMantissa (f : Fmt) (d : Mantissas) : Nat :=
  let lcarry := if d.tLow < d.bm % 2 ^ f.tw then 1 else 0
  (d.bm / 2 ^ f.tw + lcarry + d.lmsb) % 4 * 2 ^ f.tw + d.tLow

/-- R, the edge of the representable region: (Bm - 2^(MW-2)) mod 2^MW (41_bounds.md R113). -/
def regionEdge (f : Fmt) (bm : Nat) : Nat := (bm + 2 ^ f.mw - 2 ^ (f.mw - 2)) % 2 ^ f.mw

/-- The correction carry of a mantissa against the address's: its side of the edge minus the address's, in -1, 0, 1
(41_bounds.md R113, cb and ct). -/
def carry (edge amid mant : Nat) : Int :=
  (if mant < edge then 1 else 0) - (if amid < edge then 1 else 0)

/-- A bound before its width is taken: the address's high bits with the correction carry, the mantissa spliced in at the
exponent (41_bounds.md R113). -/
def assemble (f : Fmt) (e a mant : Nat) (c : Int) : Int :=
  (((a >>> (e + f.mw) : Nat) : Int) + c) * ((2 ^ (e + f.mw) : Nat) : Int) + ((mant * 2 ^ e : Nat) : Int)

/-- TopCorrect(base, top, E) (41_bounds.md R114). -/
def topCorrect (f : Fmt) (base : BitVec f.aw) (top : BitVec (f.aw + 1)) (e : Nat) : BitVec (f.aw + 1) :=
  if e + 1 < f.maxE ∧ (top.toNat / 2 ^ (f.aw - 1) + 4 - base.toNat / 2 ^ (f.aw - 1)) % 4 > 1 then
    top ^^^ BitVec.ofNat _ (2 ^ f.aw)
  else top

/-- Cursor-relative decode of decoded mantissas at an address (41_bounds.md R113, after R112). -/
def boundsAt (f : Fmt) (d : Mantissas) (a : Nat) : Bounds f :=
  let tm := topMantissa f d
  let edge := regionEdge f d.bm
  let amid := (a >>> d.e) % 2 ^ f.mw
  let base := BitVec.ofInt f.aw (assemble f d.e a d.bm (carry edge amid d.bm))
  let top := BitVec.ofInt (f.aw + 1) (assemble f d.e a tm (carry edge amid tm))
  ⟨base, topCorrect f base top d.e, true⟩

/-- DecodeBounds(p, a) (41_bounds.md R113); a stored exponent above MAX_E decodes to the draw OOR_DECODE with
bounds_valid true (R115), its top at most 2^AW (92_eei_decisions.md D12; log 9). -/
def decodeBounds (k : Config) (p a : BitVec k.fmt.aw) : Bounds k.fmt :=
  let x := fields k p
  match mantissas k.fmt x.ef x.t.toNat x.b.toNat with
  | some d => boundsAt k.fmt d a.toNat
  | none =>
    let y := k.oorDecode p.toNat a.toNat
    ⟨BitVec.ofNat _ y.1, BitVec.ofNat _ (y.2 % (2 ^ k.fmt.aw + 1)), true⟩

/-- Whether bits of a bound are lost when it is kept to multiples of 2^(E+3): lb and lt of R116 (41_bounds.md). -/
def bitsLost (v e : Nat) : Bool := decide (v % 2 ^ (e + 3) ≠ 0)

/-- Bi, the base mantissa bits at an exponent (41_bounds.md R116). -/
def baseBits (f : Fmt) (b e : Nat) : Nat := (b >>> (e + 3)) % 2 ^ (f.mw - 3)

/-- Ti, the top mantissa bits at an exponent, rounded up where top bits are lost (41_bounds.md R116). -/
def topBits (f : Fmt) (t e : Nat) (lt : Bool) : Nat := ((t >>> (e + 3)) + lt.toNat) % 2 ^ (f.mw - 3)

/-- The rounded length overflows the mantissa at an exponent (41_bounds.md R116). -/
def lengthOverflows (f : Fmt) (b t e : Nat) : Bool :=
  decide ((topBits f t e (bitsLost t e) + 2 ^ (f.mw - 3) - baseBits f b e) % 2 ^ (f.mw - 3) ≥ 2 ^ (f.mw - 4))

/-- The EF = 0 encoding at exponent e, given what is lost (41_bounds.md R116). -/
def encodeRounded (f : Fmt) (b t e : Nat) (lb lt : Bool) : Encoded f where
  ef := false
  es := BitVec.ofNat _ (f.maxE - e)
  t := BitVec.ofNat _ (topBits f t e lt % 2 ^ (f.tw - 3) * 8 + (f.maxE - e) / 8)
  b := BitVec.ofNat _ (baseBits f b e * 8 + (f.maxE - e) % 8)
  exact := !(lb || lt)
  base := BitVec.ofNat _ ((b >>> (e + 3)) * 2 ^ (e + 3))
  top := BitVec.ofNat _ (((t >>> (e + 3)) + lt.toNat) * 2 ^ (e + 3))
  e := e

/-- The EF = 1 encoding, with exponent 0 and nothing lost (41_bounds.md R116). -/
def encodeExact (f : Fmt) (b t : Nat) : Encoded f where
  ef := true
  es := BitVec.ofNat _ 0
  t := BitVec.ofNat _ t
  b := BitVec.ofNat _ b
  exact := true
  base := BitVec.ofNat _ b
  top := BitVec.ofNat _ t
  e := 0

/-- The smallest E with L < 2^(E+MW-1) (41_bounds.md R116). -/
def lengthExponent (f : Fmt) (l : Nat) : Nat := bitlen (l >>> (f.mw - 1))

/-- EncodeBounds(b, t) inside its domain b ≤ t ≤ 2^AW (41_bounds.md R116). -/
def encodeInDomain (f : Fmt) (b t : Nat) : Encoded f :=
  let e := lengthExponent f (t - b)
  if e = 0 ∧ (t - b).testBit (f.mw - 2) = false then encodeExact f b t
  else if lengthOverflows f b t e then
    encodeRounded f b t (e + 1) (bitsLost b e || decide (baseBits f b e % 2 = 1))
      (bitsLost t e || decide (topBits f t e (bitsLost t e) % 2 = 1))
  else encodeRounded f b t e (bitsLost b e) (bitsLost t e)

/-- EncodeBounds(b, t) (41_bounds.md R116); a request with b > t or t > 2^AW is the draw ENCODE_INVERTED with exact
false (R117, log 11), its exponent in 0..MAX_E (R110). -/
def encodeBounds (k : Config) (b : BitVec k.fmt.aw) (t : BitVec (k.fmt.aw + 1)) : Encoded k.fmt :=
  if b.toNat ≤ t.toNat ∧ t.toNat ≤ 2 ^ k.fmt.aw then encodeInDomain k.fmt b.toNat t.toNat
  else
    let y := k.encodeInverted b.toNat t.toNat
    ⟨y.ef, BitVec.ofNat _ y.es, BitVec.ofNat _ y.t, BitVec.ofNat _ y.b, false, BitVec.ofNat _ y.base,
      BitVec.ofNat _ y.top, y.e % (k.fmt.maxE + 1)⟩

end Sys2Proof.Machine
end

