-- ==== Sys2Proof/Machine/PermCodec.lean ====
section
/-! DEFINITION. The permission codec as functions: decode with its fallbacks, encode, normalisation
(40_permissions.md R90 to R98). The legacy view is R101. -/

namespace Sys2Proof.Machine

/-- FULL(lvb), the fail-open fallback set (40_permissions.md R93). -/
def fullSet (k : Config) (lvb : Bool) : PermSet :=
  if lvb then k.full1 else .ofList [.x, .r, .w, .c, .asr]

/-- Fallback(q, lvb): what an Unused entry of a quadrant decodes to (40_permissions.md R93). Quadrant 1 is a free value
(log 12). -/
def fallback (k : Config) (code : Nat) (lvb : Bool) : PermSet × Bool :=
  (match code / 8 with
    | 0 => .empty
    | 1 => k.quadrant1Fallback code lvb
    | _ => fullSet k lvb,
   k.fallbackM)

/-- The C64R decode of a code below 32 through AP_TABLE (40_permissions.md R92). -/
def permDecode64 (k : Config) (code : BitVec 5) (lvb : Bool) : PermSet × Bool :=
  match (k.apEntries lvb)[code.toNat] with
  | .used s m => (s, m)
  | .unused => fallback k code.toNat lvb

/-- The C128R decode: AP128_MAP names the bit of each permission, bit 6 is M (40_permissions.md R92). -/
def permDecode128 (k : Config) (code : Nat) : PermSet × Bool :=
  (.ofTest fun p =>
      match k.apBit? p with
      | some n => code.testBit n
      | none => false,
   code.testBit 6)

/-- PermDecode(code, lvb) (40_permissions.md R92). -/
def permDecode (k : Config) (code : BitVec k.fmt.apw) (lvb : Bool) : PermSet × Bool :=
  match k.fmt with
  | .c64r => permDecode64 k (BitVec.ofNat 5 code.toNat) lvb
  | .c128r => permDecode128 k code.toNat

/-- The C64R encode: the index of the entry that holds (set, m), or 0 (40_permissions.md R94, R95). DESIGN
CHOICE (log 26): R94's corner case "`set = {}` with m = 0 returns 0" names no lvb; under lvb = 1, where R91 leaves every
entry OPEN, the table is followed, so ({}, 0) has the code of the entry that holds it, which need not be 0. -/
def permEncode64 (k : Config) (set : PermSet) (m lvb : Bool) : Nat :=
  ((k.apEntries lvb).toList.findIdx? (· = .used set m)).getD 0

/-- The C128R encode: M above the bits AP128_MAP gives the set's names, or 0 if a name has no bit
(40_permissions.md R94, R95). -/
def permEncode128 (k : Config) (set : PermSet) (m : Bool) : Nat :=
  if Perm.all.any fun p => set.has p && (k.apBit? p).isNone then 0
  else
    Perm.all.foldl (fun acc p => if set.has p then acc ||| 1 <<< (k.apBit? p).getD 0 else acc) (m.toNat <<< 6)

/-- PermEncode(set, m, lvb) (40_permissions.md R94). -/
def permEncode (k : Config) (set : PermSet) (m lvb : Bool) : BitVec k.fmt.apw :=
  BitVec.ofNat _
    (match k.fmt with
      | .c64r => permEncode64 k set m lvb
      | .c128r => permEncode128 k set m)

/-- One normalisation rule on the current (m, set): it can only clear its target (40_permissions.md R97). -/
def applyRule (k : Config) (x : Bool × PermSet) (r : FixupRule) : Bool × PermSet :=
  if k.ruleApplies r && !r.requires.holds x.1 x.2 then
    match r.target with
    | .m => (false, x.2)
    | .perm p => (x.1, x.2.erase p)
  else x

/-- PermFixup(m, set) without its "changed" result: the rules once each, in list order (40_permissions.md R97). -/
def permFixup (k : Config) (m : Bool) (set : PermSet) : Bool × PermSet :=
  k.fixupRules.foldl (applyRule k) (m, set)

/-- The 12 legacy permission names (10_state.md R23). -/
inductive LegacyPerm where
  | global | execute | load | store | loadCap | storeCap | storeLocal | sealing | unsealing | cinvoke | accessSysRegs | setcid
deriving DecidableEq, Repr

/-- LEGACY_MAP: the legacy view of (set, m); six names by the mapping of 40_permissions.md R101 (PRESUMED, log 20), six
OPEN. -/
def legacyView (k : Config) (set : PermSet) (m : Bool) : LegacyPerm → Bool
  | .execute => set.x
  | .load => set.r
  | .store => set.w
  | .loadCap => set.r && set.c
  | .storeCap => set.w && set.c
  | .accessSysRegs => set.asr
  | .global => k.legacy.global.holds m set
  | .storeLocal => k.legacy.storeLocal.holds m set
  | .sealing => k.legacy.sealing.holds m set
  | .unsealing => k.legacy.unsealing.holds m set
  | .cinvoke => k.legacy.cinvoke.holds m set
  | .setcid => k.legacy.setcid.holds m set

end Sys2Proof.Machine
end

