-- ==== Sys2Proof/Machine/CapCodec.lean ====
section
/-! DEFINITION. The capability value: its views (10_state.md R22 to R27), the codec, constructors, predicates and
mutators as functions (42_capvalue.md R140 to R162, 41_bounds.md R118 to R121), and the memory image a consumer stores
(20_memory.md R52, R53). All are pure (00_scope.md R6). -/

namespace Sys2Proof.Machine

/-! ## Views (10_state.md R22) -/

/-- The bounds view: the decode of the word at the cursor (10_state.md R22). -/
def Cap.bounds (k : Config) (c : Cap k.fmt) : Bounds k.fmt := decodeBounds k c.pesbt c.cursor

/-- base(c) (10_state.md R22). -/
def Cap.base (k : Config) (c : Cap k.fmt) : BitVec k.fmt.aw := (c.bounds k).base

/-- top(c) (10_state.md R22). -/
def Cap.top (k : Config) (c : Cap k.fmt) : BitVec (k.fmt.aw + 1) := (c.bounds k).top

/-- perms(c) and m(c), with the configured LVB (10_state.md R22). -/
def Cap.perms (k : Config) (c : Cap k.fmt) : PermSet × Bool := permDecode k (codeOf k c.pesbt) k.lvb

/-- sdp(c) (10_state.md R24). -/
def Cap.sdp (k : Config) (c : Cap k.fmt) : BitVec k.fmt.sdpw := (fields k c.pesbt).sdp

/-- sealed(c): the CT field (10_state.md R22). -/
def Cap.isSealed (k : Config) (c : Cap k.fmt) : Bool := (fields k c.pesbt).ct

/-- otype(c): the one sealed state is the sentry (10_state.md R25). -/
def Cap.otype (k : Config) (c : Cap k.fmt) : Nat := if c.isSealed k then k.otypeSentry else k.otypeUnsealed

/-- bounds_valid(c): true for both formats (10_state.md R26). -/
def Cap.boundsValid (k : Config) (c : Cap k.fmt) : Bool := (c.bounds k).valid

/-- reserved(c) (10_state.md R27). -/
def Cap.reserved (k : Config) (c : Cap k.fmt) : BitVec k.fmt.aw := reservedOf k c.pesbt

/-- The 12 legacy names as a view of (perms, m) (10_state.md R23). -/
def Cap.legacy (k : Config) (c : Cap k.fmt) : LegacyPerm → Bool := legacyView k (c.perms k).1 (c.perms k).2

/-! ## Codec and constructors -/

/-- Compress(c): the stored word (42_capvalue.md R140). -/
def Cap.compress {f : Fmt} (c : Cap f) : BitVec f.aw := c.pesbt

/-- Decompress(p, a, tag) (42_capvalue.md R142). -/
def decompress {f : Fmt} (p a : BitVec f.aw) (tag : Bool) : Cap f := ⟨p, a, tag⟩

/-- MakeNullDerived(v) (42_capvalue.md R143). -/
def makeNullDerived (k : Config) (v : BitVec k.fmt.aw) : Cap k.fmt := ⟨k.nullPesbt, v, false⟩

/-- The maximal capability over [b, t) at cursor a (42_capvalue.md R144). -/
def makeMaxPermsCap (k : Config) (b a : BitVec k.fmt.aw) (t : BitVec (k.fmt.aw + 1)) : Cap k.fmt :=
  let y := encodeBounds k b t
  ⟨pack k ⟨BitVec.allOnes _, k.maxCode, false, y.ef, y.t, y.b, BitVec.ofNat _ 0⟩, a, true⟩

/-- Fields(p) with the bounds fields replaced by an encoding's (41_bounds.md R118, 42_capvalue.md R141). -/
def withBounds (k : Config) (x : Fields k.fmt) (y : Encoded k.fmt) : Fields k.fmt :=
  { x with ef := y.ef, t := y.t, b := y.b }

/-- Reencode(c): the word rebuilt from the decoded views (42_capvalue.md R141). -/
def Cap.reencode (k : Config) (c : Cap k.fmt) : BitVec k.fmt.aw :=
  let pm := c.perms k
  pack k { withBounds k (fields k c.pesbt) (encodeBounds k (c.base k) (c.top k)) with
    code := permEncode k pm.1 pm.2 k.lvb }

/-- SET_BOUNDS as a function: the capability with the encoded request in its bounds fields, and exact
(41_bounds.md R118). -/
def Cap.setBounds (k : Config) (c : Cap k.fmt) (rb : BitVec k.fmt.aw) (rt : BitVec (k.fmt.aw + 1)) : Cap k.fmt × Bool :=
  let y := encodeBounds k rb rt
  ({ c with pesbt := pack k (withBounds k (fields k c.pesbt) y) }, y.exact)

/-! ## Lengths -/

/-- INVERTED_LENGTH(c) at its width (42_capvalue.md R148). DESIGN CHOICE (log 10): the draw may depend on c's tag, since
R148 makes it a function of c under no law, although R149 says of GET_LENGTH_FULL that the tag is not read. -/
def Cap.invertedLength (k : Config) (c : Cap k.fmt) : BitVec (k.fmt.aw + 1) :=
  BitVec.ofNat _ (k.invertedLength c.pesbt.toNat c.cursor.toNat c.tag)

/-- The full-precision length (42_capvalue.md R149). -/
def Cap.lengthFull (k : Config) (c : Cap k.fmt) : BitVec (k.fmt.aw + 1) :=
  if (c.base k).toNat ≤ (c.top k).toNat then BitVec.ofNat _ ((c.top k).toNat - (c.base k).toNat)
  else c.invertedLength k

/-- A value saturated to the address width (42_capvalue.md R146, R148). -/
def saturate (f : Fmt) (v : Nat) : BitVec f.aw := BitVec.ofNat _ (min v (2 ^ f.aw - 1))

/-- The saturated length (42_capvalue.md R148); an inverted length is taken mod 2^AW. -/
def Cap.length (k : Config) (c : Cap k.fmt) : BitVec k.fmt.aw :=
  if (c.base k).toNat ≤ (c.top k).toNat then saturate k.fmt ((c.top k).toNat - (c.base k).toNat)
  else (c.invertedLength k).setWidth _

/-! ## Predicates and mutators -/

/-- is_in_bounds(a, n): the sum is not wrapped (42_capvalue.md R153). -/
def Cap.isInBounds (k : Config) (c : Cap k.fmt) (a : BitVec k.fmt.aw) (n : BitVec (k.fmt.aw + 1)) : Bool :=
  decide ((c.base k).toNat ≤ a.toNat) && decide (a.toNat + n.toNat ≤ (c.top k).toNat)

/-- IsRepresentableWithAddr(c, a): the word decodes at a to the bounds it has at the cursor (41_bounds.md R120). -/
def Cap.isRepresentableWithAddr (k : Config) (c : Cap k.fmt) (a : BitVec k.fmt.aw) : Bool :=
  let x := decodeBounds k c.pesbt c.cursor
  let y := decodeBounds k c.pesbt a
  decide (x.base = y.base) && decide (x.top = y.top)

/-- IS_REPRESENTABLE as a function: the re-encoded word decodes at the cursor to the same bounds (42_capvalue.md R154). -/
def Cap.isRepresentable (k : Config) (c : Cap k.fmt) : Bool :=
  let y := decodeBounds k (c.reencode k) c.cursor
  decide (y.base = c.base k) && decide (y.top = c.top k)

/-- MarkUnrepresentable(c, a) (41_bounds.md R121). -/
def Cap.markUnrepresentable {f : Fmt} (c : Cap f) (a : BitVec f.aw) : Cap f := ⟨c.pesbt, a, false⟩

/-- SET_CURSOR as a function (42_capvalue.md R160). -/
def Cap.setCursor (k : Config) (c : Cap k.fmt) (a : BitVec k.fmt.aw) : Cap k.fmt :=
  if c.isRepresentableWithAddr k a then ⟨c.pesbt, a, c.tag⟩ else c.markUnrepresentable a

/-- The capability with its CT field set to a value (42_capvalue.md R158, R159). -/
def Cap.withCt (k : Config) (c : Cap k.fmt) (ct : Bool) : Cap k.fmt :=
  { c with pesbt := pack k { fields k c.pesbt with ct := ct } }

/-- SET_PERMS as a function (42_capvalue.md R162). -/
def Cap.setPerms (k : Config) (c : Cap k.fmt) (s : PermSet) (m : Bool) (u : BitVec k.fmt.sdpw) : Cap k.fmt :=
  { c with pesbt := pack k { fields k c.pesbt with code := permEncode k s m k.lvb, sdp := u } }

/-- The record of ROUNDTRIP_CHECK (42_capvalue.md R161). -/
def roundTripOf (k : Config) (p a : BitVec k.fmt.aw) : RoundTrip k.fmt :=
  let c : Cap k.fmt := decompress p a true
  let r := c.reencode k
  ⟨c.base k, a, c.top k, c.lengthFull k, c.isSealed k, c.reserved k, c.boundsValid k, r, decide (r = p)⟩

/-! ## The memory image a consumer stores (20_memory.md R52, R53); the block itself stores nothing (R50) -/

/-- The bytes of a word, lowest address first (20_memory.md R53). -/
def wordBytes (o : ByteOrder) (f : Fmt) (w : BitVec f.aw) : List Byte :=
  let bytes := (List.range (f.aw / 8)).map fun i => w.extractLsb' (8 * i) 8
  match o with
  | .little => bytes
  | .big => bytes.reverse

/-- The memory image of a capability: the cursor word at the lower address, the pesbt word above it, no tag
(20_memory.md R52; log 19). -/
def Cap.image (k : Config) (c : Cap k.fmt) : List Byte :=
  wordBytes k.imageOrder k.fmt c.cursor ++ wordBytes k.imageOrder k.fmt c.pesbt

end Sys2Proof.Machine
end

