-- ==== Sys2Proof/Machine/Operands.lean ====
section
/-! DEFINITION. The operand forms of the block: a command's word and, beside it, typed operand values in the command
port (30_encoding.md R74; log 4). Taking a command from the port puts its operands where its meaning reads them. The block
has no flags (10_state.md R39), so there is no flag computation: a command's Booleans are results. -/

namespace Sys2Proof.Machine

/-- The state in which a command of the port runs: the command is taken from the port and its operands stand beside it. -/
def State.running (s : State) (cmd : Command s.cfg.fmt) (rest : List (Command s.cfg.fmt)) : State :=
  { s with pending := rest, operands := cmd.operands }

/-- The next command taken from the port, in issue order (20_memory.md R56): its word, and the state in which it runs,
its operands beside it; none when the block waits for a command (70_reset_and_hazards.md R231). -/
def State.takeCommand (s : State) : Option (CmdWord × State) :=
  match s.pending with
  | [] => none
  | cmd :: rest => some (cmd.word, s.running cmd rest)

/-- A command put at the head of the port, as the next one to run. -/
def State.issueFirst (s : State) (cmd : Command s.cfg.fmt) : State := { s with pending := cmd :: s.pending }

/-- A command put behind those the consumer has issued already (20_memory.md R56). -/
def State.issue (s : State) (cmd : Command s.cfg.fmt) : State := { s with pending := s.pending ++ [cmd] }

/-- The word of a command, as a refusal records it (60_exceptions.md R213). -/
def recordedWord (i : Instr) : CmdWord := encode i

end Sys2Proof.Machine
end

