-- ==== Sys2Proof/Machine/Ops.lean ====
section
/-! DEFINITION. The shared operations of the meanings: delivering an outcome, refusing, taking a model fault, reading and
writing register-cache entries, and the check after every command (43_regcache.md R191, R199; 60_exceptions.md R212 to
R216). The block has no trap to return from (60_exceptions.md R215). -/

namespace Sys2Proof.Machine

/-! ## Outcomes (00_scope.md R11, 60_exceptions.md R215) -/

/-- Deliver an outcome to the issuer (60_exceptions.md R215). -/
def State.deliver (s : State) (r : Response s.cfg.fmt) : State := { s with response := some r }

/-- Deliver a result to the issuer. -/
def State.answer (s : State) (v : Value s.cfg.fmt) : State := { s with response := some (.returned v) }

/-- Refuse the command: no state is changed and no mark is set (60_exceptions.md R213, R216; log 6). -/
def State.refuse (s : State) (r : Refusal) : State := { s with response := some (.refused r) }

/-- Take a model fault: it is delivered in place of the return value and sets the sticky mark (60_exceptions.md R215,
R216; log 7). -/
def State.takeFault (s : State) (x : Fault) : State := { s with mark := some x, response := some (.faulted x) }

/-- The number of a model fault (60_exceptions.md R212). -/
def Fault.number : Fault → Nat
  | .cacheDesync _ _ _ => 1
  | .poisonRead _ => 2

/-- The number of a refusal of the spec (60_exceptions.md R213); 0 for a command without a meaning. -/
def Refusal.number (r : Refusal) : Nat :=
  match r with
  | .unknownOpcode _ => 1
  | .reservedBits _ => 2
  | .badRegister _ => 3
  | .unsupportedOtype _ _ => 4
  | _ => 0

/-- The refusal of a word the decoder rejects (30_encoding.md R76). -/
def rejection (w : CmdWord) : Reject → Refusal
  | .unknownOpcode => .unknownOpcode w
  | .reservedBits => .reservedBits w

/-! ## Register-cache entries -/

/-- ArchVal of an entry: the capability a read returns, none where the slot a read would return is Poison
(10_state.md R36, 60_exceptions.md R212). -/
def Entry.archVal? (k : Config) (e : Entry k.fmt) : Option (Cap k.fmt) :=
  match e.state with
  | .integer => some (decompress k.nullPesbt e.cursor false)
  | .taggedCap => some (decompress e.pesbt e.cursor true)
  | .untaggedCap => some (decompress e.pesbt e.cursor false)
  | .fullyDecompressed =>
    match e.slot with
    | .cap c => some c
    | .poison => none

/-- An entry promoted by a read that returns c (43_regcache.md R192). -/
def Entry.promoted {f : Fmt} (e : Entry f) (c : Cap f) : Entry f := { e with state := .fullyDecompressed, slot := .cap c }

/-- The tag REG_READ_RAW returns, none where the slot it reads is Poison (43_regcache.md R197). -/
def Entry.rawTag? {f : Fmt} (e : Entry f) : Option Bool :=
  match e.state with
  | .integer => some false
  | .taggedCap => some true
  | .untaggedCap => some false
  | .fullyDecompressed =>
    match e.slot with
    | .cap c => some c.tag
    | .poison => none

/-- The entry a capability write leaves (43_regcache.md R193). -/
def entryOfCap {f : Fmt} (c : Cap f) : Entry f := ⟨c.compress, c.cursor, .fullyDecompressed, .cap c⟩

/-- The entry an integer write leaves (43_regcache.md R194). -/
def entryOfInt (k : Config) (v : BitVec k.fmt.aw) : Entry k.fmt := ⟨k.nullPesbt, v, .integer, .poison⟩

/-- The entry a raw write leaves (43_regcache.md R195). -/
def entryOfRaw {f : Fmt} (p a : BitVec f.aw) (tag : Bool) : Entry f :=
  ⟨p, a, if tag then .taggedCap else .untaggedCap, .poison⟩

/-- A register file after a register write: a write of register 0 is a no-op (10_state.md R35, 43_regcache.md R193). -/
def written {f : Fmt} (g : List (Entry f)) (rn : Nat) (e : Entry f) : List (Entry f) := if rn = 0 then g else g.set rn e

/-- Leave a register file and deliver a result: how a register cache command completes. -/
def State.commit (s : State) (g : List (Entry s.cfg.fmt)) (v : Value s.cfg.fmt) : State :=
  { s with gpr := g, response := some (.returned v) }

/-- The index check of every command that names a register: below NUM_GPR the command goes on with the entry, else it is
refused and nothing changes (43_regcache.md R191). -/
def State.withRegister (s : State) (i : Instr) (rn : Nat) (go : Entry s.cfg.fmt → State) : State :=
  match s.gpr[rn]? with
  | some e => go e
  | none => s.refuse (.badRegister (recordedWord i))

/-! ## The check after a command (43_regcache.md R199, 60_exceptions.md R212) -/

/-- I1 to I3 of one entry (43_regcache.md R199). -/
def Entry.consistent (k : Config) (e : Entry k.fmt) : Bool :=
  match e.state, e.slot with
  | .fullyDecompressed, .cap c => decide (c.compress = e.pesbt) && decide (c.cursor = e.cursor)
  | .fullyDecompressed, .poison => false
  | .integer, .poison => decide (e.pesbt = k.nullPesbt)
  | .taggedCap, .poison => true
  | .untaggedCap, .poison => true
  | _, .cap _ => false

/-- I1 to I4 of entry number rn (43_regcache.md R199). -/
def entryKeeps (k : Config) (rn : Nat) (e : Entry k.fmt) : Bool :=
  e.consistent k && (rn != 0 || decide (e = zeroEntry k))

/-- The first entry from number rn on that breaks an invariant, in index order (log 8). -/
def firstBroken (k : Config) : Nat → List (Entry k.fmt) → Option (Nat × Entry k.fmt)
  | _, [] => none
  | rn, e :: rest => if entryKeeps k rn e then firstBroken k (rn + 1) rest else some (rn, e)

/-- CacheDesync, checked after a command that has executed: a refused command and a command that took PoisonRead have
reported their outcome already (60_exceptions.md R214; log 8). -/
def State.checkCache (s : State) : State :=
  match s.response with
  | some (.returned _) =>
    match firstBroken s.cfg 0 s.gpr with
    | some (rn, e) => s.takeFault (.cacheDesync rn s.cfg.fmt e)
    | none => s
  | _ => s

end Sys2Proof.Machine
end

