-- ==== Sys2Proof/Machine/Bounds.lean ====
section
/-! DEFINITION. The bounds codec and representability commands (41_bounds.md). Each is a pure function of its operands
and the configuration (00_scope.md R6). -/

namespace Sys2Proof.Machine

/-- BOUNDS_DECODE (41_bounds.md R113). -/
def execBoundsDecode (s : State) : Host.Outcome State Fault Refusal :=
  .next (s.answer (.bounds (decodeBounds s.cfg s.operands.p s.operands.a)))

/-- BOUNDS_ENCODE (41_bounds.md R116, R117). -/
def execBoundsEncode (s : State) : Host.Outcome State Fault Refusal :=
  .next (s.answer (.encoded (encodeBounds s.cfg s.operands.b s.operands.t)))

/-- SET_BOUNDS (41_bounds.md R118). -/
def execSetBounds (s : State) : Host.Outcome State Fault Refusal :=
  let r := s.operands.c.setBounds s.cfg s.operands.rb s.operands.rt
  .next (s.answer (.capExact r.1 r.2))

/-- IS_REPRESENTABLE_WITH_ADDR (41_bounds.md R120). -/
def execIsRepresentableWithAddr (s : State) : Host.Outcome State Fault Refusal :=
  .next (s.answer (.bool (s.operands.c.isRepresentableWithAddr s.cfg s.operands.a)))

/-- MARK_UNREPRESENTABLE (41_bounds.md R121). -/
def execMarkUnrepresentable (s : State) : Host.Outcome State Fault Refusal :=
  .next (s.answer (.cap (s.operands.c.markUnrepresentable s.operands.a)))

end Sys2Proof.Machine
end

