-- ==== Sys2Proof/Machine/CapValue.lean ====
section
/-! DEFINITION. The capability value commands (42_capvalue.md). Each is a pure function of its operands and the
configuration (00_scope.md R6); SET_SEALED alone can be refused (R158). -/

namespace Sys2Proof.Machine

/-- COMPRESS (42_capvalue.md R140). -/
def execCompress (s : State) : Host.Outcome State Fault Refusal :=
  .next (s.answer (.word s.operands.c.compress))

/-- DECOMPRESS (42_capvalue.md R142). -/
def execDecompress (s : State) : Host.Outcome State Fault Refusal :=
  .next (s.answer (.cap (decompress s.operands.p s.operands.a s.operands.tag)))

/-- MAKE_NULL_DERIVED (42_capvalue.md R143). -/
def execMakeNullDerived (s : State) : Host.Outcome State Fault Refusal :=
  .next (s.answer (.cap (makeNullDerived s.cfg s.operands.v)))

/-- MAKE_MAX_PERMS_CAP (42_capvalue.md R144). -/
def execMakeMaxPermsCap (s : State) : Host.Outcome State Fault Refusal :=
  .next (s.answer (.cap (makeMaxPermsCap s.cfg s.operands.b s.operands.a s.operands.t)))

/-- ROUNDTRIP_CHECK (42_capvalue.md R161). -/
def execRoundtripCheck (s : State) : Host.Outcome State Fault Refusal :=
  .next (s.answer (.roundTrip (roundTripOf s.cfg s.operands.p s.operands.a)))

/-- GET_BASE (42_capvalue.md R145). -/
def execGetBase (s : State) : Host.Outcome State Fault Refusal :=
  .next (s.answer (.word (s.operands.c.base s.cfg)))

/-- GET_TOP, saturated (42_capvalue.md R146). -/
def execGetTop (s : State) : Host.Outcome State Fault Refusal :=
  .next (s.answer (.word (saturate s.cfg.fmt (s.operands.c.top s.cfg).toNat)))

/-- GET_TOP_FULL (42_capvalue.md R147). -/
def execGetTopFull (s : State) : Host.Outcome State Fault Refusal :=
  .next (s.answer (.wide (s.operands.c.top s.cfg)))

/-- GET_LENGTH, saturated (42_capvalue.md R148). -/
def execGetLength (s : State) : Host.Outcome State Fault Refusal :=
  .next (s.answer (.word (s.operands.c.length s.cfg)))

/-- GET_LENGTH_FULL (42_capvalue.md R149). -/
def execGetLengthFull (s : State) : Host.Outcome State Fault Refusal :=
  .next (s.answer (.wide (s.operands.c.lengthFull s.cfg)))

/-- GET_OFFSET, mod 2^AW (42_capvalue.md R150). -/
def execGetOffset (s : State) : Host.Outcome State Fault Refusal :=
  .next (s.answer (.word (s.operands.c.cursor - s.operands.c.base s.cfg)))

/-- GET_PERMS (42_capvalue.md R151). -/
def execGetPerms (s : State) : Host.Outcome State Fault Refusal :=
  .next (s.answer (.perms (s.operands.c.perms s.cfg).1 (s.operands.c.perms s.cfg).2))

/-- GET_UPERMS (42_capvalue.md R152). -/
def execGetUperms (s : State) : Host.Outcome State Fault Refusal :=
  .next (s.answer (.uperms (s.operands.c.sdp s.cfg)))

/-- IS_IN_BOUNDS (42_capvalue.md R153). -/
def execIsInBounds (s : State) : Host.Outcome State Fault Refusal :=
  .next (s.answer (.bool (s.operands.c.isInBounds s.cfg s.operands.a s.operands.n)))

/-- IS_REPRESENTABLE (42_capvalue.md R154). -/
def execIsRepresentable (s : State) : Host.Outcome State Fault Refusal :=
  .next (s.answer (.bool (s.operands.c.isRepresentable s.cfg)))

/-- IS_SEALED (42_capvalue.md R155). -/
def execIsSealed (s : State) : Host.Outcome State Fault Refusal :=
  .next (s.answer (.bool (s.operands.c.isSealed s.cfg)))

/-- IS_UNSEALED (42_capvalue.md R156). -/
def execIsUnsealed (s : State) : Host.Outcome State Fault Refusal :=
  .next (s.answer (.bool (!s.operands.c.isSealed s.cfg)))

/-- IS_SEALED_ENTRY (42_capvalue.md R157). -/
def execIsSealedEntry (s : State) : Host.Outcome State Fault Refusal :=
  .next (s.answer (.bool (s.operands.c.isSealed s.cfg && decide (s.operands.c.otype s.cfg = s.cfg.otypeSentry))))

/-- SET_SEALED: an otype other than the sentry's is refused (42_capvalue.md R158). -/
def execSetSealed (s : State) : Host.Outcome State Fault Refusal :=
  .next (s.deliver
    (if s.operands.ot = s.cfg.otypeSentry then .returned (.cap (s.operands.c.withCt s.cfg true))
    else .refused (.unsupportedOtype (recordedWord .setSealed) s.operands.ot)))

/-- SET_UNSEALED (42_capvalue.md R159). -/
def execSetUnsealed (s : State) : Host.Outcome State Fault Refusal :=
  .next (s.answer (.cap (s.operands.c.withCt s.cfg false)))

/-- SET_CURSOR (42_capvalue.md R160). -/
def execSetCursor (s : State) : Host.Outcome State Fault Refusal :=
  .next (s.answer (.cap (s.operands.c.setCursor s.cfg s.operands.a)))

/-- SET_PERMS (42_capvalue.md R162). -/
def execSetPerms (s : State) : Host.Outcome State Fault Refusal :=
  .next (s.answer (.cap (s.operands.c.setPerms s.cfg s.operands.s s.operands.m s.operands.u)))

end Sys2Proof.Machine
end

