-- ==== Sys2Proof/Machine/Perm.lean ====
section
/-! DEFINITION. The permission codec commands (40_permissions.md). Each is a pure function of its operands and the
configuration (00_scope.md R6). -/

namespace Sys2Proof.Machine

/-- PERM_ENCODE (40_permissions.md R94). -/
def execPermEncode (s : State) : Host.Outcome State Fault Refusal :=
  .next (s.answer (.code (permEncode s.cfg s.operands.set s.operands.m s.operands.lvb)))

/-- PERM_DECODE (40_permissions.md R92). -/
def execPermDecode (s : State) : Host.Outcome State Fault Refusal :=
  let d := permDecode s.cfg s.operands.code s.operands.lvb
  .next (s.answer (.perms d.1 d.2))

/-- PERM_FIXUP (40_permissions.md R97). -/
def execPermFixup (s : State) : Host.Outcome State Fault Refusal :=
  let d := permFixup s.cfg s.operands.m s.operands.set
  .next (s.answer (.fixup d.1 d.2 (decide (d ≠ (s.operands.m, s.operands.set)))))

/-- CAP_HAS_PERMS (40_permissions.md R99). -/
def execCapHasPerms (s : State) : Host.Outcome State Fault Refusal :=
  .next (s.answer (.bool (s.operands.req.subset (s.operands.c.perms s.cfg).1)))

end Sys2Proof.Machine
end

