-- ==== Sys2Proof/Machine/RegCache.lean ====
section
/-! DEFINITION. The register cache commands (43_regcache.md). Those that name a register check its index first (R191). -/

namespace Sys2Proof.Machine

/-- REG_READ: the entry is promoted and its architectural value returned (43_regcache.md R192); a Poison slot that would
be returned is the fault PoisonRead (60_exceptions.md R212). -/
def execRegRead (rn : Nat) (s : State) : Host.Outcome State Fault Refusal :=
  .next (s.withRegister (.regRead rn) rn fun e =>
    match e.archVal? s.cfg with
    | some c => s.commit (s.gpr.set rn (e.promoted c)) (.cap c)
    | none => s.takeFault (.poisonRead rn))

/-- REG_WRITE (43_regcache.md R193). -/
def execRegWrite (rn : Nat) (s : State) : Host.Outcome State Fault Refusal :=
  .next (s.withRegister (.regWrite rn) rn fun _ =>
    s.commit (written s.gpr rn (entryOfCap s.operands.c)) .unit)

/-- REG_WRITE_INT (43_regcache.md R194). -/
def execRegWriteInt (rn : Nat) (s : State) : Host.Outcome State Fault Refusal :=
  .next (s.withRegister (.regWriteInt rn) rn fun _ =>
    s.commit (written s.gpr rn (entryOfInt s.cfg s.operands.v)) .unit)

/-- REG_WRITE_RAW (43_regcache.md R195). -/
def execRegWriteRaw (rn : Nat) (s : State) : Host.Outcome State Fault Refusal :=
  .next (s.withRegister (.regWriteRaw rn) rn fun _ =>
    s.commit (written s.gpr rn (entryOfRaw s.operands.p s.operands.a s.operands.tag)) .unit)

/-- REG_READ_CURSOR: no promotion (43_regcache.md R196). -/
def execRegReadCursor (rn : Nat) (s : State) : Host.Outcome State Fault Refusal :=
  .next (s.withRegister (.regReadCursor rn) rn fun e => s.answer (.word e.cursor))

/-- REG_READ_RAW: no promotion (43_regcache.md R197); reading the tag of a Poison slot is the fault PoisonRead
(60_exceptions.md R212). -/
def execRegReadRaw (rn : Nat) (s : State) : Host.Outcome State Fault Refusal :=
  .next (s.withRegister (.regReadRaw rn) rn fun e =>
    match e.rawTag? with
    | some t => s.answer (.raw e.pesbt e.cursor t)
    | none => s.takeFault (.poisonRead rn))

/-- REG_RESET (43_regcache.md R198). -/
def execRegReset (s : State) : Host.Outcome State Fault Refusal :=
  .next (s.commit (resetFile s.cfg s.numGpr) .unit)

end Sys2Proof.Machine
end

