-- ==== Sys2Proof/Machine/Dispatch.lean ====
section
/-! DEFINITION. One arm per command: a direct call of its meaning. -/

namespace Sys2Proof.Machine

/-- The effect of a decoded command (30_encoding.md R75) on the state whose port holds its operands. -/
def exec (i : Instr) (s : State) : Host.Outcome State Fault Refusal :=
  match i with
  | .permEncode => Sys2Proof.Machine.execPermEncode s
  | .permDecode => Sys2Proof.Machine.execPermDecode s
  | .permFixup => Sys2Proof.Machine.execPermFixup s
  | .capHasPerms => Sys2Proof.Machine.execCapHasPerms s
  | .boundsDecode => Sys2Proof.Machine.execBoundsDecode s
  | .boundsEncode => Sys2Proof.Machine.execBoundsEncode s
  | .setBounds => Sys2Proof.Machine.execSetBounds s
  | .isRepresentableWithAddr => Sys2Proof.Machine.execIsRepresentableWithAddr s
  | .markUnrepresentable => Sys2Proof.Machine.execMarkUnrepresentable s
  | .compress => Sys2Proof.Machine.execCompress s
  | .decompress => Sys2Proof.Machine.execDecompress s
  | .makeNullDerived => Sys2Proof.Machine.execMakeNullDerived s
  | .makeMaxPermsCap => Sys2Proof.Machine.execMakeMaxPermsCap s
  | .roundtripCheck => Sys2Proof.Machine.execRoundtripCheck s
  | .getBase => Sys2Proof.Machine.execGetBase s
  | .getTop => Sys2Proof.Machine.execGetTop s
  | .getTopFull => Sys2Proof.Machine.execGetTopFull s
  | .getLength => Sys2Proof.Machine.execGetLength s
  | .getLengthFull => Sys2Proof.Machine.execGetLengthFull s
  | .getOffset => Sys2Proof.Machine.execGetOffset s
  | .getPerms => Sys2Proof.Machine.execGetPerms s
  | .getUperms => Sys2Proof.Machine.execGetUperms s
  | .isInBounds => Sys2Proof.Machine.execIsInBounds s
  | .isRepresentable => Sys2Proof.Machine.execIsRepresentable s
  | .isSealed => Sys2Proof.Machine.execIsSealed s
  | .isUnsealed => Sys2Proof.Machine.execIsUnsealed s
  | .isSealedEntry => Sys2Proof.Machine.execIsSealedEntry s
  | .setSealed => Sys2Proof.Machine.execSetSealed s
  | .setUnsealed => Sys2Proof.Machine.execSetUnsealed s
  | .setCursor => Sys2Proof.Machine.execSetCursor s
  | .setPerms => Sys2Proof.Machine.execSetPerms s
  | .regRead rn => Sys2Proof.Machine.execRegRead rn s
  | .regWrite rn => Sys2Proof.Machine.execRegWrite rn s
  | .regWriteInt rn => Sys2Proof.Machine.execRegWriteInt rn s
  | .regWriteRaw rn => Sys2Proof.Machine.execRegWriteRaw rn s
  | .regReadCursor rn => Sys2Proof.Machine.execRegReadCursor rn s
  | .regReadRaw rn => Sys2Proof.Machine.execRegReadRaw rn s
  | .regReset => Sys2Proof.Machine.execRegReset s

end Sys2Proof.Machine
end

