-- ==== Sys2Proof/Machine/Issue.lean ====
section
/-! DEFINITION. What happens to a command from the port (30_encoding.md R76, 60_exceptions.md R214, R216), and how a word
of the opcode table is placed there: the parts Step.lean calls. -/

namespace Sys2Proof.Machine

/-- After a command has executed the cache is checked (43_regcache.md R199, 60_exceptions.md R214). -/
def afterCommand : Host.Outcome State Fault Refusal → Host.Outcome State Fault Refusal
  | .next t => .next t.checkCache
  | .fault x => .fault x
  | .refused r => .refused r

/-- A command that no fault mark holds back: its word is decoded; a rejected word is refused; a command is executed and
the cache checked after it (60_exceptions.md R214). -/
def runWord (w : CmdWord) (s : State) : Host.Outcome State Fault Refusal :=
  match decode w with
  | .error r => .next (s.refuse (rejection w r))
  | .ok i => afterCommand (exec i s)

/-- One command from the port: with the sticky mark set it returns the marked fault without executing
(60_exceptions.md R216); with an empty port the block waits (70_reset_and_hazards.md R231). -/
def runNext (s : State) : Host.Outcome State Fault Refusal :=
  match s.takeCommand with
  | none => .next s
  | some (w, t) =>
    match s.mark with
    | some x => .fault x
    | none => runWord w t

/-- The command whose word is w as a number of nbits bits, with the operands the port holds. -/
def tableCommand (s : State) (nbits w : Nat) : Command s.cfg.fmt := ⟨BitVec.ofNat 32 (w % 2 ^ nbits), s.operands⟩

end Sys2Proof.Machine
end

