-- ==== Sys2Proof/Machine/Step.lean ====
section
/-! DEFINITION. One step of the block: the next command of the port, whole (20_memory.md R55, R56). -/

namespace Sys2Proof.Machine

/-- One step (20_memory.md R55, 60_exceptions.md R214). -/
def step (s : State) : Host.Outcome State Fault Refusal := runNext s

/-- The state in which the next step runs the command word w, given as nbits bits: the word is put at the head of the
command port, with the operands the port holds. The consumer's issue of a command is what it stands for (log 3). A set
fault mark is left as it is. -/
def State.withFetchWord (s : State) (nbits w : Nat) : State := s.issueFirst (tableCommand s nbits w)

end Sys2Proof.Machine
end

