-- ==== Sys2Proof/Safety.lean ====
section
/-! DEFINITION. What claims are stated in: the constraints a configuration must meet (70_reset_and_hazards.md R232), the
cache invariant (43_regcache.md R199) as a proposition, and the whole-state invariant. -/

namespace Sys2Proof

open Machine

/-! ## Constraints on a configuration (70_reset_and_hazards.md R232) -/

/-- FIXUP_RULES: fifteen rules, F1 to F3 among them (40_permissions.md R98). -/
def Config.FixupOk (k : Config) : Prop :=
  k.fixupRules.length = 15 ∧ FixupRule.f1 ∈ k.fixupRules ∧ FixupRule.f2 ∈ k.fixupRules ∧ FixupRule.f3 ∈ k.fixupRules

/-- AP128_MAP is a bijection of the six names onto the six bits (40_permissions.md R96). -/
def Config.Ap128Ok (k : Config) : Prop :=
  [k.ap128Map.x, k.ap128Map.r, k.ap128Map.w, k.ap128Map.c, k.ap128Map.lm, k.ap128Map.asr].Nodup

/-- M_POS_128 is one of bits 52:50 or 43:28 (30_encoding.md R61). -/
def Config.MPosOk (k : Config) : Prop := (50 ≤ k.mPos128 ∧ k.mPos128 ≤ 52) ∨ (28 ≤ k.mPos128 ∧ k.mPos128 ≤ 43)

/-- The entry of AP_TABLE at a code (40_permissions.md R91). -/
def Config.apEntry (k : Config) (lvb : Bool) (i : Fin 32) : ApEntry := (k.apEntries lvb)[i]

/-- Constraint T1: no set appears in two Used entries with the same m, within one lvb (40_permissions.md R91). -/
def Config.TableInjective (k : Config) : Prop :=
  ∀ lvb i j set m, k.apEntry lvb i = .used set m → k.apEntry lvb j = .used set m → i = j

/-- Constraint T2: a Used entry without X has m = 0 (40_permissions.md R91). -/
def Config.TableMNeedsX (k : Config) : Prop :=
  ∀ lvb i set, k.apEntry lvb i = .used set true → set.x = true

/-- No Used entry holds C without R or W, so such a set encodes to 0: "encode(C) == 0" (40_permissions.md R95). DEDUCED as
a constraint on AP_TABLE, which 70_reset_and_hazards.md R232 does not list (log 25). -/
def Config.TableNoBareC (k : Config) : Prop :=
  ∀ lvb i set m, k.apEntry lvb i = .used set m → set.c = true → set.r = true ∨ set.w = true

/-- The pinned entries of AP_TABLE for lvb = 0 (40_permissions.md R91). DESIGN CHOICE (log 26): entry 0 is
pinned to ({}, 0) under lvb = 0 alone, as R91's table has it, although R94's corner case for ({}, 0) names no lvb. -/
def Config.TablePinned (k : Config) : Prop :=
  k.apEntry false 0 = .used .empty false ∧
  k.apEntry false 1 = .used (.ofList [.r]) false ∧
  k.apEntry false 4 = .used (.ofList [.w]) false ∧
  k.apEntry false 5 = .used (.ofList [.r, .w]) false ∧
  k.apEntry false 6 = .unused ∧
  (∀ i : Fin 32, i.val / 8 = 1 → ∃ set m, k.apEntry false i = .used set m ∧
    set.subset (.ofList [.x, .r, .w, .c, .lm]) = true) ∧
  k.apEntry false 18 = .unused ∧
  k.apEntry false 25 = .unused ∧
  (∀ i : Fin 32, i.val / 8 = 3 → ∀ set m, k.apEntry false i = .used set m →
    set.subset (.ofList [.r, .c, .w]) = true)

/-- lvb = 0 codes hold no EL and no SL (40_permissions.md R90). -/
def Config.TableNames (k : Config) : Prop :=
  ∀ i set m, k.apEntry false i = .used set m → set.el = false ∧ set.sl = false

/-- LAYOUT64 assigns disjoint positions below bit 30 (30_encoding.md R66). -/
def Config.LayoutOk (k : Config) : Prop :=
  let y := k.layout64
  let bits := (List.range 10).map (y.bLo + ·) ++ (List.range 8).map (y.tLo + ·) ++ [y.efPos, y.ctPos] ++
    (List.range 5).map (y.apLo + ·)
  bits.Nodup ∧ ∀ n ∈ bits, n < 30

/-- NULL_PESBT decodes to base 0 at every address (42_capvalue.md R143). -/
def Config.NullBaseZero (k : Config) : Prop := ∀ v, (decodeBounds k k.nullPesbt v).base = BitVec.ofNat _ 0

/-- MAX_AP_64 is the code of an entry of AP_TABLE[LVB] that holds as many names as any (42_capvalue.md R144). DESIGN CHOICE
(log 24): "largest" is by number of names, and the entry's m is left free, since R144 binds the set alone although
92_eei_decisions.md D29 says M = 0. -/
def Config.MaxApOk (k : Config) : Prop :=
  ∃ set m, k.apEntry k.lvb k.maxAp64.toFin = .used set m ∧
    ∀ i set' m', k.apEntry k.lvb i = .used set' m' → set'.card ≤ set.card

/-- The C64R vector: MAKE_MAX_PERMS_CAP(0, 0x1000, 0x8000) compresses to 0xD0040001 (30_encoding.md R66). -/
def Config.ReproducesVector (k : Config) : Prop :=
  (makeMaxPermsCap k (BitVec.ofNat _ 0) (BitVec.ofNat _ 0x1000) (BitVec.ofNat _ 0x8000)).compress.toNat = 0xD0040001

/-- The constraints of a C64R configuration (70_reset_and_hazards.md R232, 2 and 5; log 18 for the non-zero null word,
log 25 for noBareC). DESIGN CHOICE (log 26): none of them asks that ({}, 0) encode to 0 under lvb = 1. -/
structure Config.Valid64 (k : Config) : Prop where
  injective : k.TableInjective
  mNeedsX : k.TableMNeedsX
  noBareC : k.TableNoBareC
  pinned : k.TablePinned
  names : k.TableNames
  layout : k.LayoutOk
  nullBase : k.NullBaseZero
  nullNonzero : k.nullPesbt64 ≠ 0
  maxAp : k.MaxApOk
  vector : k.ReproducesVector

/-- A configuration of an instance of the spec (70_reset_and_hazards.md R232). What the other format's parameters hold is
not constrained: no rule of the format reads them. -/
structure Config.Valid (k : Config) : Prop where
  fixup : k.FixupOk
  ap128 : k.fmt = .c128r → k.Ap128Ok
  mPos : k.fmt = .c128r → k.MPosOk
  c64 : k.fmt = .c64r → k.Valid64

/-! ## The terms claims about commands use -/

/-- The commands of the codec: every command but the REG_* commands (00_scope.md R6). -/
def Instr.isCodec (i : Instr) : Bool := opcodeOf i < 0x60

/-- The opcodes of the opcode map (30_encoding.md R75). -/
def tableOpcodes : List Nat :=
  [0x01, 0x02, 0x03, 0x04, 0x10, 0x11, 0x12, 0x13, 0x14, 0x20, 0x21, 0x22, 0x23, 0x24, 0x30, 0x31, 0x32, 0x33, 0x34,
    0x35, 0x36, 0x37, 0x40, 0x41, 0x42, 0x43, 0x44, 0x50, 0x51, 0x52, 0x53, 0x60, 0x61, 0x62, 0x63, 0x64, 0x65, 0x66]

/-- The opcodes of the commands that name a register (30_encoding.md R74). -/
def rnOpcodes : List Nat := [0x60, 0x61, 0x62, 0x63, 0x64, 0x65]

/-- The six permissions of C128R (40_permissions.md R96). -/
def sixPerms : PermSet := .ofList [.x, .r, .w, .c, .lm, .asr]

/-- What a fix-up rule targets, as a bit of (m, set) (40_permissions.md R97). -/
def FixTarget.isIn (t : FixTarget) (x : Bool × PermSet) : Bool :=
  match t with
  | .m => x.1
  | .perm p => x.2.has p

/-- A bounds request inside the encoder's domain (41_bounds.md R116). -/
def InDomain (k : Config) (b : BitVec k.fmt.aw) (t : BitVec (k.fmt.aw + 1)) : Prop :=
  b.toNat ≤ t.toNat ∧ t.toNat ≤ 2 ^ k.fmt.aw

/-- What R112 reads from a word: its exponent and mantissas, none for a stored exponent above MAX_E. -/
def Config.mantissas? (k : Config) (p : BitVec k.fmt.aw) : Option Mantissas :=
  mantissas k.fmt (fields k p).ef (fields k p).t.toNat (fields k p).b.toNat

/-- The number of an address's window at the exponent and edge of a word, counting the address space from the edge
(41_bounds.md R122). -/
def windowOf (f : Fmt) (d : Mantissas) (a : Nat) : Nat :=
  (a / 2 ^ d.e + 2 ^ (f.aw - d.e) - regionEdge f d.bm) % 2 ^ (f.aw - d.e) / 2 ^ f.mw

/-- The number a list of bytes stands for, lowest byte first. -/
def bytesToNat : List Byte → Nat
  | [] => 0
  | b :: bs => b.toNat + 256 * bytesToNat bs

namespace Machine

/-! ## The cache invariant (43_regcache.md R199) -/

/-- I1 to I4 of entry number rn (43_regcache.md R199). -/
structure EntryInv (k : Config) (rn : Nat) (e : Entry k.fmt) : Prop where
  i1 : e.state = .fullyDecompressed → ∃ c, e.slot = .cap c ∧ c.compress = e.pesbt ∧ c.cursor = e.cursor
  i2 : e.state = .integer → e.pesbt = k.nullPesbt ∧ e.slot = .poison
  i3 : e.state = .taggedCap ∨ e.state = .untaggedCap → e.slot = .poison
  i4 : rn = 0 → e = zeroEntry k

/-- Every register-cache entry keeps I1 to I4 (43_regcache.md R199). -/
def State.CacheInv (s : State) : Prop := ∀ rn e, s.gpr[rn]? = some e → EntryInv s.cfg rn e

/-- The invariant of a run: the configuration is an instance's, it has a register (70_reset_and_hazards.md R232), the
cache keeps I1 to I4 and no fault is marked. -/
structure State.Inv (s : State) : Prop where
  config : s.cfg.Valid
  registers : 1 ≤ s.numGpr
  cache : s.CacheInv
  unmarked : s.mark = none

/-- ArchVal(i) for every register, in order (10_state.md R36). -/
def State.archVals (s : State) : List (Option (Cap s.cfg.fmt)) := s.gpr.map (Entry.archVal? s.cfg)

end Machine

end Sys2Proof
end

