-- ==== Sys2Proof/Certificates/Slice0/Obligations.lean ====
section
/-! DEFINITION. The statements put to the provers: one Prop each, from the numbered rules of spec/. -/

open Sys2Proof Sys2Proof.Machine

/-! ## Encoding -/

/-- R74, R75: the word of a well-formed command decodes to that command. -/
def Obligations.DecodeOfEncode : Prop := ∀ i : Instr, i.WellFormed → decode (encode i) = .ok i

/-- R74, R75: a word that decodes stands for a well-formed command and is that command's one word. -/
def Obligations.EncodeOfDecode : Prop := ∀ (w : CmdWord) (i : Instr), decode w = .ok i → i.WellFormed ∧ encode i = w

/-- R75: words written out from the opcode map, one or two per family. -/
def Obligations.SampleWordsDecode : Prop :=
  decode 0x00000002#32 = .ok .permDecode ∧ decode 0x00000012#32 = .ok .setBounds ∧
  decode 0x00000023#32 = .ok .makeMaxPermsCap ∧ decode 0x00000044#32 = .ok .isSealedEntry ∧
  decode 0x00000052#32 = .ok .setCursor ∧ decode 0x00000362#32 = .ok (.regWriteInt 3) ∧
  decode 0x00000765#32 = .ok (.regReadRaw 7) ∧ decode 0x00000066#32 = .ok .regReset

/-- R76, with the priority of R214: which words a block with no fault mark refuses, and with which refusal. -/
def Obligations.IllegalWordsRefused : Prop :=
  ∀ (s : State) (cmd : Command s.cfg.fmt) (rest : List (Command s.cfg.fmt)),
    s.mark = none → s.pending = cmd :: rest →
    let opcode := cmd.word.toNat % 256
    let rn := cmd.word.toNat / 256 % 256
    let high := cmd.word.toNat / 65536
    (opcode ∉ tableOpcodes → step s = .next ((s.running cmd rest).refuse (.unknownOpcode cmd.word))) ∧
    (opcode ∈ tableOpcodes → (high ≠ 0 ∨ (opcode ∉ rnOpcodes ∧ rn ≠ 0)) →
      step s = .next ((s.running cmd rest).refuse (.reservedBits cmd.word))) ∧
    (opcode ∈ rnOpcodes → high = 0 → s.numGpr ≤ rn →
      step s = .next ((s.running cmd rest).refuse (.badRegister cmd.word)))

/-! ## The machine -/

/-- R55, R214: a step runs the command at the head of the port, its operands beside it, and then checks the cache; where
the command leaves the cache invariant in place, the step is the command. -/
def Obligations.StepRunsDecoded : Prop :=
  ∀ (s : State) (cmd : Command s.cfg.fmt) (rest : List (Command s.cfg.fmt)) (i : Instr),
    s.mark = none → s.pending = cmd :: rest → decode cmd.word = .ok i →
    step s = afterCommand (exec i (s.running cmd rest)) ∧
    ∀ t, exec i (s.running cmd rest) = .next t → t.CacheInv → step s = .next t

/-- R231: with no command issued the block waits. -/
def Obligations.EmptyPortWaits : Prop := ∀ s : State, s.pending = [] → step s = .next s

/-- R216: a command that ends in a model fault sets the mark to it, one that is refused sets none; with the mark set every
later command returns the marked fault, whatever its word, and no step clears the mark. -/
def Obligations.MarkedFaultSticks : Prop :=
  (∀ (s : State) (x : Fault) (cmd : Command s.cfg.fmt) (rest : List (Command s.cfg.fmt)),
    s.mark = some x → s.pending = cmd :: rest → step s = .fault x) ∧
  ∀ s t : State, step s = .next t →
    (∀ x, s.mark = some x → t.mark = some x) ∧
    (s.pending ≠ [] → (∀ x, t.response = some (.faulted x) → t.mark = some x) ∧
      (∀ r, t.response = some (.refused r) → t.mark = none))

/-- R199, R232: the invariant of a run (an instance's configuration, a register, the cache invariant, no fault marked)
is kept by every step. -/
def Obligations.StepKeepsInv : Prop := ∀ s t : State, s.Inv → step s = .next t → t.Inv

/-- R198, R199, R232: the invariant holds at reset, whatever the free values of the reset instance (log 2). -/
def Obligations.ResetInv : Prop := State.reset.Inv

/-- R199, R200, R212: from a state that keeps the invariant a step with a command issued goes on, and its outcome is no
model fault. -/
def Obligations.InvRunsWithoutFault : Prop :=
  ∀ s : State, s.Inv → s.pending ≠ [] → ∃ t, step s = .next t ∧ t.response ≠ none ∧ ∀ x, t.response ≠ some (.faulted x)

/-- R38: no step changes the configuration or the number of registers. -/
def Obligations.ConfigurationFixed : Prop := ∀ s t : State, step s = .next t → t.cfg = s.cfg ∧ t.numGpr = s.numGpr

/-- R11, R210, R215: every command, executed on any state, goes on with an outcome delivered. -/
def Obligations.EveryCommandAnswers : Prop := ∀ (i : Instr) (s : State), ∃ t, exec i s = .next t ∧ t.response ≠ none

/-- R6: a codec command delivers an outcome that depends on its operands and the configuration alone, and changes
nothing else: not the cache, the mark or the port. -/
def Obligations.CodecCommandsPure : Prop :=
  ∀ (i : Instr) (k : Config) (o : Operands k.fmt), i.isCodec = true →
    ∃ r : Response k.fmt, ∀ g m p r0, exec i ⟨k, g, m, p, o, r0⟩ = .next ⟨k, g, m, p, o, some r⟩

/-- R213: a refused command changes no state; only its outcome is delivered. -/
def Obligations.RefusedChangesNothing : Prop :=
  ∀ (i : Instr) (s t : State) (r : Refusal), exec i s = .next t → t.response = some (.refused r) → t = s.refuse r

/-- R199, R212, R214: a command that returns and leaves an entry that breaks I1 to I4 takes CacheDesync with that entry's
index and content; of several, the first in index order (the model's choice, log 8). -/
def Obligations.DesyncTaken : Prop :=
  ∀ (s : State) (cmd : Command s.cfg.fmt) (rest : List (Command s.cfg.fmt)) (i : Instr) (t : State) (v : Value t.cfg.fmt),
    s.mark = none → s.pending = cmd :: rest → decode cmd.word = .ok i → exec i (s.running cmd rest) = .next t →
    t.response = some (.returned v) → ¬ t.CacheInv →
    ∃ rn e, t.gpr[rn]? = some e ∧ ¬ EntryInv t.cfg rn e ∧
      (∀ j < rn, ∀ e', t.gpr[j]? = some e' → EntryInv t.cfg j e') ∧
      step s = .next (t.takeFault (.cacheDesync rn t.cfg.fmt e))

/-- R212: a read of a Poison slot takes PoisonRead with the register's index. -/
def Obligations.PoisonReadTaken : Prop :=
  ∀ (s : State) (rn : Nat) (e : Entry s.cfg.fmt),
    s.gpr[rn]? = some e → e.state = .fullyDecompressed → e.slot = .poison →
    exec (.regRead rn) s = .next (s.takeFault (.poisonRead rn)) ∧
    exec (.regReadRaw rn) s = .next (s.takeFault (.poisonRead rn))

/-! ## Reset -/

/-- R43: every piece of state after reset, for the power-on state of every instance; State.reset is one of them (which
one is the model's choice, log 2). -/
def Obligations.ResetValues : Prop :=
  (∃ (k : Config) (n : Nat), 1 ≤ n ∧ State.reset = State.powerOn k n) ∧
  ∀ (k : Config) (n : Nat),
    (State.powerOn k n).cfg = k ∧ (State.powerOn k n).mark = none ∧ (State.powerOn k n).numGpr = n ∧
    ∀ i, i < n → ∃ e : Entry k.fmt, (State.powerOn k n).gpr[i]? = some e ∧ e.pesbt = k.nullPesbt ∧ e.cursor.toNat = 0 ∧
      (i = 0 → e.state = .fullyDecompressed ∧ e.slot = .cap ⟨k.nullPesbt, BitVec.ofNat _ 0, false⟩) ∧
      (1 ≤ i → e.state = .integer ∧ e.slot = .poison)

/-- R198: REG_RESET, whose one word is 0x66, puts the reset state into every entry, whatever the state before; REG_READ of
any register then returns MAKE_NULL_DERIVED(0), and REG_READ_RAW its word, cursor and tag. -/
def Obligations.RegResetResets : Prop :=
  (∀ w : CmdWord, decode w = .ok .regReset ↔ w = 0x66#32) ∧
  ∀ s : State, ∃ g : List (Entry s.cfg.fmt),
    exec .regReset s = .next { s with gpr := g, response := some (.returned .unit) } ∧ g.length = s.numGpr ∧
    ∀ rn, rn < s.numGpr →
      g[rn]? = some (if rn = 0
        then ⟨s.cfg.nullPesbt, BitVec.ofNat _ 0, .fullyDecompressed, .cap ⟨s.cfg.nullPesbt, BitVec.ofNat _ 0, false⟩⟩
        else ⟨s.cfg.nullPesbt, BitVec.ofNat _ 0, .integer, .poison⟩) ∧
      exec (.regReadRaw rn) { s with gpr := g, response := some (.returned .unit) } =
        .next { s with gpr := g, response := some (.returned (.raw s.cfg.nullPesbt (BitVec.ofNat _ 0) false)) } ∧
      ∃ g', exec (.regRead rn) { s with gpr := g, response := some (.returned .unit) } =
        .next { s with gpr := g', response := some (.returned (.cap ⟨s.cfg.nullPesbt, BitVec.ofNat _ 0, false⟩)) }

/-! ## Register cache -/

/-- R192: what REG_READ returns in each entry state, the promoted entry it leaves, and that nothing else changes. -/
def Obligations.RegReadPromotes : Prop :=
  ∀ (s : State) (rn : Nat) (e : Entry s.cfg.fmt) (c : Cap s.cfg.fmt), s.gpr[rn]? = some e →
    (e.state = .integer → c = ⟨s.cfg.nullPesbt, e.cursor, false⟩) →
    (e.state = .taggedCap → c = ⟨e.pesbt, e.cursor, true⟩) →
    (e.state = .untaggedCap → c = ⟨e.pesbt, e.cursor, false⟩) →
    (e.state = .fullyDecompressed → e.slot = .cap c) →
    ∃ g, exec (.regRead rn) s = .next { s with gpr := g, response := some (.returned (.cap c)) } ∧
      g.length = s.gpr.length ∧ g[rn]? = some ⟨e.pesbt, e.cursor, .fullyDecompressed, .cap c⟩ ∧
      ∀ j, j ≠ rn → g[j]? = s.gpr[j]?

/-- R36, R42, R192: a REG_READ of any index changes no register's architectural value. -/
def Obligations.ReadKeepsArchVals : Prop :=
  ∀ (s : State) (rn : Nat), ∃ g m r, exec (.regRead rn) s = .next { s with gpr := g, mark := m, response := some r } ∧
    g.map (Entry.archVal? s.cfg) = s.archVals

/-- R193, R194, R195: the entry each register write leaves, the other entries unchanged; a write of register 0 changes
nothing. -/
def Obligations.RegisterWrites : Prop :=
  ∀ (s : State) (rn : Nat), rn < s.numGpr →
    ∀ i e, (i, e) ∈ [(Instr.regWrite rn, (⟨s.operands.c.pesbt, s.operands.c.cursor, .fullyDecompressed, .cap s.operands.c⟩ : Entry s.cfg.fmt)),
        (Instr.regWriteInt rn, ⟨s.cfg.nullPesbt, s.operands.v, .integer, .poison⟩),
        (Instr.regWriteRaw rn, ⟨s.operands.p, s.operands.a, if s.operands.tag then .taggedCap else .untaggedCap, .poison⟩)] →
      ∃ g, exec i s = .next { s with gpr := g, response := some (.returned .unit) } ∧ g.length = s.gpr.length ∧
        (rn = 0 → g = s.gpr) ∧ (rn ≠ 0 → g[rn]? = some e) ∧ ∀ j, j ≠ rn → g[j]? = s.gpr[j]?

/-- R194, R195: an integer or raw write leaves the architectural values that REG_WRITE of the equivalent capability
leaves. -/
def Obligations.WritesAgreeOnArchVals : Prop :=
  ∀ (s : State) (rn : Nat), rn < s.numGpr →
    ∃ gInt gCap gRaw gDec : List (Entry s.cfg.fmt),
      exec (.regWriteInt rn) s = .next { s with gpr := gInt, response := some (.returned .unit) } ∧
      (∀ o, o = { s.operands with c := ⟨s.cfg.nullPesbt, s.operands.v, false⟩ } →
        exec (.regWrite rn) { s with operands := o } = .next { s with gpr := gCap, operands := o, response := some (.returned .unit) }) ∧
      gInt.map (Entry.archVal? s.cfg) = gCap.map (Entry.archVal? s.cfg) ∧
      exec (.regWriteRaw rn) s = .next { s with gpr := gRaw, response := some (.returned .unit) } ∧
      (∀ o, o = { s.operands with c := ⟨s.operands.p, s.operands.a, s.operands.tag⟩ } →
        exec (.regWrite rn) { s with operands := o } = .next { s with gpr := gDec, operands := o, response := some (.returned .unit) }) ∧
      gRaw.map (Entry.archVal? s.cfg) = gDec.map (Entry.archVal? s.cfg)

/-- R196, R197: where the cache invariant holds, REG_READ_CURSOR and REG_READ_RAW return the cursor, and the word, cursor
and tag, of the register's architectural value, and change nothing. -/
def Obligations.ReadsWithoutPromotion : Prop :=
  ∀ (s : State) (rn : Nat), s.CacheInv → rn < s.numGpr →
    ∃ (e : Entry s.cfg.fmt) (c : Cap s.cfg.fmt), s.gpr[rn]? = some e ∧ e.archVal? s.cfg = some c ∧
      exec (.regReadCursor rn) s = .next { s with response := some (.returned (.word c.cursor)) } ∧
      exec (.regReadRaw rn) s = .next { s with response := some (.returned (.raw c.pesbt c.cursor c.tag)) }

/-- R191, R213: a command that names a register at or above NUM_GPR is refused and changes nothing; below it, the index
names one entry. That the refusal records encode of the command, also for an index that no command word holds, is the
model's choice (log 22). -/
def Obligations.BadRegisterRefused : Prop :=
  ∀ (s : State) (i : Instr) (rn : Nat), i.rn? = some rn →
    (s.numGpr ≤ rn → exec i s = .next { s with response := some (.refused (.badRegister (encode i))) }) ∧
    (rn < s.numGpr → ∃ e, s.gpr[rn]? = some e)

/-- R35: register 0 holds NullCap, fully decompressed, after reset, and after every command if it does before; every write
to it is a no-op. -/
def Obligations.RegisterZeroFixed : Prop :=
  (∀ (k : Config) (n : Nat), 1 ≤ n → (State.powerOn k n).gpr[0]? = some ⟨k.nullPesbt, BitVec.ofNat _ 0,
    .fullyDecompressed, .cap ⟨k.nullPesbt, BitVec.ofNat _ 0, false⟩⟩) ∧
  ∀ s : State, s.gpr[0]? = some ⟨s.cfg.nullPesbt, BitVec.ofNat _ 0, .fullyDecompressed,
      .cap ⟨s.cfg.nullPesbt, BitVec.ofNat _ 0, false⟩⟩ →
    (∀ i t, exec i s = .next t → t.gpr[0]? = some ⟨t.cfg.nullPesbt, BitVec.ofNat _ 0, .fullyDecompressed,
      .cap ⟨t.cfg.nullPesbt, BitVec.ofNat _ 0, false⟩⟩) ∧
    ∀ i ∈ [Instr.regWrite 0, .regWriteInt 0, .regWriteRaw 0], exec i s = .next { s with response := some (.returned .unit) }

/-- R200: two caches with the same architectural values, both in the cache invariant, cannot be told apart by a command:
it delivers the same outcome on both and leaves the same architectural values. -/
def Obligations.LazinessUnobservable : Prop :=
  ∀ (i : Instr) (s : State) (g : List (Entry s.cfg.fmt)),
    s.CacheInv → State.CacheInv { s with gpr := g } → g.map (Entry.archVal? s.cfg) = s.archVals →
    ∃ r g1 g2, exec i s = .next { s with gpr := g1, response := some r } ∧
      exec i { s with gpr := g } = .next { s with gpr := g2, response := some r } ∧
      g1.map (Entry.archVal? s.cfg) = g2.map (Entry.archVal? s.cfg)

/-! ## Permission codec -/

/-- R100 (b): in an instance of the spec, PERM_DECODE of a non-zero code PERM_ENCODE gives returns the encoded set
and m. -/
def Obligations.PermDecodeOfEncode : Prop :=
  ∀ s : State, s.cfg.Valid → ∃ code : BitVec s.cfg.fmt.apw,
    exec .permEncode s = .next { s with response := some (.returned (.code code)) } ∧
    (code ≠ BitVec.ofNat _ 0 → ∀ o, o = { s.operands with code := code } →
      exec .permDecode { s with operands := o } =
        .next { s with operands := o, response := some (.returned (.perms s.operands.set s.operands.m)) })

/-- R94, R95, R96: the C128R code of a set without EL and SL has AP128_MAP's bit of each name and M as bit 6; a set with
EL or SL encodes to 0; the full set with m = 0 is 0x3F under every map. -/
def Obligations.PermEncodeC128R : Prop :=
  ∀ s : State, s.cfg.Valid → s.cfg.fmt = .c128r →
    ∃ code, exec .permEncode s = .next { s with response := some (.returned (.code code)) } ∧
      (s.operands.set.el = true ∨ s.operands.set.sl = true → code.toNat = 0) ∧
      (s.operands.set.el = false → s.operands.set.sl = false →
        code.toNat.testBit 6 = s.operands.m ∧
        (∀ p n, s.cfg.apBit? p = some n → code.toNat.testBit n = s.operands.set.has p) ∧
        (s.operands.set = sixPerms → s.operands.m = false → code.toNat = 0x3F))

/-- R90, R92: the C128R decode reads each name's bit and bit 6 as M; it never gives EL or SL, and lvb has no effect. -/
def Obligations.PermDecodeC128R : Prop :=
  ∀ s : State, s.cfg.fmt = .c128r →
    ∃ set m, (∀ lvb o, o = { s.operands with lvb := lvb } →
        exec .permDecode { s with operands := o } =
          .next { s with operands := o, response := some (.returned (.perms set m)) }) ∧
      m = s.operands.code.toNat.testBit 6 ∧ set.el = false ∧ set.sl = false ∧
      ∀ p n, s.cfg.apBit? p = some n → set.has p = s.operands.code.toNat.testBit n

/-- R93: an Unused C64R code of Q0 decodes to no permissions, one of Q2 or Q3 to FULL(lvb), with m = FALLBACK_M; FULL(0)
is {X, R, W, C, ASR}. -/
def Obligations.FallbackAsymmetry : Prop :=
  ∀ s : State, s.cfg.fmt = .c64r → ∀ i : Fin 32, s.operands.code.toNat = i.val →
    s.cfg.apEntry s.operands.lvb i = .unused →
    (i.val < 8 → exec .permDecode s = .next { s with response := some (.returned (.perms (.ofList []) s.cfg.fallbackM)) }) ∧
    (16 ≤ i.val → exec .permDecode s = .next { s with response := some (.returned (.perms
      (if s.operands.lvb then s.cfg.full1 else .ofList [.x, .r, .w, .c, .asr]) s.cfg.fallbackM)) })

/-- R91, R92, R94, R95: a C64R instance encodes (set, m) to the index of its one entry, 0 if no entry holds it, and
decodes a Used entry to what it holds. That ({}, 0) follows the table under lvb = 1 too, where R94's corner case read
without an lvb would have it encode to 0, is the model's choice (log 26). -/
def Obligations.PermCodecC64R : Prop :=
  ∀ s : State, s.cfg.Valid → s.cfg.fmt = .c64r →
    (∀ i : Fin 32, s.cfg.apEntry s.operands.lvb i = .used s.operands.set s.operands.m →
      exec .permEncode s = .next { s with response := some (.returned (.code (BitVec.ofNat _ i.val))) }) ∧
    ((∀ i : Fin 32, s.cfg.apEntry s.operands.lvb i ≠ .used s.operands.set s.operands.m) →
      exec .permEncode s = .next { s with response := some (.returned (.code (BitVec.ofNat _ 0))) }) ∧
    (∀ (i : Fin 32) (set : PermSet) (m : Bool), s.operands.code.toNat = i.val →
      s.cfg.apEntry s.operands.lvb i = .used set m →
      exec .permDecode s = .next { s with response := some (.returned (.perms set m)) })

/-- R97, R98: PERM_FIXUP runs the rules once each in list order: x i is the (m, set) before rule i, and rule i takes its
target away exactly where it applies and its requirement fails of x i. So the result is a subset of the request, cleared
only by applicable rules, and the request itself exactly where every applicable rule's requirement holds of it or its
target is absent from it; in an instance of the spec F1 to F3 hold of the result's M, C and ASR wherever they stand in the
list. -/
def Obligations.PermFixupClears : Prop :=
  ∀ s : State, ∃ (x : Nat → Bool × PermSet) (out : Bool × PermSet),
    let request := (s.operands.m, s.operands.set)
    exec .permFixup s =
      .next { s with response := some (.returned (.fixup out.1 out.2 (decide (out ≠ request)))) } ∧
    x 0 = request ∧ x s.cfg.fixupRules.length = out ∧
    (∀ i r, s.cfg.fixupRules[i]? = some r → ∀ t : FixTarget, (t.isIn (x (i + 1)) = true ↔
      t.isIn (x i) = true ∧
        ¬ (t = r.target ∧ s.cfg.ruleApplies r = true ∧ r.requires.holds (x i).1 (x i).2 = false))) ∧
    (∀ t : FixTarget, t.isIn out = true → t.isIn request = true) ∧
    (∀ t : FixTarget, t.isIn out ≠ t.isIn request →
      ∃ r ∈ s.cfg.fixupRules, s.cfg.ruleApplies r = true ∧ r.target = t) ∧
    (out = request ↔ ∀ r ∈ s.cfg.fixupRules, s.cfg.ruleApplies r = true →
      r.requires.holds s.operands.m s.operands.set = true ∨ r.target.isIn request = false) ∧
    (s.cfg.Valid →
      (s.operands.set.x = false → out.1 = false) ∧
      (s.operands.set.r = false → s.operands.set.w = false → out.2.c = false) ∧
      (s.operands.set.c = false ∨ s.operands.set.r = false ∨ s.operands.set.w = false ∨ s.operands.set.x = false →
        out.2.asr = false))

/-- R99: CAP_HAS_PERMS is inclusion of the request in perms(c); the empty request is always granted. -/
def Obligations.CapHasPermsIsInclusion : Prop :=
  ∀ s : State, ∃ b, exec .capHasPerms s = .next { s with response := some (.returned (.bool b)) } ∧
    (b = true ↔ ∀ p, s.operands.req.has p = true → (permDecode s.cfg (codeOf s.cfg s.operands.c.pesbt) s.cfg.lvb).1.has p = true) ∧
    (s.operands.req = .ofList [] → b = true)

/-! ## Compressed word -/

/-- R68: Fields(Pack(f)) = f in an instance of the spec, for fields whose reserved bits lie at reserved positions. -/
def Obligations.FieldsOfPack : Prop :=
  ∀ (k : Config) (x : Fields k.fmt), k.Valid → x.reserved &&& namedMask k = BitVec.ofNat _ 0 → fields k (pack k x) = x

/-- R27, R61, R62, R65 to R68: packing the fields of a word gives the word back, reserved bits included, in an instance of
the spec; and where each field of a word stands. C128R: SDP at bits 56:53, AP (the low bits of the code) at 49:44, M (bit 6
of the code) at M_POS_128, CT at bit 27, EF at bit 26, T at 25:14, B at 13:0, and every other bit is reserved. C64R: SDP at
bits 31:30, the other fields where LAYOUT64 has them, and every other bit is reserved. That CT stands at bit 27 of a C128R
word is the spec's own inference (log 15). -/
def Obligations.PackOfFields : Prop :=
  ∀ (k : Config) (p : BitVec k.fmt.aw), k.Valid →
    let x := fields k p
    let w := p.toNat
    pack k x = p ∧
    (k.fmt = .c128r →
      x.sdp.toNat = w / 2 ^ 53 % 2 ^ 4 ∧ x.code.toNat % 2 ^ 6 = w / 2 ^ 44 % 2 ^ 6 ∧
      x.code.toNat.testBit 6 = w.testBit k.mPos128 ∧ x.ct = w.testBit 27 ∧ x.ef = w.testBit 26 ∧
      x.t.toNat = w / 2 ^ 14 % 2 ^ 12 ∧ x.b.toNat = w % 2 ^ 14 ∧
      ∀ n, x.reserved.toNat.testBit n = true ↔ w.testBit n = true ∧ n ≠ k.mPos128 ∧
        (28 ≤ n ∧ n ≤ 43 ∨ 50 ≤ n ∧ n ≤ 52 ∨ 57 ≤ n)) ∧
    (k.fmt = .c64r →
      let y := k.layout64
      x.sdp.toNat = w / 2 ^ 30 ∧ x.code.toNat = w / 2 ^ y.apLo % 2 ^ 5 ∧ x.ct = w.testBit y.ctPos ∧
      x.ef = w.testBit y.efPos ∧ x.t.toNat = w / 2 ^ y.tLo % 2 ^ 8 ∧ x.b.toNat = w / 2 ^ y.bLo % 2 ^ 10 ∧
      ∀ n, x.reserved.toNat.testBit n = true ↔ w.testBit n = true ∧ n < 30 ∧ n ≠ y.ctPos ∧ n ≠ y.efPos ∧
        ¬(y.apLo ≤ n ∧ n < y.apLo + 5) ∧ ¬(y.tLo ≤ n ∧ n < y.tLo + 8) ∧ ¬(y.bLo ≤ n ∧ n < y.bLo + 10))

/-- R52, R53: a little-endian memory image is 2 * AW / 8 bytes, the cursor's below the pesbt's. -/
def Obligations.ImageLittleEndian : Prop :=
  ∀ (k : Config) (c : Cap k.fmt), k.imageOrder = .little →
    (c.image k).length = 2 * k.fmt.aw / 8 ∧ bytesToNat (c.image k) = c.cursor.toNat + 2 ^ k.fmt.aw * c.pesbt.toNat

/-! ## Bounds codec and representability -/

/-- R112, R113, R114: what a word whose stored exponent is in range decodes to. Up to exponent MAX_E - 2 the base and top
are multiples of 2^E with the word's mantissas above; the address lies in the window of 2^(E+MW) addresses that starts
2^(E+MW-2) below the base, the top in the same window, and the top corrected to the base's half. At MAX_E - 1 and MAX_E the
base and top are the mantissas times 2^E, mod 2^AW and mod 2^(AW+1), whatever the address, and uncorrected. The comparisons,
the implied bit and the top correction are the spec's own inference (log 16). -/
def Obligations.DecodeWithinWindow : Prop :=
  ∀ (s : State) (d : Mantissas), s.cfg.mantissas? s.operands.p = some d →
    ∃ base top, exec .boundsDecode s = .next { s with response := some (.returned (.bounds ⟨base, top, true⟩)) } ∧
      let f := s.cfg.fmt
      (d.e + 2 ≤ f.maxE →
        base.toNat % 2 ^ d.e = 0 ∧ base.toNat / 2 ^ d.e % 2 ^ f.mw = d.bm ∧
        top.toNat % 2 ^ d.e = 0 ∧ top.toNat / 2 ^ d.e % 2 ^ f.mw = topMantissa f d ∧
        (s.operands.a.toNat / 2 ^ d.e + 2 ^ (f.mw - 2) + 2 ^ (f.aw - d.e) - base.toNat / 2 ^ d.e) % 2 ^ (f.aw - d.e) <
          2 ^ f.mw ∧
        (top.toNat + 2 ^ (d.e + f.mw - 2) + 2 ^ f.aw - base.toNat) % 2 ^ f.aw < 2 ^ (d.e + f.mw) ∧
        (top.toNat / 2 ^ (f.aw - 1) + 4 - base.toNat / 2 ^ (f.aw - 1)) % 4 ≤ 1) ∧
      (f.maxE ≤ d.e + 1 →
        base.toNat = d.bm * 2 ^ d.e % 2 ^ f.aw ∧ top.toNat = topMantissa f d * 2 ^ d.e % 2 ^ (f.aw + 1))

/-- R26, R73, R115: every word decodes at every address, with bounds_valid true; a stored exponent above MAX_E gives the
draw OOR_DECODE, its top at most 2^AW as decision D12 of 92_eei_decisions.md has it (log 9). -/
def Obligations.EveryWordDecodes : Prop :=
  ∀ s : State, ∃ base top,
    exec .boundsDecode s = .next { s with response := some (.returned (.bounds ⟨base, top, true⟩)) } ∧
    ((fields s.cfg s.operands.p).ef = false →
      s.cfg.fmt.maxE < (fields s.cfg s.operands.p).t.toNat % 8 * 8 + (fields s.cfg s.operands.p).b.toNat % 8 →
      base = BitVec.ofNat _ (s.cfg.oorDecode s.operands.p.toNat s.operands.a.toNat).1 ∧
      top = BitVec.ofNat _ ((s.cfg.oorDecode s.operands.p.toNat s.operands.a.toNat).2 % (2 ^ s.cfg.fmt.aw + 1)) ∧
      top.toNat ≤ 2 ^ s.cfg.fmt.aw)

/-- R71, R116, R119: the encoding of a request in the domain contains it, rounds by less than one granule of 2^(E+3),
stores ES = MAX_E - E in the low bits of T and B, is exact iff nothing was rounded, and takes the EF = 1 form exactly for
lengths below 2^(MW-2). In the EF = 0 form the exponent is the smallest that holds the rounded length, which is below
2^(E+MW-1) and at least 2^(E+MW-2), and the upper bits of T and B are those of the rounded bounds. The granule and the
implied length bit are the spec's own inference (log 16). -/
def Obligations.EncodeRoundsOutward : Prop :=
  ∀ s : State, InDomain s.cfg s.operands.b s.operands.t →
    ∃ y, exec .boundsEncode s = .next { s with response := some (.returned (.encoded y)) } ∧
      let f := s.cfg.fmt
      let b := s.operands.b.toNat
      let t := s.operands.t.toNat
      y.base.toNat ≤ b ∧ t ≤ y.top.toNat ∧ y.top.toNat ≤ 2 ^ f.aw ∧ y.e ≤ f.maxE ∧
      (y.exact = true ↔ y.base.toNat = b ∧ y.top.toNat = t) ∧
      (y.ef = true ↔ t - b < 2 ^ (f.mw - 2)) ∧
      (y.ef = true → y.exact = true ∧ y.e = 0 ∧ y.es.toNat = 0 ∧ y.t.toNat = t % 2 ^ f.tw ∧ y.b.toNat = b % 2 ^ f.mw) ∧
      (y.ef = false → t - b < 2 ^ (y.e + f.mw - 1) ∧ y.es.toNat = f.maxE - y.e ∧
        y.t.toNat % 8 * 8 + y.b.toNat % 8 = y.es.toNat ∧
        2 ^ (y.e + f.mw - 2) ≤ y.top.toNat - y.base.toNat ∧
        y.top.toNat - y.base.toNat < 2 ^ (y.e + f.mw - 1) ∧
        y.t.toNat / 8 = y.top.toNat / 2 ^ (y.e + 3) % 2 ^ (f.tw - 3) ∧
        y.b.toNat / 8 = y.base.toNat / 2 ^ (y.e + 3) % 2 ^ (f.mw - 3) ∧
        y.base.toNat % 2 ^ (y.e + 3) = 0 ∧ y.top.toNat % 2 ^ (y.e + 3) = 0 ∧
        b < y.base.toNat + 2 ^ (y.e + 3) ∧ y.top.toNat < t + 2 ^ (y.e + 3))

/-- R110, R117: a request with b > t or t > 2^AW completes with exact false and the fields of the draw ENCODE_INVERTED; the
rounded bounds and the exponent, which the rule does not name, are free too (log 11), the exponent in 0..MAX_E. -/
def Obligations.EncodeOutsideDomain : Prop :=
  ∀ s : State, ¬ InDomain s.cfg s.operands.b s.operands.t →
    ∃ y : Encoded s.cfg.fmt, exec .boundsEncode s = .next { s with response := some (.returned (.encoded y)) } ∧ y.exact = false ∧
      y.e ≤ s.cfg.fmt.maxE ∧
      let w := s.cfg.encodeInverted s.operands.b.toNat s.operands.t.toNat
      y.ef = w.ef ∧ y.es.toNat = w.es % 2 ^ 6 ∧ y.t.toNat = w.t % 2 ^ s.cfg.fmt.tw ∧ y.b.toNat = w.b % 2 ^ s.cfg.fmt.mw

/-- R123, R144: in an instance of the spec, a capability made for a request in the domain, with a cursor inside the
request, decodes to the rounded bounds BOUNDS_ENCODE gives for it. -/
def Obligations.MaxPermsCapDecodesToRequest : Prop :=
  ∀ s : State, s.cfg.Valid → InDomain s.cfg s.operands.b s.operands.t →
    s.operands.b.toNat ≤ s.operands.a.toNat → s.operands.a.toNat ≤ s.operands.t.toNat →
    ∃ (c : Cap s.cfg.fmt) (y : Encoded s.cfg.fmt),
      exec .makeMaxPermsCap s = .next { s with response := some (.returned (.cap c)) } ∧
      exec .boundsEncode s = .next { s with response := some (.returned (.encoded y)) } ∧
      decodeBounds s.cfg c.pesbt c.cursor = ⟨y.base, y.top, true⟩

/-- R118: SET_BOUNDS keeps the cursor, the tag and every field of the word but EF, T and B, which become the encoding's,
in an instance of the spec; where the request is in the domain and holds the cursor, the new views are the rounded
request, an inference of the spec over comparisons that are inferences too (log 16). -/
def Obligations.SetBoundsStoresRequest : Prop :=
  ∀ s : State, s.cfg.Valid →
    let y := encodeBounds s.cfg s.operands.rb s.operands.rt
    ∃ c : Cap s.cfg.fmt, exec .setBounds s = .next { s with response := some (.returned (.capExact c y.exact)) } ∧
      c.cursor = s.operands.c.cursor ∧ c.tag = s.operands.c.tag ∧
      fields s.cfg c.pesbt = { fields s.cfg s.operands.c.pesbt with ef := y.ef, t := y.t, b := y.b } ∧
      (InDomain s.cfg s.operands.rb s.operands.rt → s.operands.rb.toNat ≤ s.operands.c.cursor.toNat →
        s.operands.c.cursor.toNat ≤ s.operands.rt.toNat →
        decodeBounds s.cfg c.pesbt c.cursor = ⟨y.base, y.top, true⟩)

/-- R120: IS_REPRESENTABLE_WITH_ADDR is true exactly where the word decodes at the address to the bounds it has at the
cursor; so at the cursor itself, and, by an inference of the spec (log 16), at every address for a word of exponent
MAX_E. -/
def Obligations.RepresentableWithAddr : Prop :=
  ∀ s : State, ∃ b, exec .isRepresentableWithAddr s = .next { s with response := some (.returned (.bool b)) } ∧
    (b = true ↔ decodeBounds s.cfg s.operands.c.pesbt s.operands.c.cursor = decodeBounds s.cfg s.operands.c.pesbt s.operands.a) ∧
    (s.operands.a = s.operands.c.cursor → b = true) ∧
    (∀ d, s.cfg.mantissas? s.operands.c.pesbt = some d → d.e = s.cfg.fmt.maxE → b = true)

/-- R122: for a word of exponent below MAX_E - 1, the representable addresses are those of the cursor's window of 2^(E+MW)
addresses, counted from the edge R, which is the spec's own inference (log 16). -/
def Obligations.WindowRepresentable : Prop :=
  ∀ (s : State) (d : Mantissas), s.cfg.mantissas? s.operands.c.pesbt = some d → d.e + 1 < s.cfg.fmt.maxE →
    ∃ b, exec .isRepresentableWithAddr s = .next { s with response := some (.returned (.bool b)) } ∧
      (b = true ↔
        windowOf s.cfg.fmt d s.operands.a.toNat = windowOf s.cfg.fmt d s.operands.c.cursor.toNat)

/-- R121: MARK_UNREPRESENTABLE keeps the word, moves the cursor and clears the tag, so its bounds are the word's decode at
the new address. -/
def Obligations.MarkUnrepresentableClearsTag : Prop :=
  ∀ s : State, ∃ c : Cap s.cfg.fmt, exec .markUnrepresentable s = .next { s with response := some (.returned (.cap c)) } ∧
    c.pesbt = s.operands.c.pesbt ∧ c.cursor = s.operands.a ∧ c.tag = false ∧
    c.bounds s.cfg = decodeBounds s.cfg s.operands.c.pesbt s.operands.a

/-- R160: SET_CURSOR keeps the word and moves the cursor; the tag is kept if the word decodes at the new address to the
same bounds, else cleared. So a tagged result has the bounds of its source. -/
def Obligations.SetCursorKeepsTaggedBounds : Prop :=
  ∀ s : State, ∃ c : Cap s.cfg.fmt, exec .setCursor s = .next { s with response := some (.returned (.cap c)) } ∧
    c.pesbt = s.operands.c.pesbt ∧ c.cursor = s.operands.a ∧
    (c.tag = true ↔ s.operands.c.tag = true ∧
      decodeBounds s.cfg s.operands.c.pesbt s.operands.c.cursor = decodeBounds s.cfg s.operands.c.pesbt s.operands.a) ∧
    (c.tag = true → c.base s.cfg = s.operands.c.base s.cfg ∧ c.top s.cfg = s.operands.c.top s.cfg)

/-! ## Capability values -/

/-- R28, R140, R142: in every state COMPRESS answers the word of its operand c and DECOMPRESS the capability of its three
operands; and COMPRESS of that capability, whatever the other operands then are, gives the word back. -/
def Obligations.CompressOfDecompress : Prop :=
  ∀ s : State,
    exec .compress s = .next { s with response := some (.returned (.word s.operands.c.pesbt)) } ∧
    ∃ c : Cap s.cfg.fmt, exec .decompress s = .next { s with response := some (.returned (.cap c)) } ∧
      c.pesbt = s.operands.p ∧ c.cursor = s.operands.a ∧ c.tag = s.operands.tag ∧
      ∀ o : Operands s.cfg.fmt, o.c = c →
        exec .compress { s with operands := o } =
          .next { s with operands := o, response := some (.returned (.word s.operands.p)) }

/-- R143: MAKE_NULL_DERIVED gives the null word, untagged, at the operand's cursor; in an instance of the spec its base is
0 at every cursor, and for C128R its top is 2^64. -/
def Obligations.NullDerivedBounds : Prop :=
  ∀ s : State, s.cfg.Valid → ∃ c : Cap s.cfg.fmt,
    exec .makeNullDerived s = .next { s with response := some (.returned (.cap c)) } ∧
    c.pesbt = s.cfg.nullPesbt ∧ c.cursor = s.operands.v ∧ c.tag = false ∧ (c.base s.cfg).toNat = 0 ∧
    (s.cfg.fmt = .c128r → c.pesbt.toNat = 0 ∧ (c.top s.cfg).toNat = 2 ^ 64)

/-- R144: MAKE_MAX_PERMS_CAP makes a tagged, unsealed word with all uperms, MAX_CODE, no reserved bits and the encoded
bounds, in an instance of the spec; for C128R its permissions are all six with m = 0. -/
def Obligations.MaxPermsCapFields : Prop :=
  ∀ s : State, s.cfg.Valid →
    let y := encodeBounds s.cfg s.operands.b s.operands.t
    ∃ c : Cap s.cfg.fmt, exec .makeMaxPermsCap s = .next { s with response := some (.returned (.cap c)) } ∧
      c.cursor = s.operands.a ∧ c.tag = true ∧
      fields s.cfg c.pesbt = ⟨BitVec.allOnes _, s.cfg.maxCode, false, y.ef, y.t, y.b, BitVec.ofNat _ 0⟩ ∧
      (s.cfg.fmt = .c128r → s.cfg.maxCode.toNat = 0x3F ∧ c.perms s.cfg = (sixPerms, false))

/-- R145, R147, R149, R150, R151, R152: the plain accessors return the views. That an inverted length may depend on the tag
is the model's choice (log 10). -/
def Obligations.AccessorsReturnViews : Prop :=
  ∀ s : State,
    let c := s.operands.c
    let bounds := decodeBounds s.cfg c.pesbt c.cursor
    exec .getBase s = .next { s with response := some (.returned (.word bounds.base)) } ∧
    exec .getTopFull s = .next { s with response := some (.returned (.wide bounds.top)) } ∧
    (∃ v, exec .getLengthFull s = .next { s with response := some (.returned (.wide v)) } ∧
      (bounds.base.toNat ≤ bounds.top.toNat → v.toNat = bounds.top.toNat - bounds.base.toNat) ∧
      (bounds.top.toNat < bounds.base.toNat →
        v = BitVec.ofNat _ (s.cfg.invertedLength c.pesbt.toNat c.cursor.toNat c.tag))) ∧
    (∃ v, exec .getOffset s = .next { s with response := some (.returned (.word v)) } ∧ v + bounds.base = c.cursor) ∧
    (∃ set m, exec .getPerms s = .next { s with response := some (.returned (.perms set m)) } ∧
      permDecode s.cfg (fields s.cfg c.pesbt).code s.cfg.lvb = (set, m)) ∧
    exec .getUperms s = .next { s with response := some (.returned (.uperms (fields s.cfg c.pesbt).sdp)) }

/-- R146, R148: GET_TOP and GET_LENGTH saturate at 2^AW - 1; an inverted length is the draw mod 2^AW (log 10). -/
def Obligations.AccessorsSaturate : Prop :=
  ∀ s : State,
    let c := s.operands.c
    let bounds := decodeBounds s.cfg c.pesbt c.cursor
    (∃ v, exec .getTop s = .next { s with response := some (.returned (.word v)) } ∧
      v.toNat = min bounds.top.toNat (2 ^ s.cfg.fmt.aw - 1)) ∧
    (∃ v, exec .getLength s = .next { s with response := some (.returned (.word v)) } ∧
      (bounds.base.toNat ≤ bounds.top.toNat →
        v.toNat = min (bounds.top.toNat - bounds.base.toNat) (2 ^ s.cfg.fmt.aw - 1)) ∧
      (bounds.top.toNat < bounds.base.toNat →
        v.toNat = s.cfg.invertedLength c.pesbt.toNat c.cursor.toNat c.tag % 2 ^ s.cfg.fmt.aw))

/-- R153: IS_IN_BOUNDS compares unwrapped sums against the full-precision top. -/
def Obligations.IsInBoundsUnwrapped : Prop :=
  ∀ s : State, ∃ b, exec .isInBounds s = .next { s with response := some (.returned (.bool b)) } ∧
    let bounds := decodeBounds s.cfg s.operands.c.pesbt s.operands.c.cursor
    (b = true ↔ bounds.base.toNat ≤ s.operands.a.toNat ∧ s.operands.a.toNat + s.operands.n.toNat ≤ bounds.top.toNat)

/-- R155, R156, R157: IS_SEALED reads the CT field, IS_UNSEALED is its negation, IS_SEALED_ENTRY equals it. -/
def Obligations.SealPredicates : Prop :=
  ∀ s : State, ∃ b, (fields s.cfg s.operands.c.pesbt).ct = b ∧
    exec .isSealed s = .next { s with response := some (.returned (.bool b)) } ∧
    exec .isUnsealed s = .next { s with response := some (.returned (.bool (!b))) } ∧
    exec .isSealedEntry s = .next { s with response := some (.returned (.bool b)) }

/-- R158: SET_SEALED with the sentry's otype, MAX_OTYPE - 1 as a subtraction of natural numbers (log 14: for MAX_OTYPE = 0,
which no format with a sentry has, it is 0), sets CT and leaves every other field, the cursor and the tag, and the bounds
of a word whose stored exponent is in range, in an instance of the spec; any other otype is refused. -/
def Obligations.SetSealedSentry : Prop :=
  ∀ s : State, s.cfg.Valid →
    (s.operands.ot = s.cfg.maxOtype - 1 → ∃ c : Cap s.cfg.fmt,
      exec .setSealed s = .next { s with response := some (.returned (.cap c)) } ∧
      c.cursor = s.operands.c.cursor ∧ c.tag = s.operands.c.tag ∧
      fields s.cfg c.pesbt = { fields s.cfg s.operands.c.pesbt with ct := true } ∧
      (s.cfg.mantissas? s.operands.c.pesbt ≠ none → c.bounds s.cfg = s.operands.c.bounds s.cfg) ∧
      (s.operands.c.isSealed s.cfg = true → c = s.operands.c)) ∧
    (s.operands.ot ≠ s.cfg.maxOtype - 1 →
      exec .setSealed s = .next { s with response := some (.refused (.unsupportedOtype 0x50#32 s.operands.ot)) })

/-- R159: SET_UNSEALED clears CT and leaves everything else, in an instance of the spec; an unsealed value is returned
unchanged. So it undoes SET_SEALED of an unsealed value. -/
def Obligations.UnsealUndoesSeal : Prop :=
  ∀ s : State, s.cfg.Valid →
    (∃ c : Cap s.cfg.fmt, exec .setUnsealed s = .next { s with response := some (.returned (.cap c)) } ∧
      c.cursor = s.operands.c.cursor ∧ c.tag = s.operands.c.tag ∧
      fields s.cfg c.pesbt = { fields s.cfg s.operands.c.pesbt with ct := false }) ∧
    (s.operands.c.isSealed s.cfg = false →
      exec .setUnsealed s = .next { s with response := some (.returned (.cap s.operands.c)) }) ∧
    (s.operands.c.isSealed s.cfg = false → ∀ o, o = { s.operands with c := s.operands.c.withCt s.cfg true } →
      exec .setUnsealed { s with operands := o } =
        .next { s with operands := o, response := some (.returned (.cap s.operands.c)) })

/-- R162: SET_PERMS stores the code of (s, m) under the configured LVB and the uperms, and leaves every other field, the
cursor and the tag, and the bounds of a word whose stored exponent is in range, in an instance of the spec; an encodable
(s, m) is then what GET_PERMS reads. -/
def Obligations.SetPermsStoresCode : Prop :=
  ∀ s : State, s.cfg.Valid →
    let code := permEncode s.cfg s.operands.s s.operands.m s.cfg.lvb
    ∃ c : Cap s.cfg.fmt, exec .setPerms s = .next { s with response := some (.returned (.cap c)) } ∧
      c.cursor = s.operands.c.cursor ∧ c.tag = s.operands.c.tag ∧
      fields s.cfg c.pesbt = { fields s.cfg s.operands.c.pesbt with code := code, sdp := s.operands.u } ∧
      (s.cfg.mantissas? s.operands.c.pesbt ≠ none → c.bounds s.cfg = s.operands.c.bounds s.cfg) ∧
      (code ≠ BitVec.ofNat _ 0 → c.perms s.cfg = (s.operands.s, s.operands.m))

/-- R154: IS_REPRESENTABLE asks whether the bounds survive re-encoding at the cursor; it is true of every capability
SET_BOUNDS makes, in an instance of the spec, where the request is in the domain and holds the cursor, an inference of the
spec (R123) that it has not proven, over comparisons that are inferences too (log 16). -/
def Obligations.RepresentableAfterSetBounds : Prop :=
  ∀ s : State,
    (∃ b, exec .isRepresentable s = .next { s with response := some (.returned (.bool b)) } ∧
      (b = true ↔ decodeBounds s.cfg (s.operands.c.reencode s.cfg) s.operands.c.cursor = s.operands.c.bounds s.cfg)) ∧
    (s.cfg.Valid → InDomain s.cfg s.operands.rb s.operands.rt → s.operands.rb.toNat ≤ s.operands.c.cursor.toNat →
      s.operands.c.cursor.toNat ≤ s.operands.rt.toNat →
      ∀ o, o = { s.operands with c := (s.operands.c.setBounds s.cfg s.operands.rb s.operands.rt).1 } →
        exec .isRepresentable { s with operands := o } =
          .next { s with operands := o, response := some (.returned (.bool true)) })

/-- R161: ROUNDTRIP_CHECK returns the views of the word at the address, as the word's tagged capability has them, and
whether its re-encoding is the word. In an instance of the spec the re-encoded word keeps SDP, CT and the reserved bits,
and has the encoding of the decoded bounds and the code of the decoded permissions (R141). By R123, R141 and R144,
inferences over log 16, for a word that MAKE_MAX_PERMS_CAP makes for a request in the domain that the address lies in and
that rounds exactly, a C128R instance re-encodes it to itself. -/
def Obligations.RoundtripRecord : Prop :=
  ∀ s : State,
    let bounds := decodeBounds s.cfg s.operands.p s.operands.a
    ∃ v : RoundTrip s.cfg.fmt, exec .roundtripCheck s = .next { s with response := some (.returned (.roundTrip v)) } ∧
      v.base = bounds.base ∧ v.cursor = s.operands.a ∧ v.top = bounds.top ∧ v.boundsValid = true ∧
      v.length = Cap.lengthFull s.cfg ⟨s.operands.p, s.operands.a, true⟩ ∧
      v.sealed = (fields s.cfg s.operands.p).ct ∧ v.reserved = s.operands.p &&& ~~~(namedMask s.cfg) ∧
      v.reencoded = Cap.reencode s.cfg ⟨s.operands.p, s.operands.a, true⟩ ∧
      (v.equal = true ↔ v.reencoded = s.operands.p) ∧
      (s.cfg.Valid →
        let x := fields s.cfg s.operands.p
        let y := encodeBounds s.cfg bounds.base bounds.top
        let pm := permDecode s.cfg x.code s.cfg.lvb
        fields s.cfg v.reencoded =
          ⟨x.sdp, permEncode s.cfg pm.1 pm.2 s.cfg.lvb, x.ct, y.ef, y.t, y.b, x.reserved⟩) ∧
      (s.cfg.Valid → s.cfg.fmt = .c128r → InDomain s.cfg s.operands.b s.operands.t →
        s.operands.b.toNat ≤ s.operands.a.toNat → s.operands.a.toNat ≤ s.operands.t.toNat →
        (encodeBounds s.cfg s.operands.b s.operands.t).exact = true →
        s.operands.p = (makeMaxPermsCap s.cfg s.operands.b s.operands.a s.operands.t).pesbt → v.equal = true)

/-! ## The command port at power-on, and invalid permission combinations -/

/-- R231, with the model's choice of a command port (logs 3 and 4): at power-on nothing is issued, the operands are zero and
no outcome has been delivered, so the block waits for its first command. -/
def Obligations.PowerOnWaits : Prop :=
  ∀ (k : Config) (n : Nat),
    (State.powerOn k n).pending = [] ∧ (State.powerOn k n).operands = Operands.zero k.fmt ∧
    (State.powerOn k n).response = none ∧ step (State.powerOn k n) = .next (State.powerOn k n)

/-- R95: in an instance of the spec a C64R set with C but neither R nor W encodes to 0 (the constraint on AP_TABLE is the
model's reading, log 25), and so does every pair no Used entry holds; the C128R map encodes every other pair than one with
EL or SL so that it decodes back, and those to 0. -/
def Obligations.InvalidCombinationsEncodeToZero : Prop :=
  ∀ s : State, s.cfg.Valid → ∃ code : BitVec s.cfg.fmt.apw,
    exec .permEncode s = .next { s with response := some (.returned (.code code)) } ∧
    (s.cfg.fmt = .c64r →
      (s.operands.set.c = true → s.operands.set.r = false → s.operands.set.w = false → code.toNat = 0) ∧
      ((∀ i : Fin 32, s.cfg.apEntry s.operands.lvb i ≠ .used s.operands.set s.operands.m) → code.toNat = 0)) ∧
    (s.cfg.fmt = .c128r →
      (s.operands.set.el = true ∨ s.operands.set.sl = true → code.toNat = 0) ∧
      (s.operands.set.el = false → s.operands.set.sl = false → ∀ o, o = { s.operands with code := code } →
        exec .permDecode { s with operands := o } =
          .next { s with operands := o, response := some (.returned (.perms s.operands.set s.operands.m)) }))
end

