-- ==== Sys2Proof/Laws/Codec.lean ====
section
/-! SUPPORT. What the codec's shared functions can do, said once: one fix-up rule, decoding a word's bounds, encoding a
request, and the bits of a packed word. -/

namespace Sys2Proof.Machine

/-! ## Fix-up rules (40_permissions.md R97) -/

/-- A name is left in a set by the removal of another. -/
theorem permSet_has_erase (s : PermSet) (p q : Perm) : (s.erase p).has q = (s.has q && q != p) := by
  cases q <;> rfl

/-- Everything one rule does: it takes its target away where it applies and its requirement fails. -/
theorem isIn_applyRule (k : Config) (x : Bool × PermSet) (r : FixupRule) (t : FixTarget) :
    t.isIn (applyRule k x r) = true ↔
      t.isIn x = true ∧ ¬ (t = r.target ∧ k.ruleApplies r = true ∧ r.requires.holds x.1 x.2 = false) := by
  unfold applyRule
  by_cases h : k.ruleApplies r = true ∧ r.requires.holds x.1 x.2 = false
  · rw [if_pos (by simp [h.1, h.2])]
    cases ht : r.target <;> cases t <;> simp [FixTarget.isIn, h.1, h.2, permSet_has_erase]
  · rw [if_neg (by simpa using h)]
    exact ⟨fun hx => ⟨hx, fun hh => h hh.2⟩, And.left⟩

/-! ## Bounds (41_bounds.md R112 to R117) -/

/-- A word whose stored exponent is in range decodes by its mantissas. -/
theorem decodeBounds_of_some {k : Config} {p : BitVec k.fmt.aw} {d : Mantissas} (h : k.mantissas? p = some d)
    (a : BitVec k.fmt.aw) : decodeBounds k p a = boundsAt k.fmt d a.toNat := by
  unfold decodeBounds
  unfold Config.mantissas? at h
  simp only [h]

/-- A word whose stored exponent is above MAX_E decodes to the draw (41_bounds.md R115). -/
theorem decodeBounds_of_none {k : Config} {p : BitVec k.fmt.aw} (h : k.mantissas? p = none) (a : BitVec k.fmt.aw) :
    decodeBounds k p a =
      ⟨BitVec.ofNat _ (k.oorDecode p.toNat a.toNat).1,
        BitVec.ofNat _ ((k.oorDecode p.toNat a.toNat).2 % (2 ^ k.fmt.aw + 1)), true⟩ := by
  unfold decodeBounds
  unfold Config.mantissas? at h
  simp only [h]

/-- The mantissas of a word depend on its bounds fields alone (41_bounds.md R112). -/
theorem mantissas?_congr {k : Config} {p q : BitVec k.fmt.aw} (he : (fields k p).ef = (fields k q).ef)
    (ht : (fields k p).t = (fields k q).t) (hb : (fields k p).b = (fields k q).b) :
    k.mantissas? p = k.mantissas? q := by
  simp only [Config.mantissas?, he, ht, hb]

/-- A request inside the encoder's domain (41_bounds.md R116). -/
theorem encodeBounds_of_inDomain {k : Config} {b : BitVec k.fmt.aw} {t : BitVec (k.fmt.aw + 1)} (h : InDomain k b t) :
    encodeBounds k b t = encodeInDomain k.fmt b.toNat t.toNat := if_pos h

/-- A request outside the encoder's domain is the draw (41_bounds.md R117). -/
theorem encodeBounds_of_not_inDomain {k : Config} {b : BitVec k.fmt.aw} {t : BitVec (k.fmt.aw + 1)}
    (h : ¬ InDomain k b t) :
    encodeBounds k b t =
      let y := k.encodeInverted b.toNat t.toNat
      ⟨y.ef, BitVec.ofNat _ y.es, BitVec.ofNat _ y.t, BitVec.ofNat _ y.b, false, BitVec.ofNat _ y.base,
        BitVec.ofNat _ y.top, y.e % (k.fmt.maxE + 1)⟩ := if_neg h

/-! ## Bits of the compressed word (30_encoding.md R68) -/

/-- A bit of a placed field. -/
theorem getLsbD_place (f : Fmt) (lo : Nat) {n : Nat} (v : BitVec n) (i : Nat) :
    (place f lo v).getLsbD i = (decide (i < f.aw) && !decide (i < lo) && v.getLsbD (i - lo)) := by
  simp only [place, BitVec.getLsbD_shiftLeft, BitVec.getLsbD_setWidth]
  by_cases h : i < f.aw
  · have : i - lo < f.aw := by omega
    simp [h, this]
  · simp [h]

/-- A one-bit field. -/
theorem getLsbD_bit (b : Bool) (i : Nat) : (bit b).getLsbD i = (decide (i = 0) && b) := by
  simp [bit, BitVec.getLsbD_ofBool]

/-- A bit of the separate M bit's place. -/
theorem getLsbD_placeM (k : Config) (m : Bool) (i : Nat) :
    (placeM k m).getLsbD i =
      match k.mBit? with
      | none => false
      | some pos => (place k.fmt pos (bit m)).getLsbD i := by
  unfold placeM
  cases k.mBit? <;> simp

/-- A bit of a packed word. -/
theorem getLsbD_pack (k : Config) (x : Fields k.fmt) (i : Nat) :
    (pack k x).getLsbD i =
      ((place k.fmt k.sdpLo x.sdp).getLsbD i || (place k.fmt k.apLo (x.code.setWidth k.fmt.apFieldWidth)).getLsbD i ||
        (placeM k (x.code.getLsbD k.fmt.apFieldWidth)).getLsbD i || (place k.fmt k.ctPos (bit x.ct)).getLsbD i ||
        (place k.fmt k.efPos (bit x.ef)).getLsbD i || (place k.fmt k.tLo x.t).getLsbD i ||
        (place k.fmt k.bLo x.b).getLsbD i || x.reserved.getLsbD i) := by
  simp only [pack, BitVec.getLsbD_or]

end Sys2Proof.Machine
end

