-- ==== Sys2Proof/Laws/State.lean ====
section
/-! SUPPORT. One lemma per field per update of State, each true by rfl, so that no later proof unfolds a record update. -/

namespace Sys2Proof.Machine.State

variable (s : State)

/-! ## deliver -/

@[simp] theorem deliver_cfg (r : Response s.cfg.fmt) : (s.deliver r).cfg = s.cfg := rfl
@[simp] theorem deliver_gpr (r : Response s.cfg.fmt) : (s.deliver r).gpr = s.gpr := rfl
@[simp] theorem deliver_mark (r : Response s.cfg.fmt) : (s.deliver r).mark = s.mark := rfl
@[simp] theorem deliver_pending (r : Response s.cfg.fmt) : (s.deliver r).pending = s.pending := rfl
@[simp] theorem deliver_operands (r : Response s.cfg.fmt) : (s.deliver r).operands = s.operands := rfl
@[simp] theorem deliver_response (r : Response s.cfg.fmt) : (s.deliver r).response = some r := rfl

/-! ## answer -/

@[simp] theorem answer_cfg (v : Value s.cfg.fmt) : (s.answer v).cfg = s.cfg := rfl
@[simp] theorem answer_gpr (v : Value s.cfg.fmt) : (s.answer v).gpr = s.gpr := rfl
@[simp] theorem answer_mark (v : Value s.cfg.fmt) : (s.answer v).mark = s.mark := rfl
@[simp] theorem answer_pending (v : Value s.cfg.fmt) : (s.answer v).pending = s.pending := rfl
@[simp] theorem answer_operands (v : Value s.cfg.fmt) : (s.answer v).operands = s.operands := rfl
@[simp] theorem answer_response (v : Value s.cfg.fmt) : (s.answer v).response = some (.returned v) := rfl

/-! ## refuse -/

@[simp] theorem refuse_cfg (r : Refusal) : (s.refuse r).cfg = s.cfg := rfl
@[simp] theorem refuse_gpr (r : Refusal) : (s.refuse r).gpr = s.gpr := rfl
@[simp] theorem refuse_mark (r : Refusal) : (s.refuse r).mark = s.mark := rfl
@[simp] theorem refuse_pending (r : Refusal) : (s.refuse r).pending = s.pending := rfl
@[simp] theorem refuse_operands (r : Refusal) : (s.refuse r).operands = s.operands := rfl
@[simp] theorem refuse_response (r : Refusal) : (s.refuse r).response = some (.refused r) := rfl

/-! ## takeFault -/

@[simp] theorem takeFault_cfg (x : Fault) : (s.takeFault x).cfg = s.cfg := rfl
@[simp] theorem takeFault_gpr (x : Fault) : (s.takeFault x).gpr = s.gpr := rfl
@[simp] theorem takeFault_mark (x : Fault) : (s.takeFault x).mark = some x := rfl
@[simp] theorem takeFault_pending (x : Fault) : (s.takeFault x).pending = s.pending := rfl
@[simp] theorem takeFault_operands (x : Fault) : (s.takeFault x).operands = s.operands := rfl
@[simp] theorem takeFault_response (x : Fault) : (s.takeFault x).response = some (.faulted x) := rfl

/-! ## commit -/

@[simp] theorem commit_cfg (g : List (Entry s.cfg.fmt)) (v : Value s.cfg.fmt) : (s.commit g v).cfg = s.cfg := rfl
@[simp] theorem commit_gpr (g : List (Entry s.cfg.fmt)) (v : Value s.cfg.fmt) : (s.commit g v).gpr = g := rfl
@[simp] theorem commit_mark (g : List (Entry s.cfg.fmt)) (v : Value s.cfg.fmt) : (s.commit g v).mark = s.mark := rfl
@[simp] theorem commit_pending (g : List (Entry s.cfg.fmt)) (v : Value s.cfg.fmt) :
    (s.commit g v).pending = s.pending := rfl
@[simp] theorem commit_operands (g : List (Entry s.cfg.fmt)) (v : Value s.cfg.fmt) :
    (s.commit g v).operands = s.operands := rfl
@[simp] theorem commit_response (g : List (Entry s.cfg.fmt)) (v : Value s.cfg.fmt) :
    (s.commit g v).response = some (.returned v) := rfl

/-! ## issueFirst and issue -/

@[simp] theorem issueFirst_cfg (c : Command s.cfg.fmt) : (s.issueFirst c).cfg = s.cfg := rfl
@[simp] theorem issueFirst_gpr (c : Command s.cfg.fmt) : (s.issueFirst c).gpr = s.gpr := rfl
@[simp] theorem issueFirst_mark (c : Command s.cfg.fmt) : (s.issueFirst c).mark = s.mark := rfl
@[simp] theorem issueFirst_pending (c : Command s.cfg.fmt) : (s.issueFirst c).pending = c :: s.pending := rfl
@[simp] theorem issueFirst_operands (c : Command s.cfg.fmt) : (s.issueFirst c).operands = s.operands := rfl
@[simp] theorem issueFirst_response (c : Command s.cfg.fmt) : (s.issueFirst c).response = s.response := rfl
@[simp] theorem issue_cfg (c : Command s.cfg.fmt) : (s.issue c).cfg = s.cfg := rfl
@[simp] theorem issue_gpr (c : Command s.cfg.fmt) : (s.issue c).gpr = s.gpr := rfl
@[simp] theorem issue_mark (c : Command s.cfg.fmt) : (s.issue c).mark = s.mark := rfl
@[simp] theorem issue_pending (c : Command s.cfg.fmt) : (s.issue c).pending = s.pending ++ [c] := rfl
@[simp] theorem issue_operands (c : Command s.cfg.fmt) : (s.issue c).operands = s.operands := rfl
@[simp] theorem issue_response (c : Command s.cfg.fmt) : (s.issue c).response = s.response := rfl

/-! ## running -/

@[simp] theorem running_cfg (c : Command s.cfg.fmt) (l : List (Command s.cfg.fmt)) : (s.running c l).cfg = s.cfg := rfl
@[simp] theorem running_gpr (c : Command s.cfg.fmt) (l : List (Command s.cfg.fmt)) : (s.running c l).gpr = s.gpr := rfl
@[simp] theorem running_mark (c : Command s.cfg.fmt) (l : List (Command s.cfg.fmt)) : (s.running c l).mark = s.mark := rfl
@[simp] theorem running_pending (c : Command s.cfg.fmt) (l : List (Command s.cfg.fmt)) : (s.running c l).pending = l := rfl
@[simp] theorem running_operands (c : Command s.cfg.fmt) (l : List (Command s.cfg.fmt)) :
    (s.running c l).operands = c.operands := rfl
@[simp] theorem running_response (c : Command s.cfg.fmt) (l : List (Command s.cfg.fmt)) :
    (s.running c l).response = s.response := rfl

/-! ## powerOn -/

@[simp] theorem powerOn_cfg (k : Config) (n : Nat) : (powerOn k n).cfg = k := rfl
@[simp] theorem powerOn_gpr (k : Config) (n : Nat) : (powerOn k n).gpr = resetFile k n := rfl
@[simp] theorem powerOn_mark (k : Config) (n : Nat) : (powerOn k n).mark = none := rfl
@[simp] theorem powerOn_pending (k : Config) (n : Nat) : (powerOn k n).pending = [] := rfl
@[simp] theorem powerOn_response (k : Config) (n : Nat) : (powerOn k n).response = none := rfl

end Sys2Proof.Machine.State
end

