-- ==== Sys2Proof/Laws/Ops.lean ====
section
/-! SUPPORT. What each shared operation of the meanings can do, said once: the register check, the reset file, the
check after a command, taking a command from the port. -/

namespace Sys2Proof.Machine

/-! ## The register check (43_regcache.md R191) -/

/-- The command goes on with the entry its index names. -/
theorem State.withRegister_of_some {s : State} {i : Instr} {rn : Nat} {go : Entry s.cfg.fmt → State}
    {e : Entry s.cfg.fmt} (h : s.gpr[rn]? = some e) : s.withRegister i rn go = go e := by
  simp [State.withRegister, h]

/-- An index at or above NUM_GPR is refused. -/
theorem State.withRegister_of_none {s : State} {i : Instr} {rn : Nat} {go : Entry s.cfg.fmt → State}
    (h : s.numGpr ≤ rn) : s.withRegister i rn go = s.refuse (.badRegister (recordedWord i)) := by
  have : s.gpr[rn]? = none := List.getElem?_eq_none h
  simp [State.withRegister, this]

/-- Everything the register check can do. -/
theorem State.withRegister_cases (s : State) (i : Instr) (rn : Nat) (go : Entry s.cfg.fmt → State) :
    (∃ e, s.gpr[rn]? = some e ∧ rn < s.numGpr ∧ s.withRegister i rn go = go e) ∨
      (s.numGpr ≤ rn ∧ s.withRegister i rn go = s.refuse (.badRegister (recordedWord i))) := by
  by_cases h : rn < s.numGpr
  · exact .inl ⟨s.gpr[rn], List.getElem?_eq_getElem h, h, withRegister_of_some (List.getElem?_eq_getElem h)⟩
  · exact .inr ⟨Nat.le_of_not_lt h, withRegister_of_none (Nat.le_of_not_lt h)⟩

/-! ## The register file after a write (10_state.md R35) -/

/-- A write keeps the number of registers. -/
@[simp] theorem written_length {f : Fmt} (g : List (Entry f)) (rn : Nat) (e : Entry f) :
    (written g rn e).length = g.length := by
  unfold written; split <;> simp

/-- Everything a write does to an entry. -/
theorem written_getElem? {f : Fmt} (g : List (Entry f)) (rn j : Nat) (e : Entry f) :
    (written g rn e)[j]? = if rn ≠ 0 ∧ j = rn ∧ j < g.length then some e else g[j]? := by
  unfold written
  by_cases h : rn = 0
  · simp [h]
  · by_cases hj : j = rn
    · subst hj
      by_cases hl : j < g.length
      · simp [h, hl]
      · simp [h, hl]
    · simp [h, hj, List.getElem?_set_ne (Ne.symm hj)]

/-! ## The reset register file (10_state.md R43) -/

/-- The reset file has its length. -/
@[simp] theorem resetFile_length (k : Config) (n : Nat) : (resetFile k n).length = n := by
  cases n <;> simp [resetFile]

/-- Every entry of the reset file: register 0, and the others. -/
theorem resetFile_getElem? (k : Config) (n rn : Nat) :
    (resetFile k n)[rn]? = if rn < n then some (if rn = 0 then zeroEntry k else resetEntry k) else none := by
  cases n with
  | zero => simp [resetFile]
  | succ n =>
    cases rn with
    | zero => simp [resetFile]
    | succ rn => simp [resetFile, List.getElem?_replicate]

/-! ## The check after a command (43_regcache.md R199) -/

/-- The Boolean check of I1 to I3 decides them. -/
theorem Entry.consistent_iff (k : Config) (e : Entry k.fmt) :
    e.consistent k = true ↔
      (e.state = .fullyDecompressed → ∃ c, e.slot = .cap c ∧ c.compress = e.pesbt ∧ c.cursor = e.cursor) ∧
      (e.state = .integer → e.pesbt = k.nullPesbt ∧ e.slot = .poison) ∧
      (e.state = .taggedCap ∨ e.state = .untaggedCap → e.slot = .poison) := by
  obtain ⟨p, a, st, sl⟩ := e
  cases st <;> cases sl <;> simp [Entry.consistent]

/-- The Boolean check of an entry decides the cache invariant of that entry. -/
theorem entryKeeps_iff (k : Config) (rn : Nat) (e : Entry k.fmt) : entryKeeps k rn e = true ↔ EntryInv k rn e := by
  simp only [entryKeeps, Bool.and_eq_true, Entry.consistent_iff, Bool.or_eq_true, bne_iff_ne, decide_eq_true_eq]
  constructor
  · rintro ⟨⟨h1, h2, h3⟩, h4⟩
    exact ⟨h1, h2, h3, fun h => h4.resolve_left (· h)⟩
  · rintro ⟨h1, h2, h3, h4⟩
    exact ⟨⟨h1, h2, h3⟩, (Nat.eq_zero_or_pos rn).elim (fun h => .inr (h4 h)) (fun h => .inl (Nat.ne_of_gt h))⟩

/-- No broken entry is found exactly when every entry keeps its invariant. -/
theorem firstBroken_eq_none (k : Config) (l : List (Entry k.fmt)) (n : Nat) :
    firstBroken k n l = none ↔ ∀ rn e, l[rn]? = some e → entryKeeps k (n + rn) e = true := by
  induction l generalizing n with
  | nil => simp [firstBroken]
  | cons e l ih =>
    unfold firstBroken
    constructor
    · intro h rn e' he
      split at h
      case isTrue hk =>
        cases rn with
        | zero => simp only [List.getElem?_cons_zero, Option.some.injEq] at he; simpa [← he] using hk
        | succ rn =>
          have := (ih (n + 1)).1 h rn e' (by simpa using he)
          rwa [Nat.add_assoc, Nat.add_comm 1 rn] at this
      case isFalse => simp at h
    · intro h
      have h0 : entryKeeps k n e = true := by simpa using h 0 e rfl
      rw [if_pos h0]
      refine (ih (n + 1)).2 fun rn e' he => ?_
      have := h (rn + 1) e' (by simpa using he)
      rwa [Nat.add_comm rn 1, ← Nat.add_assoc] at this

/-- The broken entry found stands at its number and breaks its invariant. -/
theorem firstBroken_spec (k : Config) (l : List (Entry k.fmt)) (n rn : Nat) (e : Entry k.fmt)
    (h : firstBroken k n l = some (rn, e)) : ∃ j, rn = n + j ∧ l[j]? = some e ∧ ¬ EntryInv k rn e := by
  induction l generalizing n with
  | nil => simp [firstBroken] at h
  | cons e' l ih =>
    unfold firstBroken at h
    split at h
    case isTrue =>
      obtain ⟨j, hj, hl, hb⟩ := ih (n + 1) h
      exact ⟨j + 1, by omega, by simpa using hl, hb⟩
    case isFalse hk =>
      simp only [Option.some.injEq, Prod.mk.injEq] at h
      obtain ⟨rfl, rfl⟩ := h
      exact ⟨0, rfl, rfl, fun hi => hk ((entryKeeps_iff k _ _).2 hi)⟩

/-- A state's cache invariant, as the check sees it. -/
theorem State.cacheInv_iff (s : State) : s.CacheInv ↔ firstBroken s.cfg 0 s.gpr = none := by
  rw [firstBroken_eq_none]
  simp only [State.CacheInv, Nat.zero_add, entryKeeps_iff]

/-- The check finds nothing in a state that keeps the cache invariant. -/
theorem State.checkCache_of_cacheInv {s : State} (h : s.CacheInv) : s.checkCache = s := by
  unfold State.checkCache
  rw [(State.cacheInv_iff s).1 h]
  split <;> rfl

/-- Everything the check can do: nothing, or take CacheDesync for an entry that breaks its invariant, after a command
that returned. -/
theorem State.checkCache_cases (s : State) :
    s.checkCache = s ∨
      ∃ rn e v, s.response = some (.returned v) ∧ s.gpr[rn]? = some e ∧ ¬ EntryInv s.cfg rn e ∧
        s.checkCache = s.takeFault (.cacheDesync rn s.cfg.fmt e) := by
  unfold State.checkCache
  split
  case h_1 v hv =>
    split
    case h_1 rn e hb =>
      obtain ⟨j, hj, hl, hi⟩ := firstBroken_spec _ _ _ _ _ hb
      obtain rfl : rn = j := by omega
      exact .inr ⟨rn, e, v, hv, hl, hi, rfl⟩
    case h_2 => exact .inl rfl
  case h_2 => exact .inl rfl

/-- The check leaves the configuration, the cache and the port as they are. -/
theorem State.checkCache_frame (s : State) :
    ∃ m r, s.checkCache = { s with mark := m, response := r } := by
  obtain h | ⟨rn, e, v, -, -, -, h⟩ := s.checkCache_cases <;> rw [h]
  · exact ⟨s.mark, s.response, rfl⟩
  · exact ⟨_, _, rfl⟩

/-! ## The command port -/

/-- An empty port gives no command. -/
theorem State.takeCommand_of_nil {s : State} (h : s.pending = []) : s.takeCommand = none := by
  simp [State.takeCommand, h]

/-- The command at the head of the port is taken, its operands beside it. -/
theorem State.takeCommand_of_cons {s : State} {cmd : Command s.cfg.fmt} {rest : List (Command s.cfg.fmt)}
    (h : s.pending = cmd :: rest) :
    s.takeCommand = some (cmd.word, s.running cmd rest) := by
  simp [State.takeCommand, h]

/-! ## One step -/

/-- Everything a step can do: wait, return the marked fault, refuse a word, or execute a command and check the cache. -/
theorem step_cases (s : State) :
    (s.pending = [] ∧ step s = .next s) ∨
    ∃ cmd rest, s.pending = cmd :: rest ∧
      ((∃ x, s.mark = some x ∧ step s = .fault x) ∨
        (s.mark = none ∧
          ((∃ r, decode cmd.word = .error r ∧
              step s = .next ((s.running cmd rest).refuse (rejection cmd.word r))) ∨
            ∃ i, decode cmd.word = .ok i ∧ step s = afterCommand (exec i (s.running cmd rest))))) := by
  unfold step runNext
  cases hp : s.pending with
  | nil => exact .inl ⟨rfl, by simp [State.takeCommand_of_nil hp]⟩
  | cons cmd rest =>
    refine .inr ⟨cmd, rest, rfl, ?_⟩
    rw [State.takeCommand_of_cons hp]
    cases hm : s.mark with
    | some x => exact .inl ⟨x, rfl, rfl⟩
    | none =>
      refine .inr ⟨rfl, ?_⟩
      simp only [runWord]
      cases hd : decode cmd.word with
      | error r => exact .inl ⟨r, rfl, rfl⟩
      | ok i => exact .inr ⟨i, rfl, rfl⟩

end Sys2Proof.Machine
end

