-- ==== Sys2Proof/Laws/Exec.lean ====
section
/-! SUPPORT. What executing a command can do, said once for all commands: the inversion lemma of exec. -/

namespace Sys2Proof.Machine

/-- The two reads of a slot find nothing only in a FullyDecompressed entry whose slot is Poison. -/
theorem Entry.archVal?_eq_none (k : Config) (e : Entry k.fmt) :
    e.archVal? k = none ↔ e.state = .fullyDecompressed ∧ e.slot = .poison := by
  obtain ⟨p, a, st, sl⟩ := e
  cases st <;> cases sl <;> simp [Entry.archVal?]

/-- Reading the raw tag finds nothing in the same entries. -/
theorem Entry.rawTag?_eq_none {f : Fmt} (e : Entry f) :
    e.rawTag? = none ↔ e.state = .fullyDecompressed ∧ e.slot = .poison := by
  obtain ⟨p, a, st, sl⟩ := e
  cases st <;> cases sl <;> simp [Entry.rawTag?]

/-- The entries the register writes leave keep I1 to I3. -/
theorem entryOfCap_consistent (k : Config) (c : Cap k.fmt) : (entryOfCap c).consistent k = true := by
  simp [entryOfCap, Entry.consistent]

theorem entryOfInt_consistent (k : Config) (v : BitVec k.fmt.aw) : (entryOfInt k v).consistent k = true := by
  simp [entryOfInt, Entry.consistent]

theorem entryOfRaw_consistent (k : Config) (p a : BitVec k.fmt.aw) (t : Bool) :
    (entryOfRaw p a t).consistent k = true := by
  cases t <;> simp [entryOfRaw, Entry.consistent]

/-- A command with an index below NUM_GPR: an answer, a promotion, a register write or PoisonRead. -/
def RegisterOutcome (s : State) (rn : Nat) (e : Entry s.cfg.fmt) (o : Host.Outcome State Fault Refusal) : Prop :=
  (∃ v, o = .next (s.answer v)) ∨
    (∃ c, e.archVal? s.cfg = some c ∧ o = .next (s.commit (s.gpr.set rn (e.promoted c)) (.cap c))) ∨
    (∃ w : Entry s.cfg.fmt, w.consistent s.cfg = true ∧ o = .next (s.commit (written s.gpr rn w) .unit)) ∨
    (e.state = .fullyDecompressed ∧ e.slot = .poison ∧ o = .next (s.takeFault (.poisonRead rn)))

/-- Everything a command that names a register can do with an index below NUM_GPR. -/
theorem exec_register_cases {i : Instr} {s : State} {rn : Nat} {e : Entry s.cfg.fmt} (hi : i.rn? = some rn)
    (he : s.gpr[rn]? = some e) : RegisterOutcome s rn e (exec i s) := by
  cases i <;> simp only [Instr.rn?, reduceCtorEq, Option.some.injEq] at hi <;> subst hi <;>
    simp only [exec, execRegRead, execRegWrite, execRegWriteInt, execRegWriteRaw, execRegReadCursor, execRegReadRaw,
      State.withRegister_of_some he]
  case regRead =>
    cases h : e.archVal? s.cfg with
    | some c => exact .inr (.inl ⟨c, h, rfl⟩)
    | none => obtain ⟨h1, h2⟩ := (Entry.archVal?_eq_none _ e).1 h; exact .inr (.inr (.inr ⟨h1, h2, rfl⟩))
  case regReadRaw =>
    cases h : e.rawTag? with
    | some t => exact .inl ⟨_, rfl⟩
    | none => obtain ⟨h1, h2⟩ := (Entry.rawTag?_eq_none e).1 h; exact .inr (.inr (.inr ⟨h1, h2, rfl⟩))
  case regReadCursor => exact .inl ⟨_, rfl⟩
  case regWrite => exact .inr (.inr (.inl ⟨_, entryOfCap_consistent _ _, rfl⟩))
  case regWriteInt => exact .inr (.inr (.inl ⟨_, entryOfInt_consistent _ _, rfl⟩))
  case regWriteRaw => exact .inr (.inr (.inl ⟨_, entryOfRaw_consistent _ _ _ _, rfl⟩))

/-- A command that names a register at or above NUM_GPR is refused (43_regcache.md R191). -/
theorem exec_register_refused {i : Instr} {s : State} {rn : Nat} (hi : i.rn? = some rn) (h : s.numGpr ≤ rn) :
    exec i s = .next (s.refuse (.badRegister (recordedWord i))) := by
  cases i <;> simp only [Instr.rn?, reduceCtorEq, Option.some.injEq] at hi <;> subst hi <;>
    simp only [exec, execRegRead, execRegWrite, execRegWriteInt, execRegWriteRaw, execRegReadCursor, execRegReadRaw,
      State.withRegister_of_none h]

/-- Everything executing a command can do. -/
theorem exec_cases (i : Instr) (s : State) :
    (i.isCodec = true ∧ ((∃ v, exec i s = .next (s.answer v)) ∨ ∃ r, exec i s = .next (s.refuse r))) ∨
      (∃ rn, i.rn? = some rn ∧
        ((s.numGpr ≤ rn ∧ exec i s = .next (s.refuse (.badRegister (recordedWord i)))) ∨
          ∃ e, s.gpr[rn]? = some e ∧ RegisterOutcome s rn e (exec i s))) ∨
      (i = .regReset ∧ exec i s = .next (s.commit (resetFile s.cfg s.numGpr) .unit)) := by
  by_cases hr : ∃ rn, i.rn? = some rn
  · obtain ⟨rn, hr⟩ := hr
    refine .inr (.inl ⟨rn, hr, ?_⟩)
    by_cases h : s.numGpr ≤ rn
    · exact .inl ⟨h, exec_register_refused hr h⟩
    · have he := List.getElem?_eq_getElem (Nat.lt_of_not_le h)
      exact .inr ⟨_, he, exec_register_cases hr he⟩
  · cases i
    case regReset => exact .inr (.inr ⟨rfl, rfl⟩)
    case setSealed =>
      refine .inl ⟨rfl, ?_⟩
      by_cases h : s.operands.ot = s.cfg.otypeSentry
      · exact .inl ⟨_, congrArg (fun r => Host.Outcome.next (s.deliver r)) (if_pos h)⟩
      · exact .inr ⟨_, congrArg (fun r => Host.Outcome.next (s.deliver r)) (if_neg h)⟩
    all_goals first
      | exact absurd ⟨_, rfl⟩ hr
      | exact .inl ⟨rfl, .inl ⟨_, rfl⟩⟩

end Sys2Proof.Machine
end

