-- ==== Sys2Proof/Laws/PerInstr.lean ====
section
/-! SUPPORT. Per-command laws of the command word (30_encoding.md R74 to R76): the encoder's word decodes back. -/

namespace Sys2Proof.Laws

/-- The opcode of an assembled word is read back (30_encoding.md R74). -/
theorem wordOpcode_ofNat {op rn : Nat} (ho : op < 256) :
    wordOpcode (BitVec.ofNat 32 (op + 2 ^ 8 * rn)) = op := by
  simp only [wordOpcode, BitVec.toNat_ofNat]; omega

/-- The register index of an assembled word is read back (30_encoding.md R74). -/
theorem wordRn_ofNat {op rn : Nat} (ho : op < 256) (hr : rn < 256) :
    wordRn (BitVec.ofNat 32 (op + 2 ^ 8 * rn)) = rn := by
  simp only [wordRn, BitVec.toNat_ofNat]; omega

/-- Bits [31:16] of an assembled word are zero (30_encoding.md R74). -/
theorem wordHigh_ofNat {op rn : Nat} (ho : op < 256) (hr : rn < 256) :
    wordHigh (BitVec.ofNat 32 (op + 2 ^ 8 * rn)) = 0 := by
  simp only [wordHigh, BitVec.toNat_ofNat]; omega

/-- Every opcode fits its eight bits (30_encoding.md R75). -/
theorem opcodeOf_lt (i : Instr) : opcodeOf i < 256 := by cases i <;> simp [opcodeOf]

/-- The encoder's word of a well-formed command decodes by its opcode alone (30_encoding.md R74). -/
theorem decode_encode_of_form {i : Instr} (hi : i.WellFormed) :
    decode (encode i) = match formOf (opcodeOf i) with
      | none => .error .unknownOpcode
      | some (.plain j) => if i.rn?.getD 0 = 0 then .ok j else .error .reservedBits
      | some (.reg mk) => .ok (mk (i.rn?.getD 0)) := by
  have hr : i.rn?.getD 0 < 256 := by
    unfold Instr.WellFormed Instr.wellFormed at hi
    split at hi <;> simp_all
  have ho := opcodeOf_lt i
  unfold decode encode
  rw [wordOpcode_ofNat ho, wordHigh_ofNat ho hr, wordRn_ofNat ho hr]
  cases formOf (opcodeOf i) with
  | none => rfl
  | some x => cases x <;> simp

namespace EncodeDecode

/-- A well-formed command's word decodes to it. -/
def Statement (i : Instr) : Prop := i.WellFormed → decode (encode i) = .ok i

theorem permEncode : Statement .permEncode := fun h => decode_encode_of_form h

theorem permDecode : Statement .permDecode := fun h => decode_encode_of_form h

theorem permFixup : Statement .permFixup := fun h => decode_encode_of_form h

theorem capHasPerms : Statement .capHasPerms := fun h => decode_encode_of_form h

theorem boundsDecode : Statement .boundsDecode := fun h => decode_encode_of_form h

theorem boundsEncode : Statement .boundsEncode := fun h => decode_encode_of_form h

theorem setBounds : Statement .setBounds := fun h => decode_encode_of_form h

theorem isRepresentableWithAddr : Statement .isRepresentableWithAddr := fun h => decode_encode_of_form h

theorem markUnrepresentable : Statement .markUnrepresentable := fun h => decode_encode_of_form h

theorem compress : Statement .compress := fun h => decode_encode_of_form h

theorem decompress : Statement .decompress := fun h => decode_encode_of_form h

theorem makeNullDerived : Statement .makeNullDerived := fun h => decode_encode_of_form h

theorem makeMaxPermsCap : Statement .makeMaxPermsCap := fun h => decode_encode_of_form h

theorem roundtripCheck : Statement .roundtripCheck := fun h => decode_encode_of_form h

theorem getBase : Statement .getBase := fun h => decode_encode_of_form h

theorem getTop : Statement .getTop := fun h => decode_encode_of_form h

theorem getTopFull : Statement .getTopFull := fun h => decode_encode_of_form h

theorem getLength : Statement .getLength := fun h => decode_encode_of_form h

theorem getLengthFull : Statement .getLengthFull := fun h => decode_encode_of_form h

theorem getOffset : Statement .getOffset := fun h => decode_encode_of_form h

theorem getPerms : Statement .getPerms := fun h => decode_encode_of_form h

theorem getUperms : Statement .getUperms := fun h => decode_encode_of_form h

theorem isInBounds : Statement .isInBounds := fun h => decode_encode_of_form h

theorem isRepresentable : Statement .isRepresentable := fun h => decode_encode_of_form h

theorem isSealed : Statement .isSealed := fun h => decode_encode_of_form h

theorem isUnsealed : Statement .isUnsealed := fun h => decode_encode_of_form h

theorem isSealedEntry : Statement .isSealedEntry := fun h => decode_encode_of_form h

theorem setSealed : Statement .setSealed := fun h => decode_encode_of_form h

theorem setUnsealed : Statement .setUnsealed := fun h => decode_encode_of_form h

theorem setCursor : Statement .setCursor := fun h => decode_encode_of_form h

theorem setPerms : Statement .setPerms := fun h => decode_encode_of_form h

theorem regRead (rn : Nat) : Statement (.regRead rn) := fun h => decode_encode_of_form h

theorem regWrite (rn : Nat) : Statement (.regWrite rn) := fun h => decode_encode_of_form h

theorem regWriteInt (rn : Nat) : Statement (.regWriteInt rn) := fun h => decode_encode_of_form h

theorem regWriteRaw (rn : Nat) : Statement (.regWriteRaw rn) := fun h => decode_encode_of_form h

theorem regReadCursor (rn : Nat) : Statement (.regReadCursor rn) := fun h => decode_encode_of_form h

theorem regReadRaw (rn : Nat) : Statement (.regReadRaw rn) := fun h => decode_encode_of_form h

theorem regReset : Statement .regReset := fun h => decode_encode_of_form h

end EncodeDecode

end Sys2Proof.Laws
end

