-- ==== Sys2Proof/Tests/Slice0.lean ====
section
/-! SUPPORT. Tests of the model on the vectors of spec/95_test_vectors.md (each test names its vector), one step or one
meaning each; decoding of words written out from 30_encoding.md R75; the WellFormed smoke test. -/

namespace Sys2Proof.Tests

open Machine

/-! ## Small states -/

/-- Used and Unused entries of a C64R table that meets 40_permissions.md R91: the pinned entries, the eight Q1 entries,
one Q3 entry. -/
def someEntries : Vector ApEntry 32 := #v[
  .used .empty false, .used (.ofList [.r]) false, .unused, .unused,
  .used (.ofList [.w]) false, .used (.ofList [.r, .w]) false, .unused, .unused,
  .used (.ofList [.x, .r, .w, .c, .lm]) false, .used (.ofList [.x, .r, .w, .c, .lm]) true,
  .used (.ofList [.x, .r, .w, .c]) false, .used (.ofList [.x, .r, .w, .c]) true,
  .used (.ofList [.x, .r, .w]) false, .used (.ofList [.x, .r, .w]) true,
  .used (.ofList [.x, .r]) false, .used (.ofList [.x, .r]) true,
  .unused, .unused, .unused, .unused, .unused, .unused, .unused, .unused,
  .used (.ofList [.r, .c]) false, .unused, .unused, .unused, .unused, .unused, .unused, .unused]

/-- Fifteen rules: F1 to F3 and twelve that never clear anything (95_test_vectors.md section 5: "with only the pinned
rules F1 to F3 in force"). -/
def someRules : List FixupRule :=
  [.f1, .f2, .f3] ++ List.replicate 12 (FixupRule.everywhere .m .always)

/-- A configuration; its C64R layout, null word and tables meet the constraints of 70_reset_and_hazards.md R232. -/
def someConfig (f : Fmt) : Config where
  fmt := f
  lvb := false
  apTable := ⟨someEntries, someEntries⟩
  full1 := .ofList [.x, .r, .w, .c, .asr, .el, .sl]
  fallbackM := true
  ap128Map := ⟨3, 0, 1, 2, 4, 5⟩
  mPos128 := 51
  layout64 := ⟨0, 17, 10, 11, 25⟩
  nullPesbt64 := 0x1000
  maxAp64 := 8
  fixupRules := someRules
  maxOtype := 7
  legacy := ⟨.always, .m, .has .x, .neg .m, .both .m .always, .either .m .always⟩
  imageOrder := .little

/-- A power-on state of a C128R instance with 32 registers whose port holds some operands. -/
def st (o : Operands .c128r) : State :=
  { cfg := someConfig .c128r, gpr := resetFile (someConfig .c128r) 32, mark := none, pending := [], operands := o,
    response := none }

/-- A power-on state of a C64R instance with 16 registers whose port holds some operands. -/
def st64 (o : Operands .c64r) : State :=
  { cfg := someConfig .c64r, gpr := resetFile (someConfig .c64r) 16, mark := none, pending := [], operands := o,
    response := none }

/-- st with one entry replaced. -/
def stWith (o : Operands .c128r) (rn : Nat) (e : Entry .c128r) : State :=
  { st o with gpr := (resetFile (someConfig .c128r) 32).set rn e }

/-- Operands of a C128R command, all zero until given. -/
def z : Operands .c128r := Operands.zero .c128r

/-- Operands of a C64R command, all zero until given. -/
def z64 : Operands .c64r := Operands.zero .c64r

/-- The outcome is a next state that delivers r. -/
def deliversAt (f : Fmt) (o : Host.Outcome State Fault Refusal) (r : Response f) : Bool :=
  match o with
  | .next t => if h : f = t.cfg.fmt then decide (t.response = some (h ▸ r)) else false
  | _ => false

/-- The outcome of a C128R command is a next state that delivers r. -/
def delivers (o : Host.Outcome State Fault Refusal) (r : Response .c128r) : Bool := deliversAt .c128r o r

/-- The outcome of a C128R command is a next state that returns v. -/
def returns (o : Host.Outcome State Fault Refusal) (v : Value .c128r) : Bool := delivers o (.returned v)

/-- The outcome of a C64R command is a next state that returns v. -/
def returns64 (o : Host.Outcome State Fault Refusal) (v : Value .c64r) : Bool := deliversAt .c64r o (.returned v)

/-- The outcome of a C128R command is a next state in which entry rn is e. -/
def leaves (o : Host.Outcome State Fault Refusal) (rn : Nat) (e : Entry .c128r) : Bool :=
  match o with
  | .next t => if h : Fmt.c128r = t.cfg.fmt then decide (t.gpr[rn]? = some (h ▸ e)) else false
  | _ => false

/-- V2's capability (95_test_vectors.md section 4, c2). -/
def c2 : Cap .c128r := ⟨0x1e3f00001334105#64, 0x41DF#64, true⟩

/-- MAKE_NULL_DERIVED 0x1234 (95_test_vectors.md section 4, n). -/
def n : Cap .c128r := ⟨0#64, 0x1234#64, false⟩

/-- 95_test_vectors.md section 4, e. -/
def e : Cap .c128r := ⟨0x1e3f0000001B004#64, 0xFFFFFFFFFFFFF800#64, true⟩

/-- 95_test_vectors.md section 4, h (V22). -/
def h : Cap .c128r := ⟨0x6420A1#64, 0x500000000000000#64, false⟩

/-- All six C128R permissions. -/
def six : PermSet := .ofList [.x, .r, .w, .c, .lm, .asr]

/-! ## Decoding (30_encoding.md R74 to R76) -/

theorem test_decode_permission_words :
    [0x01#32, 0x02#32, 0x03#32, 0x04#32].map (fun w => (decode w).toOption) =
      [some .permEncode, some .permDecode, some .permFixup, some .capHasPerms] := by decide

theorem test_decode_bounds_words :
    [0x10#32, 0x11#32, 0x12#32, 0x13#32, 0x14#32].map (fun w => (decode w).toOption) =
      [some .boundsDecode, some .boundsEncode, some .setBounds, some .isRepresentableWithAddr,
        some .markUnrepresentable] := by decide

theorem test_decode_value_words :
    [0x20#32, 0x21#32, 0x22#32, 0x23#32, 0x24#32, 0x50#32, 0x51#32, 0x52#32, 0x53#32].map (fun w => (decode w).toOption) =
      [some .compress, some .decompress, some .makeNullDerived, some .makeMaxPermsCap, some .roundtripCheck,
        some .setSealed, some .setUnsealed, some .setCursor, some .setPerms] := by decide

theorem test_decode_accessor_words :
    [0x30#32, 0x31#32, 0x32#32, 0x33#32, 0x34#32, 0x35#32, 0x36#32, 0x37#32].map (fun w => (decode w).toOption) =
      [some .getBase, some .getTop, some .getTopFull, some .getLength, some .getLengthFull, some .getOffset,
        some .getPerms, some .getUperms] := by decide

theorem test_decode_predicate_words :
    [0x40#32, 0x41#32, 0x42#32, 0x43#32, 0x44#32].map (fun w => (decode w).toOption) =
      [some .isInBounds, some .isRepresentable, some .isSealed, some .isUnsealed, some .isSealedEntry] := by decide

/-- Words of 95_test_vectors.md section 6 and P1, P2; opcode in the low byte, rn in the next. -/
theorem test_decode_register_words :
    [0x00000960#32, 0x00000061#32, 0x00000362#32, 0x00000763#32, 0x00000364#32, 0x00000765#32, 0x00000066#32].map
        (fun w => (decode w).toOption) =
      [some (.regRead 9), some (.regWrite 0), some (.regWriteInt 3), some (.regWriteRaw 7), some (.regReadCursor 3),
        some (.regReadRaw 7), some .regReset] := by decide

/-- 95_test_vectors.md section 6, rows 14 and 15, and the words R76 names. -/
theorem test_decode_rejects_by_name :
    [decode 0x120#32, decode 0xFF#32, decode 0x10001#32, decode 0x10060#32, decode 0x166#32, decode 0x100FF#32] =
      [.error .reservedBits, .error .unknownOpcode, .error .reservedBits, .error .reservedBits, .error .reservedBits,
        .error .unknownOpcode] := by decide

theorem test_encode_register_words :
    [encode (.regRead 9), encode (.regWriteRaw 255), encode .setCursor] = [0x960#32, 0xFF63#32, 0x52#32] := by decide

/-- The one check of WellFormed refuses an index that has no eight-bit field, and admits the largest that has. -/
theorem test_wellFormed_smoke :
    (Instr.regWrite 256).wellFormed = false ∧ (Instr.regWrite 255).wellFormed = true ∧ Instr.regReset.wellFormed = true := by
  decide

/-- The mnemonic 30_encoding.md R75 gives opcode 0x13. -/
theorem test_mnemonic : (decode 0x13#32).toOption.map Instr.mnemonic = some "IS_REPRESENTABLE_WITH_ADDR" := by decide

/-! ## Permission codec (95_test_vectors.md section 5) -/

theorem test_permEncode_c64r_pinned :
    (returns64 (exec .permEncode (st64 { z64 with set := .ofList [.r, .w] })) (.code 5#5) &&
      returns64 (exec .permEncode (st64 { z64 with set := .ofList [.c] })) (.code 0#5)) = true := by decide

theorem test_permEncode_c128r :
    (returns (exec .permEncode (st { z with set := six, m := true })) (.code 0x7F#7) &&
      returns (exec .permEncode (st { z with set := .ofList [.el], lvb := true })) (.code 0#7)) = true := by decide

theorem test_permDecode_c64r_fallbacks :
    (returns64 (exec .permDecode (st64 { z64 with code := 6#5 })) (.perms .empty true) &&
      returns64 (exec .permDecode (st64 { z64 with code := 0x19#5 })) (.perms (.ofList [.x, .r, .w, .c, .asr]) true)) = true := by
  decide

theorem test_permDecode_c128r :
    returns (exec .permDecode (st { z with code := 0x3F#7 })) (.perms six false) = true := by decide

theorem test_permFixup_clears_c_and_m :
    returns (exec .permFixup (st { z with m := true, set := .ofList [.c] })) (.fixup false .empty true) = true := by decide

theorem test_permFixup_unchanged :
    returns64 (exec .permFixup (st64 { z64 with set := .ofList [.w, .c] })) (.fixup false (.ofList [.w, .c]) false) = true := by
  decide

theorem test_capHasPerms_all :
    returns (exec .capHasPerms (st { z with c := c2, req := .ofList [.x, .r] })) (.bool true) = true := by decide

theorem test_capHasPerms_null :
    returns (exec .capHasPerms (st { z with c := n, req := .ofList [.r] })) (.bool false) = true := by decide

/-! ## Bounds codec (95_test_vectors.md sections 1 to 3) -/

/-- V2: the decode relative to a cursor below the base. -/
theorem test_boundsDecode_below_base :
    returns (exec .boundsDecode (st { z with p := 0x1334105#64, a := 0x41DF#64 }))
      (.bounds ⟨0x8000#64, 0xA6400#65, true⟩) = true := by decide

/-- V14a: the top correction clears bit 64. -/
theorem test_boundsDecode_top_correction :
    returns (exec .boundsDecode (st { z with p := 0x4080000#64, a := 0xFFFFFFFFFFFFF000#64 }))
      (.bounds ⟨0#64, 0x20#65, true⟩) = true := by decide

/-- V8: rounding the top up overflows the mantissa. -/
theorem test_boundsEncode_increases_exponent :
    returns (exec .boundsEncode (st { z with b := 0#64, t := 0x3FFF#65 }))
      (.encoded ⟨false, 50#6, 6#12, 2#14, false, 0#64, 0x4000#65, 2⟩) = true := by decide

/-- V9e: the EF = 1 form with an unaligned base. -/
theorem test_boundsEncode_exact :
    returns (exec .boundsEncode (st { z with b := 0x1001#64, t := 0x2000#65 }))
      (.encoded ⟨true, 0#6, 0#12, 0x1001#14, true, 0x1001#64, 0x2000#65, 0⟩) = true := by decide

/-- V23a. -/
theorem test_setBounds_rounds :
    returns (exec .setBounds (st { z with c := ⟨0x1e3f00000000000#64, 0x12345#64, true⟩, rb := 0x12345#64, rt := 0x23456#65 }))
      (.capExact ⟨0x1e3f00000D39230#64, 0x12345#64, true⟩ false) = true := by decide

/-- V3. -/
theorem test_setBounds_exact :
    returns (exec .setBounds (st { z with c := ⟨0x1e3f00000000000#64, 0x160600000#64, true⟩, rb := 0x160600000#64, rt := 0x160900000#65 })) (.capExact ⟨0x1e3f00002017003#64, 0x160600000#64, true⟩ true) = true := by decide

/-- V15: the last address of the window. -/
theorem test_isRepresentableWithAddr_inside :
    returns (exec .isRepresentableWithAddr (st { z with c := c2, a := 0x187FFF#64 })) (.bool true) = true := by decide

/-- V15: the first address past the window. -/
theorem test_isRepresentableWithAddr_outside :
    returns (exec .isRepresentableWithAddr (st { z with c := c2, a := 0x188000#64 })) (.bool false) = true := by decide

/-- V16. -/
theorem test_markUnrepresentable :
    returns (exec .markUnrepresentable (st { z with c := c2, a := 0x200000#64 }))
      (.cap ⟨0x1e3f00001334105#64, 0x200000#64, false⟩) = true := by decide

/-! ## Capability values (95_test_vectors.md section 4) -/

theorem test_compress : returns (exec .compress (st { z with c := e })) (.word 0x1e3f0000001B004#64) = true := by decide

theorem test_decompress :
    returns (exec .decompress (st { z with p := 0x1334105#64, a := 0x41DF#64, tag := true }))
      (.cap ⟨0x1334105#64, 0x41DF#64, true⟩) = true := by decide

theorem test_makeNullDerived :
    returns (exec .makeNullDerived (st { z with v := 0x1234#64 })) (.cap n) = true := by decide

/-- V2. -/
theorem test_makeMaxPermsCap_c128r :
    returns (exec .makeMaxPermsCap (st { z with b := 0x8000#64, a := 0x41DF#64, t := 0xA6400#65 })) (.cap c2) = true := by
  decide

/-- V5. -/
theorem test_makeMaxPermsCap_c64r :
    returns64 (exec .makeMaxPermsCap (st64 { z64 with b := 0#32, a := 0x1000#32, t := 0x8000#33 }))
      (.cap ⟨0xD0040001#32, 0x1000#32, true⟩) = true := by decide

/-- V30, first row. -/
theorem test_roundtripCheck_equal :
    returns (exec .roundtripCheck (st { z with p := 0x1e3f00001334105#64, a := 0x41DF#64 }))
      (.roundTrip ⟨0x8000#64, 0x41DF#64, 0xA6400#65, 0x9E400#65, false, 0#64, true, 0x1e3f00001334105#64, true⟩) = true := by
  decide

/-- V31: a zero length re-encodes with EF = 1. -/
theorem test_roundtripCheck_lossy :
    returns (exec .roundtripCheck (st { z with p := 0x1A1068#64, a := 0x680000000000000#64 }))
      (.roundTrip ⟨0x680000000000000#64, 0x680000000000000#64, 0x680000000000000#65, 0#65, false, 0#64, true, 0x4000000#64,
        false⟩) = true := by decide

theorem test_getBase : returns (exec .getBase (st { z with c := e })) (.word 0xFFFFFFFFFFFFF000#64) = true := by decide

theorem test_getTop_saturates :
    returns (exec .getTop (st { z with c := e })) (.word 0xFFFFFFFFFFFFFFFF#64) = true := by decide

/-- V22: a top above 2^64. -/
theorem test_getTopFull_unsaturated :
    returns (exec .getTopFull (st { z with c := h })) (.wide 0x18C80000000000000#65) = true := by decide

theorem test_getLength_saturates :
    returns (exec .getLength (st { z with c := n })) (.word 0xFFFFFFFFFFFFFFFF#64) = true := by decide

theorem test_getLength_plain : returns (exec .getLength (st { z with c := c2 })) (.word 0x9E400#64) = true := by decide

theorem test_getLengthFull : returns (exec .getLengthFull (st { z with c := n })) (.wide 0x10000000000000000#65) = true := by
  decide

theorem test_getOffset_wraps :
    returns (exec .getOffset (st { z with c := c2 })) (.word 0xFFFFFFFFFFFFC1DF#64) = true := by decide

theorem test_getPerms : returns (exec .getPerms (st { z with c := c2 })) (.perms six false) = true := by decide

theorem test_getUperms : returns (exec .getUperms (st { z with c := c2 })) (.uperms 0xF#4) = true := by decide

theorem test_isInBounds_end_of_space :
    returns (exec .isInBounds (st { z with c := e, a := 0xFFFFFFFFFFFFFFF8#64, n := 8#65 })) (.bool true) = true := by decide

theorem test_isInBounds_past_end :
    returns (exec .isInBounds (st { z with c := e, a := 0xFFFFFFFFFFFFFFF8#64, n := 9#65 })) (.bool false) = true := by
  decide

theorem test_isRepresentable : returns (exec .isRepresentable (st { z with c := c2 })) (.bool true) = true := by decide

theorem test_isSealed_after_seal :
    returns (exec .isSealed (st { z with c := ⟨0x1e3f00009334105#64, 0x41DF#64, true⟩ })) (.bool true) = true := by decide

theorem test_isUnsealed : returns (exec .isUnsealed (st { z with c := c2 })) (.bool true) = true := by decide

theorem test_isSealedEntry :
    (returns (exec .isSealedEntry (st { z with c := c2 })) (.bool false) &&
      returns (exec .isSealedEntry (st { z with c := ⟨0x9334105#64, 0x41DF#64, true⟩ })) (.bool true)) = true := by decide

/-- R158's example; OTYPE_SENTRY of someConfig is 7 - 1. -/
theorem test_setSealed_sentry :
    returns (exec .setSealed (st { z with c := c2, ot := 6 })) (.cap ⟨0x1e3f00009334105#64, 0x41DF#64, true⟩) = true := by
  decide

theorem test_setSealed_refused :
    delivers (exec .setSealed (st { z with c := c2, ot := 7 })) (.refused (.unsupportedOtype 0x50#32 7)) = true := by
  decide

theorem test_setUnsealed :
    returns (exec .setUnsealed (st { z with c := ⟨0x1e3f00009334105#64, 0x41DF#64, true⟩ })) (.cap c2) = true := by decide

theorem test_setCursor_keeps_tag :
    returns (exec .setCursor (st { z with c := c2, a := 0x187FFF#64 })) (.cap ⟨0x1e3f00001334105#64, 0x187FFF#64, true⟩) = true := by
  decide

theorem test_setCursor_clears_tag :
    returns (exec .setCursor (st { z with c := c2, a := 0x188000#64 })) (.cap ⟨0x1e3f00001334105#64, 0x188000#64, false⟩) = true := by
  decide

theorem test_setPerms_none :
    returns (exec .setPerms (st { z with c := c2 })) (.cap ⟨0x1334105#64, 0x41DF#64, true⟩) = true := by decide

theorem test_setPerms_full :
    returns (exec .setPerms (st { z with c := c2, s := six, u := 0xF#4 })) (.cap c2) = true := by decide

/-- P1's memory image of {0x1e3f00002017003, 0x160800000}. -/
theorem test_image_little_endian :
    Cap.image (someConfig .c128r) ⟨0x1e3f00002017003#64, 0x160800000#64, true⟩ =
      [0x00, 0x00, 0x80, 0x60, 0x01, 0x00, 0x00, 0x00, 0x03, 0x70, 0x01, 0x02, 0x00, 0xf0, 0xe3, 0x01] := by decide

/-! ## Register cache (95_test_vectors.md section 6) -/

/-- Row 2: an Integer entry is promoted to the null-derived capability. -/
theorem test_regRead_promotes :
    (returns (exec (.regRead 9) (st z)) (.cap ⟨0#64, 0#64, false⟩) &&
      leaves (exec (.regRead 9) (st z)) 9 ⟨0#64, 0#64, .fullyDecompressed, .cap ⟨0#64, 0#64, false⟩⟩) = true := by decide

/-- Row 13. -/
theorem test_regRead_bad_register :
    delivers (exec (.regRead 32) (st z)) (.refused (.badRegister 0x2060#32)) = true := by decide

theorem test_regWrite_x5 :
    leaves (exec (.regWrite 5) (st { z with c := c2 })) 5 ⟨0x1e3f00001334105#64, 0x41DF#64, .fullyDecompressed, .cap c2⟩ = true := by
  decide

/-- Row 11. -/
theorem test_regWrite_x0_is_noop :
    leaves (exec (.regWrite 0) (st { z with c := c2 })) 0 (zeroEntry (someConfig .c128r)) = true := by decide

/-- Row 3. -/
theorem test_regWriteInt :
    leaves (exec (.regWriteInt 3) (st { z with v := 0x1234#64 })) 3 ⟨0#64, 0x1234#64, .integer, .poison⟩ = true := by
  decide

/-- Row 6. -/
theorem test_regWriteRaw :
    leaves (exec (.regWriteRaw 7) (st { z with p := 0x1334105#64, a := 0x41DF#64, tag := true })) 7
      ⟨0x1334105#64, 0x41DF#64, .taggedCap, .poison⟩ = true := by decide

/-- Row 4, from a state whose x3 holds an integer. -/
theorem test_regReadCursor :
    returns (exec (.regReadCursor 3) (stWith z 3 ⟨0#64, 0x1234#64, .integer, .poison⟩)) (.word 0x1234#64) = true := by
  decide

/-- Row 7, from a state whose x7 was written raw. -/
theorem test_regReadRaw :
    returns (exec (.regReadRaw 7) (stWith z 7 ⟨0x1334105#64, 0x41DF#64, .taggedCap, .poison⟩))
      (.raw 0x1334105#64 0x41DF#64 true) = true := by decide

/-- Row 1, from a state with a written register. -/
theorem test_regReset :
    leaves (exec .regReset (stWith z 9 (entryOfCap c2))) 9 ⟨0#64, 0#64, .integer, .poison⟩ = true := by
  decide

/-! ## Steps -/

/-- The command at the head of the port runs, and the word of an unknown opcode is refused. -/
theorem test_step_runs_the_word :
    (returns (step ((st { z with c := c2 }).withFetchWord 32 0x30)) (.word 0x8000#64) &&
      delivers (step ((st z).withFetchWord 32 0xFF)) (.refused (.unknownOpcode 0xFF#32))) = true := by decide

/-- A cache that breaks I2 is caught after a command that does not touch it (43_regcache.md R199), and the mark then
holds every later command back (60_exceptions.md R216). -/
theorem test_step_cacheDesync_then_stuck :
    (match step ((stWith z 4 ⟨1#64, 0#64, .integer, .poison⟩).withFetchWord 32 0x30) with
      | .next t =>
        decide (t.mark = some (.cacheDesync 4 .c128r ⟨1#64, 0#64, .integer, .poison⟩)) &&
          (match step (t.withFetchWord 32 0x66) with
            | .fault x => decide (x = .cacheDesync 4 .c128r ⟨1#64, 0#64, .integer, .poison⟩)
            | _ => false)
      | _ => false) = true := by decide

/-- A Poison slot that a read would return is caught (60_exceptions.md R212). -/
theorem test_step_poisonRead :
    delivers (step ((stWith z 4 ⟨0#64, 0#64, .fullyDecompressed, .poison⟩).withFetchWord 32 0x460))
      (.faulted (.poisonRead 4)) = true := by decide

/-! ## Witnesses: states and operands that meet the hypotheses of the statements, together -/

/-- The entries of someConfig's tables, the same for both values of lvb. -/
theorem someConfig_apEntry (lvb : Bool) (i : Fin 32) : (someConfig .c64r).apEntry lvb i = someEntries[i] := by
  cases lvb <;> rfl

theorem someEntries_injective :
    ∀ i j : Fin 32, someEntries[i] ≠ .unused → someEntries[i] = someEntries[j] → i = j := by decide

theorem someEntries_used :
    ∀ i : Fin 32, (match someEntries[i] with
      | .used set m => (!m || set.x) && !set.el && !set.sl && decide (set.card ≤ 5) && (!set.c || set.r || set.w) &&
          (i.val / 8 != 3 || set.subset (.ofList [.r, .c, .w]))
      | .unused => true) = true := by decide

theorem someEntries_quadrant1 :
    ∀ i : Fin 32, i.val / 8 = 1 → (match someEntries[i] with
      | .used set _ => set.subset (.ofList [.x, .r, .w, .c, .lm])
      | .unused => false) = true := by decide

theorem someEntries_facts {i : Fin 32} {set : PermSet} {m : Bool} (h : someEntries[i] = .used set m) :
    (m = true → set.x = true) ∧ set.el = false ∧ set.sl = false ∧ set.card ≤ 5 ∧
      (set.c = true → set.r = true ∨ set.w = true) ∧
      (i.val / 8 = 3 → set.subset (.ofList [.r, .c, .w]) = true) := by
  have := someEntries_used i
  rw [h] at this
  simp only [Bool.and_eq_true, Bool.or_eq_true, Bool.not_eq_true', decide_eq_true_eq, bne_iff_ne] at this
  obtain ⟨⟨⟨⟨⟨h1, h2⟩, h3⟩, h4⟩, h6⟩, h5⟩ := this
  exact ⟨fun hm => h1.resolve_left (by simp [hm]), h2, h3, h4,
    fun hc => h6.imp_left (·.resolve_left (by simp [hc])), fun hq => h5.resolve_left (· hq)⟩

theorem someNull_boundsAt {a : Nat} (h : a < 2 ^ 32) : (boundsAt .c64r ⟨24, 0, 0, 1⟩ a).base = 0#32 := by
  have h1 : a >>> 34 = 0 := by rw [Nat.shiftRight_eq_div_pow]; omega
  have h2 : a >>> 24 % 1024 < 768 := by rw [Nat.shiftRight_eq_div_pow]; omega
  simp [boundsAt, assemble, carry, regionEdge, Fmt.mw, h1, h2]

theorem someNull_base_zero : (someConfig .c64r).NullBaseZero := by
  intro v
  have hd : (someConfig .c64r).mantissas? (someConfig .c64r).nullPesbt = some ⟨24, 0, 0, 1⟩ := by decide
  rw [decodeBounds_of_some hd]
  exact someNull_boundsAt v.isLt

/-- A C128R configuration that meets 70_reset_and_hazards.md R232. -/
theorem witness_valid_c128r : (someConfig .c128r).Valid :=
  ⟨by unfold Config.FixupOk; decide, fun _ => by unfold Config.Ap128Ok; decide,
    fun _ => by unfold Config.MPosOk; decide, nofun⟩

/-- A C64R configuration that meets 70_reset_and_hazards.md R232. -/
theorem witness_valid_c64r : (someConfig .c64r).Valid := by
  refine ⟨by unfold Config.FixupOk; decide, nofun, nofun, fun _ => ⟨?_, ?_, ?_, ?_, ?_,
    by unfold Config.LayoutOk; decide, someNull_base_zero, by decide, ?_, by unfold Config.ReproducesVector; decide⟩⟩
  · intro lvb i j set m hi hj
    rw [someConfig_apEntry] at hi hj
    exact someEntries_injective i j (by simp [hi]) (hi.trans hj.symm)
  · intro lvb i set h
    rw [someConfig_apEntry] at h
    exact (someEntries_facts h).1 rfl
  · intro lvb i set m h hc
    rw [someConfig_apEntry] at h
    exact (someEntries_facts h).2.2.2.2.1 hc
  · refine ⟨rfl, rfl, rfl, rfl, rfl, fun i hi => ?_, rfl, rfl, fun i hi set m h => ?_⟩
    · have := someEntries_quadrant1 i hi
      rw [someConfig_apEntry]
      split at this
      next set m h => exact ⟨set, m, h, this⟩
      next => cases this
    · rw [someConfig_apEntry] at h
      exact (someEntries_facts h).2.2.2.2.2 hi
  · intro i set m h
    rw [someConfig_apEntry] at h
    exact ⟨(someEntries_facts h).2.1, (someEntries_facts h).2.2.1⟩
  · refine ⟨.ofList [.x, .r, .w, .c, .lm], false, rfl, fun i set' m' h => ?_⟩
    rw [someConfig_apEntry] at h
    exact (someEntries_facts h).2.2.2.1

/-- A state whose next command is the word w. -/
def stNext (w : Nat) : State := (st z).withFetchWord 32 w

/-- st with x7 written raw (95_test_vectors.md section 6, row 6), and the same cache after a read of x7 (row 8). -/
def rawEntry : Entry .c128r := ⟨0x1334105#64, 0x41DF#64, .taggedCap, .poison⟩
def readEntry : Entry .c128r := ⟨0x1334105#64, 0x41DF#64, .fullyDecompressed, .cap ⟨0x1334105#64, 0x41DF#64, true⟩⟩

/-- An entry that breaks I2 of 43_regcache.md R199, and one whose slot a read finds poisoned. -/
def brokenEntry : Entry .c128r := ⟨1#64, 0#64, .integer, .poison⟩
def poisonedEntry : Entry .c128r := ⟨0#64, 0#64, .fullyDecompressed, .poison⟩

theorem someCache (s : State) (h : firstBroken s.cfg 0 s.gpr = none) : s.CacheInv := (State.cacheInv_iff s).2 h

theorem witness_inv (w : Nat) : (stNext w).Inv :=
  ⟨witness_valid_c128r, by show 1 ≤ (resetFile _ 32).length; simp, someCache (st z) (by decide), rfl⟩

theorem witness_DecodeOfEncode : (Instr.regWrite 255).WellFormed ∧ (Instr.regWrite 0).WellFormed ∧ Instr.setCursor.WellFormed := by
  decide

theorem witness_EncodeOfDecode : (decode 0x0000FF63#32).toOption = some (.regWriteRaw 255) := by decide

/-- One word per clause of IllegalWordsRefused, at the ends of its range, in a state with 32 registers. -/
theorem witness_IllegalWordsRefused :
    (∀ w ∈ [0x00, 0x05, 0x67, 0xFF, 0xFFFFFFFF], (stNext w).mark = none ∧ (stNext w).pending = [⟨BitVec.ofNat 32 w, z⟩] ∧
      w % 256 ∉ tableOpcodes) ∧
    (∀ w ∈ [0x00010001, 0x80000066, 0x00010060], (stNext w).pending = [⟨BitVec.ofNat 32 w, z⟩] ∧ w % 256 ∈ tableOpcodes ∧
      w / 65536 ≠ 0) ∧
    (∀ w ∈ [0x0101, 0xFF66], (stNext w).pending = [⟨BitVec.ofNat 32 w, z⟩] ∧ w % 256 ∈ tableOpcodes ∧
      w % 256 ∉ rnOpcodes ∧ w / 256 % 256 ≠ 0) ∧
    (∀ w ∈ [0x2060, 0xFF65], (stNext w).pending = [⟨BitVec.ofNat 32 w, z⟩] ∧ w % 256 ∈ rnOpcodes ∧ w / 65536 = 0 ∧
      (stNext w).numGpr ≤ w / 256 % 256) := by decide

theorem witness_StepRunsDecoded :
    (stNext 0x66).mark = none ∧ (stNext 0x66).pending = [⟨0x66#32, z⟩] ∧ (decode 0x66#32).toOption = some .regReset ∧
      exec .regReset ((stNext 0x66).running ⟨0x66#32, z⟩ []) = .next ((st z).commit (resetFile (someConfig .c128r) 32) .unit) ∧
      ((st z).commit (resetFile (someConfig .c128r) 32) .unit).CacheInv :=
  ⟨rfl, rfl, by decide, rfl, someCache _ (by decide)⟩

theorem witness_EmptyPortWaits : (st z).pending = [] := rfl

/-- A stuck instance, and REG_RESET issued to it; a command that ends in a model fault, and one that is refused. -/
theorem witness_MarkedFaultSticks :
    ((stNext 0x66).takeFault (.poisonRead 4)).mark = some (.poisonRead 4) ∧
      ((stNext 0x66).takeFault (.poisonRead 4)).pending = [⟨0x66#32, z⟩] ∧
      step ((stWith z 4 poisonedEntry).withFetchWord 32 0x460) =
        .next ((stWith z 4 poisonedEntry).takeFault (.poisonRead 4)) ∧
      step (stNext 0xFF) = .next ((st z).refuse (.unknownOpcode 0xFF#32)) := ⟨rfl, rfl, rfl, rfl⟩

theorem witness_StepKeepsInv :
    (stNext 0x66).Inv ∧ step (stNext 0x66) = .next ((st z).commit (resetFile (someConfig .c128r) 32) .unit) :=
  ⟨witness_inv _, rfl⟩

theorem witness_InvRunsWithoutFault : (stNext 0x66).Inv ∧ (stNext 0x66).pending ≠ [] := ⟨witness_inv _, by decide⟩

theorem witness_ConfigurationFixed : step (stNext 0x43) = .next ((st z).answer (.bool true)) := rfl

theorem witness_CodecCommandsPure :
    Instr.permEncode.isCodec = true ∧ Instr.setPerms.isCodec = true ∧ (Instr.regRead 0).isCodec = false := by decide

theorem witness_RefusedChangesNothing :
    exec (.regRead 32) (st z) = .next ((st z).refuse (.badRegister 0x2060#32)) ∧
      exec .setSealed (st { z with ot := 7 }) =
        .next ((st { z with ot := 7 }).refuse (.unsupportedOtype 0x50#32 7)) := ⟨rfl, rfl⟩

theorem witness_DesyncTaken :
    let s := (stWith z 4 brokenEntry).withFetchWord 32 0x43
    s.mark = none ∧ s.pending = [⟨0x43#32, z⟩] ∧ (decode 0x43#32).toOption = some .isUnsealed ∧
      exec .isUnsealed (s.running ⟨0x43#32, z⟩ []) = .next ((stWith z 4 brokenEntry).answer (.bool true)) ∧
      ¬ ((stWith z 4 brokenEntry).answer (.bool true)).CacheInv :=
  ⟨rfl, rfl, by decide, rfl, fun h => absurd ((State.cacheInv_iff _).1 h) (by decide)⟩

theorem witness_PoisonReadTaken :
    (stWith z 4 poisonedEntry).gpr[4]? = some poisonedEntry ∧ poisonedEntry.state = .fullyDecompressed ∧
      poisonedEntry.slot = .poison := by decide

/-- Both ends of the index range, below and at NUM_GPR = 32. -/
theorem witness_register_indices :
    (0 < (st z).numGpr ∧ 31 < (st z).numGpr ∧ (st z).numGpr ≤ 32) ∧ (Instr.regWrite 31).rn? = some 31 := by decide

/-- One register per entry state for RegReadPromotes. -/
theorem witness_RegReadPromotes :
    (stWith z 7 rawEntry).gpr[7]? = some rawEntry ∧ rawEntry.state = .taggedCap ∧
      (stWith z 7 readEntry).gpr[7]? = some readEntry ∧ readEntry.state = .fullyDecompressed ∧
      (stWith z 9 ⟨1#64, 2#64, .untaggedCap, .poison⟩).gpr[9]? = some ⟨1#64, 2#64, .untaggedCap, .poison⟩ ∧
      (st z).gpr[31]? = some ⟨0#64, 0#64, .integer, .poison⟩ := by decide

theorem witness_ReadsWithoutPromotion : (stWith z 7 rawEntry).CacheInv ∧ 7 < (stWith z 7 rawEntry).numGpr :=
  ⟨someCache _ (by decide), by decide⟩

theorem witness_RegisterZeroFixed : (st z).gpr[0]? = some ⟨0#64, 0#64, .fullyDecompressed, .cap ⟨0#64, 0#64, false⟩⟩ := by
  decide

/-- Two different caches with the same architectural values (95_test_vectors.md section 6, before and after row 8). -/
theorem witness_LazinessUnobservable :
    (stWith z 7 rawEntry).CacheInv ∧ (stWith z 7 readEntry).CacheInv ∧
      (stWith z 7 readEntry).archVals = (stWith z 7 rawEntry).archVals ∧ stWith z 7 readEntry ≠ stWith z 7 rawEntry :=
  ⟨someCache _ (by decide), someCache _ (by decide), rfl, by decide⟩

/-! ### Permission codec -/

theorem witness_PermDecodeOfEncode :
    (someConfig .c64r).Valid ∧ (permEncode (someConfig .c64r) (.ofList [.r, .w]) false false).toNat ≠ 0 ∧
      (someConfig .c128r).Valid ∧ (permEncode (someConfig .c128r) six true false).toNat ≠ 0 :=
  ⟨witness_valid_c64r, by decide, witness_valid_c128r, by decide⟩

theorem witness_PermEncodeC128R :
    (st z).cfg.Valid ∧ (st z).cfg.fmt = .c128r ∧ (PermSet.ofList [.el]).el = true ∧ six.el = false ∧ six.sl = false ∧
      six = sixPerms ∧ (st z).cfg.apBit? .r = some 0 :=
  ⟨witness_valid_c128r, rfl, by decide⟩

/-- Unused codes of Q0, Q2 and Q3, at the ends of the ranges of FallbackAsymmetry, for both values of lvb. -/
theorem witness_FallbackAsymmetry :
    (st64 z64).cfg.fmt = .c64r ∧ ∀ lvb : Bool, ∀ i ∈ [(2 : Fin 32), 7, 16, 31], (st64 z64).cfg.apEntry lvb i = .unused := by
  decide

/-- A held set, a set no entry holds, and a Used code. -/
theorem witness_PermCodecC64R :
    (st64 z64).cfg.Valid ∧ (st64 z64).cfg.apEntry false 5 = .used (.ofList [.r, .w]) false ∧
      (∀ i : Fin 32, (st64 z64).cfg.apEntry false i ≠ .used (.ofList [.c]) false) ∧ (15#5).toNat = (15 : Fin 32).val ∧
      (st64 z64).cfg.apEntry false 15 = .used (.ofList [.x, .r]) true :=
  ⟨witness_valid_c64r, by decide⟩

/-- A request that loses M, one that loses a name, and one that every applicable rule leaves alone. -/
theorem witness_PermFixupClears :
    permFixup (someConfig .c128r) true (.ofList [.c]) = (false, .empty) ∧
      (∀ r ∈ (someConfig .c128r).fixupRules, r.requires.holds true six = true) ∧
      (someConfig .c128r).fixupRules[1]? = some .f2 ∧ (someConfig .c128r).ruleApplies .f2 = true ∧
      (PermSet.ofList [.c]).x = false ∧ (PermSet.ofList [.c]).r = false ∧ (PermSet.ofList [.c]).w = false := by decide

/-- InvalidCombinationsEncodeToZero: C alone, which no entry holds under either lvb, and C128R sets with and without EL. -/
theorem witness_InvalidCombinationsEncodeToZero :
    (st64 z64).cfg.Valid ∧ (st64 z64).cfg.fmt = .c64r ∧ (PermSet.ofList [.c]).c = true ∧ (PermSet.ofList [.c]).r = false ∧
      (PermSet.ofList [.c]).w = false ∧
      (∀ lvb : Bool, ∀ i : Fin 32, (st64 z64).cfg.apEntry lvb i ≠ .used (.ofList [.c]) false) ∧
      (st z).cfg.Valid ∧ (st z).cfg.fmt = .c128r ∧ (PermSet.ofList [.el]).el = true ∧ six.el = false ∧ six.sl = false :=
  ⟨witness_valid_c64r, rfl, rfl, rfl, rfl, by decide, witness_valid_c128r, rfl, rfl, rfl, rfl⟩

theorem witness_CapHasPermsIsInclusion : (Operands.zero .c128r).req = .ofList [] := by decide

/-! ### Compressed word -/

/-- A reserved bit of each format. -/
theorem witness_FieldsOfPack :
    (namedMask (someConfig .c128r)).getLsbD 57 = false ∧ (namedMask (someConfig .c64r)).getLsbD 12 = false := by decide

/-- Both edges of each C128R field (30_encoding.md R61, R62), M at bit 51, and reserved bits beside them. -/
theorem test_fields_c128r_edges :
    fields (someConfig .c128r) 0x0122000006002001#64 = ⟨9#4, 0x20#7, false, true, 0x800#12, 0x2001#14, 0#64⟩ ∧
      fields (someConfig .c128r) 0x0208100008004000#64 = ⟨0#4, 0x41#7, true, false, 1#12, 0#14, 0x0200000000000000#64⟩ := by decide

/-- Both edges of the C64R SDP (30_encoding.md R67), and the fields of LAYOUT64 = (0, 17, 10, 11, 25) beside them. -/
theorem test_fields_c64r_edges :
    fields (someConfig .c64r) 0x82020A01#32 = ⟨2#2, 1#5, true, false, 1#8, 0x201#10, 0#32⟩ ∧
      fields (someConfig .c64r) 0x61011400#32 = ⟨1#2, 0x10#5, false, true, 0x80#8, 0#10, 0x11000#32⟩ := by decide

/-- A configuration of each format. -/
theorem witness_PackOfFields : (someConfig .c128r).Valid ∧ (someConfig .c128r).fmt = .c128r ∧
    (someConfig .c64r).Valid ∧ (someConfig .c64r).fmt = .c64r := ⟨witness_valid_c128r, rfl, witness_valid_c64r, rfl⟩

theorem witness_ImageLittleEndian : (someConfig .c128r).imageOrder = .little := rfl

/-! ### Bounds codec -/

/-- Both ends of the two exponent ranges of DecodeWithinWindow: EF = 1, and ES = 2, 1 and 0. -/
theorem witness_DecodeWithinWindow :
    (someConfig .c128r).mantissas? 0x4080000#64 = some ⟨0, 0x20, 0, 0⟩ ∧
      (someConfig .c128r).mantissas? 0x2#64 = some ⟨50, 0, 0, 1⟩ ∧ 50 + 2 ≤ Fmt.c128r.maxE ∧
      (someConfig .c128r).mantissas? 0x1#64 = some ⟨51, 0, 0, 1⟩ ∧ Fmt.c128r.maxE ≤ 51 + 1 ∧
      (someConfig .c128r).mantissas? 0#64 = some ⟨52, 0, 0, 1⟩ := by decide

/-- V21: a word of exponent MAX_E, its base and top the mantissas times 2^52, mod 2^64 and mod 2^65. -/
theorem test_boundsDecode_max_exponent :
    returns (exec .boundsDecode (st { z with p := 0x740348#64, a := 0x41DF#64 }))
      (.bounds ⟨0x3480000000000000#64, 0x1D00000000000000#65, true⟩) = true := by decide

/-- The smallest and the largest stored exponent above MAX_E = 52: 53 and 63. -/
theorem witness_EveryWordDecodes :
    (fields (someConfig .c128r) 0x18005#64).ef = false ∧ (fields (someConfig .c128r) 0x18005#64).t.toNat = 6 ∧
      (fields (someConfig .c128r) 0x18005#64).b.toNat = 5 ∧ (fields (someConfig .c128r) 0x1C007#64).ef = false ∧
      (fields (someConfig .c128r) 0x1C007#64).t.toNat = 7 ∧ (fields (someConfig .c128r) 0x1C007#64).b.toNat = 7 ∧
      Fmt.c128r.maxE < 6 % 8 * 8 + 5 % 8 := by decide

/-- The whole space, an empty request at the end, and the first length that needs the EF = 0 form. -/
theorem witness_EncodeRoundsOutward :
    ∀ x ∈ [(0#64, 0x10000000000000000#65), (0xFFFFFFFFFFFFFFFF#64, 0x10000000000000000#65), (0x10#64, 0x10#65),
        (0#64, 0x1000#65)], InDomain (someConfig .c128r) x.1 x.2 := by
  simp [InDomain, someConfig, Fmt.aw]

/-- Inverted by one, and a top one past the space. -/
theorem witness_EncodeOutsideDomain :
    ∀ x ∈ [(1#64, 0#65), (0#64, 0x10000000000000001#65)], ¬ InDomain (someConfig .c128r) x.1 x.2 := by
  simp [InDomain, someConfig, Fmt.aw]

/-- A cursor at each end of the request, for each format. -/
theorem witness_MaxPermsCapDecodesToRequest :
    (someConfig .c128r).Valid ∧ InDomain (someConfig .c128r) 0x8000#64 0xA6400#65 ∧
      (0x8000#64).toNat ≤ (0xA6400#65).toNat ∧ (0xA6400#64).toNat = (0xA6400#65).toNat ∧
      (someConfig .c64r).Valid ∧ InDomain (someConfig .c64r) 0#32 0x8000#33 ∧ (0x1000#32).toNat ≤ (0x8000#33).toNat :=
  ⟨witness_valid_c128r, by simp [InDomain, someConfig, Fmt.aw], by decide, by decide, witness_valid_c64r,
    ⟨by decide, by decide⟩, by decide⟩

/-- SetBoundsStoresRequest and RepresentableAfterSetBounds on V3's request, its cursor at the base. -/
theorem witness_SetBoundsStoresRequest :
    (someConfig .c128r).Valid ∧ InDomain (someConfig .c128r) 0x160600000#64 0x160900000#65 ∧
      (0x160600000#64).toNat ≤ (0x160600000#64).toNat ∧ (0x160600000#64).toNat ≤ (0x160900000#65).toNat :=
  ⟨witness_valid_c128r, by simp [InDomain, someConfig, Fmt.aw], by decide, by decide⟩

/-- A word of exponent MAX_E (V20). -/
theorem witness_RepresentableWithAddr : (someConfig .c128r).mantissas? 0#64 = some ⟨52, 0, 0, 1⟩ ∧ Fmt.c128r.maxE = 52 := by
  decide

/-- V15's window: the cursor and the window's last address share it, the next address does not. -/
theorem witness_WindowRepresentable :
    ∃ d, (someConfig .c128r).mantissas? c2.pesbt = some d ∧ d.e + 1 < Fmt.c128r.maxE ∧
      windowOf .c128r d 0x187FFF = windowOf .c128r d 0x41DF ∧ windowOf .c128r d 0x188000 ≠ windowOf .c128r d 0x41DF :=
  ⟨_, rfl, by decide⟩

/-- A tag that survives SET_CURSOR (V15). -/
theorem witness_SetCursorKeepsTaggedBounds :
    (Cap.setCursor (someConfig .c128r) c2 0x187FFF#64).tag = true := by decide

/-! ### Capability values -/

/-- An operand record whose c is a decompressed capability and whose p is another word. -/
theorem witness_CompressOfDecompress : ({ z with p := 1#64, c := decompress 2#64 3#64 true } : Operands .c128r).c =
    decompress 2#64 3#64 true ∧ (1#64 : BitVec 64) ≠ (decompress (f := .c128r) 2#64 3#64 true).pesbt := ⟨rfl, by decide⟩

/-- AccessorsReturnViews and AccessorsSaturate: a plain, a saturated and an inverted length (V2, V20, V21). -/
theorem witness_Accessors :
    (Cap.base (someConfig .c128r) c2).toNat ≤ (Cap.top (someConfig .c128r) c2).toNat ∧
      (Cap.top (someConfig .c128r) n).toNat = 2 ^ 64 ∧
      (Cap.top (someConfig .c128r) ⟨0x740348#64, 0#64, false⟩).toNat <
        (Cap.base (someConfig .c128r) ⟨0x740348#64, 0#64, false⟩).toNat := by decide

theorem witness_SetSealedSentry :
    (someConfig .c128r).Valid ∧ (6 : Nat) = (someConfig .c128r).maxOtype - 1 ∧ (7 : Nat) ≠ (someConfig .c128r).maxOtype - 1 ∧
      (someConfig .c128r).mantissas? c2.pesbt ≠ none ∧
      Cap.isSealed (someConfig .c128r) ⟨0x1e3f00009334105#64, 0x41DF#64, true⟩ = true :=
  ⟨witness_valid_c128r, by decide⟩

theorem witness_UnsealUndoesSeal : (someConfig .c128r).Valid ∧ Cap.isSealed (someConfig .c128r) c2 = false :=
  ⟨witness_valid_c128r, by decide⟩

theorem witness_SetPermsStoresCode :
    (someConfig .c128r).Valid ∧ (someConfig .c128r).mantissas? c2.pesbt ≠ none ∧
      (permEncode (someConfig .c128r) six false (someConfig .c128r).lvb).toNat ≠ 0 := ⟨witness_valid_c128r, by decide⟩

/-- RoundtripRecord's last clause on V2: the request rounds exactly and the word is MAKE_MAX_PERMS_CAP's. -/
theorem witness_RoundtripRecord :
    (someConfig .c128r).Valid ∧ InDomain (someConfig .c128r) 0x8000#64 0xA6400#65 ∧
      (encodeBounds (someConfig .c128r) 0x8000#64 0xA6400#65).exact = true ∧
      0x1e3f00001334105 = (makeMaxPermsCap (someConfig .c128r) 0x8000#64 0x8000#64 0xA6400#65).pesbt.toNat :=
  ⟨witness_valid_c128r, by simp [InDomain, someConfig, Fmt.aw], by decide, by decide⟩

end Sys2Proof.Tests
end

/-! SUPPORT and PROOFS. The scope of the block (00_scope.md): every command delivers an outcome (R11), and a codec command
is a function of its operands and the configuration (R6). -/

namespace Sys2Proof.Machine

/-- The codec commands lie below the opcodes that name a register (30_encoding.md R75). -/
theorem not_isCodec_of_rn? {i : Instr} {rn : Nat} (h : i.rn? = some rn) : ¬ i.isCodec := by
  cases i <;> simp [Instr.rn?, Instr.isCodec, opcodeOf] at h ⊢

/-- A codec command only delivers an outcome: everything but the response stays (00_scope.md R6). -/
theorem exec_codec_delivers {i : Instr} (hi : i.isCodec) (s : State) : ∃ r, exec i s = .next (s.deliver r) := by
  rcases exec_cases i s with ⟨-, ⟨v, h⟩ | ⟨r, h⟩⟩ | ⟨rn, hrn, -⟩ | ⟨rfl, -⟩
  · exact ⟨.returned v, h⟩
  · exact ⟨.refused r, h⟩
  · exact absurd hi (not_isCodec_of_rn? hrn)
  · exact absurd hi (by decide)

/-- A codec command reads neither the cache, the mark, the port nor the earlier response: what it delivers in one state it
delivers in every state with the same configuration and operands (00_scope.md R6). -/
theorem exec_codec_transfer {i : Instr} (hi : i.isCodec) {k : Config} {o : Operands k.fmt} {g m p r0 r}
    (h : exec i ⟨k, g, m, p, o, r0⟩ = .next ⟨k, g, m, p, o, some r⟩) (g' m' p' r0') :
    exec i ⟨k, g', m', p', o, r0'⟩ = .next ⟨k, g', m', p', o, some r⟩ := by
  cases i
  case regRead | regWrite | regWriteInt | regWriteRaw | regReadCursor | regReadRaw =>
    exact absurd hi (not_isCodec_of_rn? rfl)
  case regReset => exact absurd hi (by decide)
  all_goals
    cases h
    rfl

/-- A register command with an index below NUM_GPR delivers an outcome. -/
theorem RegisterOutcome.delivers {s : State} {rn : Nat} {e : Entry s.cfg.fmt} {x : Host.Outcome State Fault Refusal}
    (h : RegisterOutcome s rn e x) : ∃ t, x = .next t ∧ t.response ≠ none := by
  rcases h with ⟨v, h⟩ | ⟨c, -, h⟩ | ⟨w, -, h⟩ | ⟨-, -, h⟩ <;> exact ⟨_, h, by simp⟩

/-- Settles O12: every case of exec_cases delivers an outcome. -/
theorem everyCommandAnswers : Obligations.EveryCommandAnswers := by
  intro i s
  rcases exec_cases i s with ⟨-, ⟨v, h⟩ | ⟨r, h⟩⟩ | ⟨rn, -, ⟨-, h⟩ | ⟨e, -, h⟩⟩ | ⟨-, h⟩
  case inr.inl.inr => exact h.delivers
  all_goals exact ⟨_, h, by simp⟩

/-- Settles O13: the outcome is the one delivered with an empty cache and port, and it transfers to every other. -/
theorem codecCommandsPure : Obligations.CodecCommandsPure := by
  intro i k o hi
  obtain ⟨r, h⟩ := exec_codec_delivers hi ⟨k, [], none, [], o, none⟩
  exact ⟨r, exec_codec_transfer hi h⟩

end Sys2Proof.Machine

/-! SUPPORT and PROOFS. The state (10_state.md): what a command leaves of the register file (R35, R36, R38, R42)
and the reset values (R43). -/

namespace Sys2Proof.Machine

/-! ## The reset file (10_state.md R43) -/

/-- Register 0 of the reset file. -/
theorem resetFile_getElem?_zero (k : Config) {n : Nat} (hn : 0 < n) : (resetFile k n)[0]? = some (zeroEntry k) := by
  rw [resetFile_getElem?, if_pos hn, if_pos rfl]

/-- Every other register of the reset file. -/
theorem resetFile_getElem?_of_ne (k : Config) {n rn : Nat} (h0 : rn ≠ 0) (hn : rn < n) :
    (resetFile k n)[rn]? = some (resetEntry k) := by
  rw [resetFile_getElem?, if_pos hn, if_neg h0]

/-! ## The register file after a command -/

/-- Everything a command can do to a register file g: leave it, promote the entry a read returns, write an entry, or
reset it. -/
inductive FileStep (k : Config) (g : List (Entry k.fmt)) : List (Entry k.fmt) → Prop
  | kept : FileStep k g g
  | promoted {rn e c} (he : g[rn]? = some e) (hc : e.archVal? k = some c) : FileStep k g (g.set rn (e.promoted c))
  | wrote (rn w) : FileStep k g (written g rn w)
  | reset : FileStep k g (resetFile k g.length)

/-- A command changes nothing but the register file, the mark and the response (10_state.md R38). -/
theorem exec_fileStep (i : Instr) (s : State) :
    ∃ g m r, exec i s = .next { s with gpr := g, mark := m, response := r } ∧ FileStep s.cfg s.gpr g := by
  rcases exec_cases i s with ⟨-, ⟨v, h⟩ | ⟨r, h⟩⟩ | ⟨rn, -, ⟨-, h⟩ | ⟨e, he, hreg⟩⟩ | ⟨-, h⟩
  case inr.inl.inr =>
    rcases hreg with ⟨v, h⟩ | ⟨c, hc, h⟩ | ⟨w, -, h⟩ | ⟨-, -, h⟩
    · exact ⟨_, _, _, h, .kept⟩
    · exact ⟨_, _, _, h, .promoted he hc⟩
    · exact ⟨_, _, _, h, .wrote rn w⟩
    · exact ⟨_, _, _, h, .kept⟩
  case inr.inr => exact ⟨_, _, _, h, .reset⟩
  all_goals exact ⟨_, _, _, h, .kept⟩

/-- No command changes the number of registers. -/
theorem FileStep.length_eq {k : Config} {g g' : List (Entry k.fmt)} (h : FileStep k g g') : g'.length = g.length := by
  cases h <;> simp

/-- Register 0 stays NullCap, fully decompressed: reading it promotes it to itself, and a write of it is a no-op
(10_state.md R35). -/
theorem FileStep.zeroEntry_kept {k : Config} {g g' : List (Entry k.fmt)} (h : FileStep k g g')
    (h0 : g[0]? = some (zeroEntry k)) : g'[0]? = some (zeroEntry k) := by
  cases h with
  | kept => exact h0
  | @promoted rn e c he hc =>
    cases rn with
    | succ rn => rwa [List.getElem?_set_ne (Nat.succ_ne_zero rn)]
    | zero =>
      obtain rfl : zeroEntry k = e := Option.some.inj (h0.symm.trans he)
      obtain rfl : nullCap k = c := Option.some.inj hc
      exact List.getElem?_set_self (List.getElem?_eq_some_iff.1 h0).1
  | wrote rn w =>
    rw [written_getElem?, if_neg (fun hw => hw.1 hw.2.1.symm)]
    exact h0
  | reset =>
    exact resetFile_getElem?_zero k (List.getElem?_eq_some_iff.1 h0).1

/-! ## The configuration (10_state.md R38) -/

/-- A command, the cache check after it included, changes neither the configuration nor the number of registers. -/
theorem afterCommand_exec_fixed {i : Instr} {s t : State} (h : afterCommand (exec i s) = .next t) :
    t.cfg = s.cfg ∧ t.numGpr = s.numGpr := by
  obtain ⟨g, m, r, he, hg⟩ := exec_fileStep i s
  rw [he] at h
  obtain ⟨m', r', hc⟩ := State.checkCache_frame { s with gpr := g, mark := m, response := r }
  obtain rfl := Host.Outcome.next.inj ((congrArg Host.Outcome.next hc).symm.trans h)
  exact ⟨rfl, hg.length_eq⟩

/-- Settles O11: a step waits, refuses a word or runs a command. -/
theorem configurationFixed : Obligations.ConfigurationFixed := by
  intro s t h
  rcases step_cases s with ⟨-, hs⟩ | ⟨cmd, rest, -, ⟨x, -, hs⟩ | ⟨-, ⟨r, -, hs⟩ | ⟨i, -, hs⟩⟩⟩ <;> rw [hs] at h
  · cases h; exact ⟨rfl, rfl⟩
  · cases h
  · cases h; exact ⟨rfl, rfl⟩
  · exact afterCommand_exec_fixed (s := s.running cmd rest) h

/-! ## Reads (10_state.md R36, R42) -/

/-- The promoted entry has the architectural value the read returned (43_regcache.md R192). -/
@[simp] theorem Entry.archVal?_promoted (k : Config) (e : Entry k.fmt) (c : Cap k.fmt) :
    (e.promoted c).archVal? k = some c := rfl

/-- Promoting an entry to its own architectural value keeps every architectural value of the file. -/
theorem map_archVal?_set_promoted {k : Config} {g : List (Entry k.fmt)} {rn : Nat} {e : Entry k.fmt} {c : Cap k.fmt}
    (he : g[rn]? = some e) (hc : e.archVal? k = some c) :
    (g.set rn (e.promoted c)).map (Entry.archVal? k) = g.map (Entry.archVal? k) := by
  obtain ⟨hlt, rfl⟩ := List.getElem?_eq_some_iff.1 he
  have hself := List.set_getElem_self (as := g.map (Entry.archVal? k)) (i := rn) (by simpa using hlt)
  rwa [List.getElem_map, hc, ← Entry.archVal?_promoted k g[rn] c, ← List.map_set] at hself

/-- REG_READ of an entry with an architectural value promotes it and returns the value (43_regcache.md R192). -/
theorem exec_regRead_of_archVal {s : State} {rn : Nat} {e : Entry s.cfg.fmt} {c : Cap s.cfg.fmt}
    (he : s.gpr[rn]? = some e) (hc : e.archVal? s.cfg = some c) :
    exec (.regRead rn) s = .next (s.commit (s.gpr.set rn (e.promoted c)) (.cap c)) := by
  simp only [exec, execRegRead, State.withRegister_of_some he, hc]

/-- REG_READ of an entry without an architectural value is PoisonRead (60_exceptions.md R212). -/
theorem exec_regRead_of_poison {s : State} {rn : Nat} {e : Entry s.cfg.fmt} (he : s.gpr[rn]? = some e)
    (hc : e.archVal? s.cfg = none) : exec (.regRead rn) s = .next (s.takeFault (.poisonRead rn)) := by
  simp only [exec, execRegRead, State.withRegister_of_some he, hc]

/-- Settles O20: a read promotes the entry to the value it returned; a refused or poisoned read leaves the cache. -/
theorem readKeepsArchVals : Obligations.ReadKeepsArchVals := by
  intro s rn
  by_cases h : s.numGpr ≤ rn
  · exact ⟨_, _, _, exec_register_refused rfl h, rfl⟩
  · obtain ⟨e, he⟩ : ∃ e, s.gpr[rn]? = some e := ⟨_, List.getElem?_eq_getElem (Nat.lt_of_not_le h)⟩
    cases hc : e.archVal? s.cfg with
    | some c => exact ⟨_, _, _, exec_regRead_of_archVal he hc, map_archVal?_set_promoted he hc⟩
    | none => exact ⟨_, _, _, exec_regRead_of_poison he hc, rfl⟩

/-! ## Register 0 (10_state.md R35) -/

/-- Settles O25: every FileStep keeps register 0, and the three writes of register 0 leave the file. -/
theorem registerZeroFixed : Obligations.RegisterZeroFixed := by
  refine ⟨fun k n hn => ?_, fun s h0 => ⟨fun i t ht => ?_, fun i hi => ?_⟩⟩
  · exact resetFile_getElem?_zero k hn
  · obtain ⟨g, m, r, he, hg⟩ := exec_fileStep i s
    obtain rfl := Host.Outcome.next.inj (he.symm.trans ht)
    exact hg.zeroEntry_kept h0
  · simp only [List.mem_cons, List.not_mem_nil, or_false] at hi
    rcases hi with rfl | rfl | rfl <;> exact congrArg Host.Outcome.next (State.withRegister_of_some h0)

/-! ## Reset (10_state.md R43) -/

/-- Settles O17, by the entries of the reset file. -/
theorem resetValues : Obligations.ResetValues := by
  refine ⟨⟨Config.reset, 32, by decide, rfl⟩, fun k n => ⟨rfl, rfl, resetFile_length k n, fun i hi => ?_⟩⟩
  by_cases h0 : i = 0
  · subst h0
    exact ⟨zeroEntry k, resetFile_getElem?_zero k hi, rfl, rfl, fun _ => ⟨rfl, rfl⟩, fun h => absurd h (by decide)⟩
  · exact ⟨resetEntry k, resetFile_getElem?_of_ne k h0 hi, rfl, rfl, fun h => absurd h h0, fun _ => ⟨rfl, rfl⟩⟩

end Sys2Proof.Machine

/-! SUPPORT and PROOFS. The compressed word (10_state.md R27; 30_encoding.md R60 to R68): which bits its fields take up,
and that packing the fields of a word gives the word back. -/

namespace Sys2Proof.Machine

/-- The two formats (00_scope.md R3). -/
theorem fmt_cases (f : Fmt) : f = .c64r ∨ f = .c128r := by
  cases f <;> simp

/-! ## The bits of a placed field -/

/-- Bit i belongs to the field of n bits whose lowest bit is lo. -/
def inField (lo n i : Nat) : Bool := decide (lo ≤ i) && decide (i < lo + n)

/-- The Boolean test of a field's bits decides its two bounds. -/
@[simp] theorem inField_iff (lo n i : Nat) : inField lo n i = true ↔ lo ≤ i ∧ i < lo + n := by
  simp [inField]

/-- A field read from a word and placed where it was read is the word's bits there. -/
theorem getLsbD_place_extractLsb' (f : Fmt) (lo n : Nat) (p : BitVec f.aw) (i : Nat) :
    (place f lo (p.extractLsb' lo n)).getLsbD i = (p.getLsbD i && inField lo n i) := by
  rw [getLsbD_place, BitVec.getLsbD_extractLsb', Bool.eq_iff_iff]
  simp only [Bool.and_eq_true, Bool.not_eq_true', decide_eq_true_eq, decide_eq_false_iff_not, inField_iff]
  constructor
  · rintro ⟨⟨-, hlo⟩, hn, hp⟩
    rw [Nat.add_sub_cancel' (by omega)] at hp
    exact ⟨hp, by omega, by omega⟩
  · rintro ⟨hp, hlo, hn⟩
    rw [Nat.add_sub_cancel' hlo]
    exact ⟨⟨BitVec.lt_of_getLsbD hp, by omega⟩, by omega, hp⟩

/-- A bit read from a word and placed where it was read is the word's bit there. -/
theorem getLsbD_place_bit_getLsbD (f : Fmt) (pos : Nat) (p : BitVec f.aw) (i : Nat) :
    (place f pos (bit (p.getLsbD pos))).getLsbD i = (p.getLsbD i && decide (i = pos)) := by
  rw [getLsbD_place, getLsbD_bit, Bool.eq_iff_iff]
  simp only [Bool.and_eq_true, Bool.not_eq_true', decide_eq_true_eq, decide_eq_false_iff_not]
  constructor
  · rintro ⟨⟨-, hlo⟩, h0, hp⟩
    obtain rfl : i = pos := by omega
    exact ⟨hp, rfl⟩
  · rintro ⟨hp, rfl⟩
    exact ⟨⟨BitVec.lt_of_getLsbD hp, by omega⟩, by omega, hp⟩

/-- A field of ones takes up the bits of the field. -/
theorem getLsbD_place_allOnes (f : Fmt) (lo n : Nat) {i : Nat} (hi : i < f.aw) :
    (place f lo (BitVec.allOnes n)).getLsbD i = inField lo n i := by
  rw [getLsbD_place, BitVec.getLsbD_allOnes, Bool.eq_iff_iff]
  simp only [Bool.and_eq_true, Bool.not_eq_true', decide_eq_true_eq, decide_eq_false_iff_not, inField_iff]
  omega

/-- A set bit takes up its position. -/
theorem getLsbD_place_bit_true (f : Fmt) (pos : Nat) {i : Nat} (hi : i < f.aw) :
    (place f pos (bit true)).getLsbD i = decide (i = pos) := by
  rw [getLsbD_place, getLsbD_bit, Bool.eq_iff_iff]
  simp only [Bool.and_eq_true, Bool.not_eq_true', decide_eq_true_eq, decide_eq_false_iff_not, and_true]
  omega

/-- The M bit read from a word and placed again is the word's bit at M_POS_128, where the format has one. -/
theorem getLsbD_placeM_mOf (k : Config) (p : BitVec k.fmt.aw) (i : Nat) :
    (placeM k (mOf k p)).getLsbD i = (p.getLsbD i && decide (k.mBit? = some i)) := by
  rw [getLsbD_placeM, mOf]
  cases k.mBit? with
  | none => simp
  | some pos => simp [getLsbD_place_bit_getLsbD, eq_comm]

/-- The M bit of a code of ones takes up M_POS_128, where the format has a separate M. -/
theorem getLsbD_placeM_allOnes (k : Config) {i : Nat} (hi : i < k.fmt.aw) :
    (placeM k ((BitVec.allOnes k.fmt.apw).getLsbD k.fmt.apFieldWidth)).getLsbD i = decide (k.mBit? = some i) := by
  rw [getLsbD_placeM]
  rcases fmt_cases k.fmt with hf | hf
  · simp [Config.mBit?, hf]
  · have hM : (BitVec.allOnes k.fmt.apw).getLsbD k.fmt.apFieldWidth = true := by simp [hf, Fmt.apFieldWidth]
    rw [hM, show k.mBit? = some k.mPos128 by simp only [Config.mBit?, hf]]
    simp [getLsbD_place_bit_true _ _ hi, eq_comm]

/-! ## The permission code (30_encoding.md R64, R65) -/

/-- An AP field with M above it fits the width of the code: C64R has no separate M, and C128R has the bit for it. -/
theorem add_mOf_lt (k : Config) (p : BitVec k.fmt.aw) {v : Nat} (hv : v < 2 ^ k.fmt.apFieldWidth) :
    v + 2 ^ k.fmt.apFieldWidth * (mOf k p).toNat < 2 ^ k.fmt.apw := by
  have hm := (mOf k p).toNat_le
  rcases fmt_cases k.fmt with hf | hf
  · have hm0 : mOf k p = false := by simp [mOf, Config.mBit?, hf]
    simp only [hf, Fmt.apFieldWidth] at hv
    simpa [hm0, hf, Fmt.apw] using hv
  · simp only [hf, Fmt.apFieldWidth, Fmt.apw] at hv ⊢
    omega

/-- The code is the AP field with M above it: nothing is cut off. -/
theorem toNat_codeOf (k : Config) (p : BitVec k.fmt.aw) :
    (codeOf k p).toNat =
      (p.extractLsb' k.apLo k.fmt.apFieldWidth).toNat + 2 ^ k.fmt.apFieldWidth * (mOf k p).toNat := by
  rw [codeOf, BitVec.toNat_ofNat, Nat.mod_eq_of_lt]
  exact add_mOf_lt k p (p.extractLsb' k.apLo k.fmt.apFieldWidth).isLt

/-- The code cut to the width of the AP field is the AP field of the word. -/
theorem setWidth_codeOf (k : Config) (p : BitVec k.fmt.aw) :
    (codeOf k p).setWidth k.fmt.apFieldWidth = p.extractLsb' k.apLo k.fmt.apFieldWidth := by
  have hap := (p.extractLsb' k.apLo k.fmt.apFieldWidth).isLt
  apply BitVec.eq_of_toNat_eq
  rw [BitVec.toNat_setWidth, toNat_codeOf, Nat.add_mul_mod_self_left, Nat.mod_eq_of_lt hap]

/-- The bit of the code above the AP field is M, for both formats. -/
theorem getLsbD_codeOf (k : Config) (p : BitVec k.fmt.aw) :
    (codeOf k p).getLsbD k.fmt.apFieldWidth = mOf k p := by
  have hap := (p.extractLsb' k.apLo k.fmt.apFieldWidth).isLt
  rw [← BitVec.testBit_toNat, toNat_codeOf, Nat.add_comm, Nat.testBit_two_pow_mul_add _ hap]
  cases mOf k p <;> simp

/-! ## Packing the fields of a word (30_encoding.md R60, R68) -/

/-- Bit i of a word belongs to a named field (30_encoding.md R60). -/
def namedBit (k : Config) (i : Nat) : Bool :=
  inField k.sdpLo k.fmt.sdpw i || inField k.apLo k.fmt.apFieldWidth i || decide (k.mBit? = some i) ||
    decide (i = k.ctPos) || decide (i = k.efPos) || inField k.tLo k.fmt.tw i || inField k.bLo k.fmt.mw i

/-- The AP field of a code of ones is ones. -/
theorem setWidth_allOnes_apFieldWidth (f : Fmt) :
    (BitVec.allOnes f.apw).setWidth f.apFieldWidth = BitVec.allOnes f.apFieldWidth := by
  cases f <;> rfl

/-- The named mask holds the named bits. -/
theorem getLsbD_namedMask (k : Config) {i : Nat} (hi : i < k.fmt.aw) : (namedMask k).getLsbD i = namedBit k i := by
  rw [namedMask, getLsbD_pack]
  simp only [setWidth_allOnes_apFieldWidth, getLsbD_place_allOnes _ _ _ hi, getLsbD_placeM_allOnes k hi,
    getLsbD_place_bit_true _ _ hi, BitVec.getLsbD_zero, Bool.or_false, namedBit]

/-- The reserved bits are the word's bits outside the named fields. -/
theorem getLsbD_reservedOf (k : Config) (p : BitVec k.fmt.aw) (i : Nat) :
    (reservedOf k p).getLsbD i = (p.getLsbD i && !namedBit k i) := by
  rw [reservedOf, BitVec.getLsbD_and, BitVec.getLsbD_not]
  by_cases hi : i < k.fmt.aw
  · rw [getLsbD_namedMask k hi, decide_eq_true hi, Bool.true_and]
  · simp [BitVec.getLsbD_of_ge p i (Nat.le_of_not_lt hi)]

/-- Every word is its own fields packed: a bit is that of the named fields it belongs to, or else reserved
(30_encoding.md R68). -/
theorem pack_fields (k : Config) (p : BitVec k.fmt.aw) : pack k (fields k p) = p := by
  apply BitVec.eq_of_getLsbD_eq
  intro i hi
  rw [getLsbD_pack]
  simp only [fields, setWidth_codeOf, getLsbD_codeOf, getLsbD_place_extractLsb', getLsbD_place_bit_getLsbD,
    getLsbD_placeM_mOf, getLsbD_reservedOf, ← Bool.and_or_distrib_left]
  simp only [namedBit, Bool.or_not_self, Bool.and_true]

/-! ## Where each field stands (30_encoding.md R61, R62, R66, R67) -/

/-- A field read from a word, as a number. -/
theorem toNat_extractLsb'_eq {w : Nat} (lo n : Nat) (p : BitVec w) :
    (p.extractLsb' lo n).toNat = p.toNat / 2 ^ lo % 2 ^ n := by
  rw [BitVec.extractLsb'_toNat, Nat.shiftRight_eq_div_pow]

/-- The low bits of the code are the AP field. -/
theorem toNat_codeOf_mod (k : Config) (p : BitVec k.fmt.aw) :
    (codeOf k p).toNat % 2 ^ k.fmt.apFieldWidth = p.toNat / 2 ^ k.apLo % 2 ^ k.fmt.apFieldWidth := by
  rw [toNat_codeOf, Nat.add_mul_mod_self_left, toNat_extractLsb'_eq, Nat.mod_mod]

/-- The reserved bits of a word, as a number. -/
theorem testBit_reservedOf (k : Config) (p : BitVec k.fmt.aw) (n : Nat) :
    (reservedOf k p).toNat.testBit n = true ↔ p.toNat.testBit n = true ∧ namedBit k n = false := by
  rw [BitVec.testBit_toNat, BitVec.testBit_toNat, getLsbD_reservedOf, Bool.and_eq_true, Bool.not_eq_true']

/-- The bits no C128R field uses (30_encoding.md R61, R62). -/
theorem namedBit_eq_false_c128r {k : Config} (hf : k.fmt = .c128r) (n : Nat) :
    namedBit k n = false ↔ n ≠ k.mPos128 ∧ (28 ≤ n ∧ n ≤ 43 ∨ 50 ≤ n ∧ n ≤ 52 ∨ 57 ≤ n) := by
  rw [← Bool.not_eq_true]
  simp only [namedBit, Config.sdpLo, Config.apLo, Config.mBit?, Config.ctPos, Config.efPos, Config.tLo, Config.bLo,
    hf, Fmt.sdpw, Fmt.apFieldWidth, Fmt.tw, Fmt.mw, Bool.or_eq_true, inField_iff, decide_eq_true_eq, Option.some.injEq]
  omega

/-- The bits of a word no C64R field uses (30_encoding.md R66, R67). -/
theorem namedBit_eq_false_c64r {k : Config} (hf : k.fmt = .c64r) {n : Nat} (hn : n < k.fmt.aw) :
    namedBit k n = false ↔ n < 30 ∧ n ≠ k.layout64.ctPos ∧ n ≠ k.layout64.efPos ∧
      ¬(k.layout64.apLo ≤ n ∧ n < k.layout64.apLo + 5) ∧ ¬(k.layout64.tLo ≤ n ∧ n < k.layout64.tLo + 8) ∧
      ¬(k.layout64.bLo ≤ n ∧ n < k.layout64.bLo + 10) := by
  simp only [hf, Fmt.aw] at hn
  rw [← Bool.not_eq_true]
  simp only [namedBit, Config.sdpLo, Config.apLo, Config.mBit?, Config.ctPos, Config.efPos, Config.tLo, Config.bLo,
    hf, Fmt.sdpw, Fmt.apFieldWidth, Fmt.tw, Fmt.mw, Bool.or_eq_true, inField_iff, decide_eq_true_eq, reduceCtorEq,
    or_false]
  omega

/-- Settles O35: pack_fields, and each field read at its format's position. -/
theorem packOfFields : Obligations.PackOfFields := by
  intro k p _
  refine ⟨pack_fields k p, fun hf => ?_, fun hf => ?_⟩
  · have hreserved (n : Nat) := (testBit_reservedOf k p n).trans (and_congr_right' (namedBit_eq_false_c128r hf n))
    cases k
    cases hf
    exact ⟨toNat_extractLsb'_eq 53 4 p, toNat_codeOf_mod _ p, getLsbD_codeOf _ p, rfl, rfl, toNat_extractLsb'_eq 14 12 p,
      (toNat_extractLsb'_eq 0 14 p).trans (by rw [pow_zero, Nat.div_one]), hreserved⟩
  · have hp : p.toNat < 2 ^ 32 := by simpa only [hf] using p.isLt
    have hreserved (n : Nat) := (testBit_reservedOf k p n).trans (and_congr_right fun hn =>
      namedBit_eq_false_c64r hf (BitVec.lt_of_getLsbD hn))
    cases k
    cases hf
    exact ⟨(toNat_extractLsb'_eq 30 2 p).trans (Nat.mod_eq_of_lt (by omega)),
      (toNat_codeOf _ p).trans (toNat_extractLsb'_eq _ 5 p), rfl, rfl, toNat_extractLsb'_eq _ 8 p,
      toNat_extractLsb'_eq _ 10 p, hreserved⟩

end Sys2Proof.Machine

/-! SUPPORT and PROOFS. Memory and the command port (20_memory.md): what a memory image stands for as a number (R52,
R53), and that a step runs the command at the head of the port whole (R55, R56). -/

namespace Sys2Proof

/-! ## Bytes as a number (20_memory.md R53) -/

/-- The bytes of a second list weigh 256 for every byte of the first. -/
theorem bytesToNat_append (l m : List Byte) :
    bytesToNat (l ++ m) = bytesToNat l + 256 ^ l.length * bytesToNat m := by
  induction l with
  | nil => simp [bytesToNat]
  | cons b l ih =>
    simp only [List.cons_append, bytesToNat, ih, List.length_cons, pow_succ']
    ring

namespace Machine

/-- The low n bytes of a word, lowest first, stand for the word cut to n bytes: each further byte is the next digit of
the word to base 256. -/
theorem bytesToNat_lowBytes {m : Nat} (w : BitVec m) (n : Nat) :
    bytesToNat ((List.range n).map fun i => w.extractLsb' (8 * i) 8) = w.toNat % 256 ^ n := by
  induction n with
  | zero => simp [bytesToNat, Nat.mod_one]
  | succ n ih =>
    have hdigit : (w.extractLsb' (8 * n) 8).toNat = w.toNat / 256 ^ n % 256 := by
      rw [toNat_extractLsb'_eq, pow_mul]
      norm_num
    rw [List.range_succ, List.map_append, bytesToNat_append, ih, Nat.mod_pow_succ]
    simp [bytesToNat, hdigit]

/-- The bytes of a word, in either byte order, are AW / 8. -/
@[simp] theorem length_wordBytes (o : ByteOrder) (f : Fmt) (w : BitVec f.aw) : (wordBytes o f w).length = f.aw / 8 := by
  cases o <;> simp [wordBytes]

/-- AW / 8 bytes hold exactly the words of the format. -/
theorem pow_bytes_aw (f : Fmt) : 256 ^ (f.aw / 8) = 2 ^ f.aw := by
  cases f <;> rfl

/-- The little-endian bytes of a word stand for the word (20_memory.md R53). -/
theorem bytesToNat_wordBytes_little (f : Fmt) (w : BitVec f.aw) : bytesToNat (wordBytes .little f w) = w.toNat := by
  rw [wordBytes, bytesToNat_lowBytes, pow_bytes_aw, Nat.mod_eq_of_lt w.isLt]

/-! ## The memory image (20_memory.md R52) -/

/-- A memory image is two words, in either byte order. -/
theorem Cap.length_image (k : Config) (c : Cap k.fmt) : (c.image k).length = 2 * k.fmt.aw / 8 := by
  rw [Cap.image, List.length_append, length_wordBytes, length_wordBytes]
  cases k.fmt <;> rfl

/-- Settles O36: the cursor's bytes stand for the cursor, and the pesbt's bytes after them weigh 2 ^ AW. -/
theorem imageLittleEndian : Obligations.ImageLittleEndian := by
  intro k c ho
  refine ⟨c.length_image k, ?_⟩
  rw [Cap.image, ho, bytesToNat_append, bytesToNat_wordBytes_little, bytesToNat_wordBytes_little, length_wordBytes,
    pow_bytes_aw]

/-! ## The step of a decoded command (20_memory.md R55, R56; 60_exceptions.md R214) -/

/-- A command whose word decodes, with no mark set, is executed and the cache checked after it. -/
theorem step_of_decode {s : State} {cmd : Command s.cfg.fmt} {rest : List (Command s.cfg.fmt)} {i : Instr}
    (hm : s.mark = none) (hp : s.pending = cmd :: rest) (hd : decode cmd.word = .ok i) :
    step s = afterCommand (exec i (s.running cmd rest)) := by
  simp only [step, runNext, State.takeCommand_of_cons hp, hm, runWord, hd]

/-- The cache check leaves a next state that keeps the cache invariant as it is (43_regcache.md R199). -/
theorem afterCommand_of_cacheInv {t : State} (h : t.CacheInv) : afterCommand (.next t) = .next t := by
  rw [afterCommand, State.checkCache_of_cacheInv h]

/-- Settles O5: the step of a decoded command, and the check that finds nothing after it. -/
theorem stepRunsDecoded : Obligations.StepRunsDecoded := by
  intro s cmd rest i hm hp hd
  have hstep := step_of_decode hm hp hd
  refine ⟨hstep, fun t ht hinv => ?_⟩
  rw [hstep, ht, afterCommand_of_cacheInv hinv]

end Machine
end Sys2Proof

/-! SUPPORT and PROOFS. The command word (30_encoding.md R74 to R76): the opcode map read in both directions, what the
decoder can answer, and what a step does with a word it rejects. -/

namespace Sys2Proof

open Laws Machine

/-! ## The opcode map (30_encoding.md R75) -/

/-- The encoder uses opcodes of the map alone. -/
theorem opcodeOf_mem_tableOpcodes (i : Instr) : opcodeOf i ∈ tableOpcodes := by
  cases i <;> simp [opcodeOf, tableOpcodes]

/-- The opcodes that name a register are those of the commands with an index. -/
theorem opcodeOf_mem_rnOpcodes_iff (i : Instr) : opcodeOf i ∈ rnOpcodes ↔ i.rn?.isSome := by
  cases i <;> simp [opcodeOf, rnOpcodes, Instr.rn?]

/-- The opcodes that name a register are opcodes of the map. -/
theorem rnOpcodes_subset : rnOpcodes ⊆ tableOpcodes := by decide

/-- Everything the opcode map can say of an opcode, the encoder in agreement. -/
theorem formOf_cases (op : Nat) :
    (formOf op = none ∧ op ∉ tableOpcodes) ∨
    (∃ i, formOf op = some (.plain i) ∧ opcodeOf i = op ∧ i.rn? = none) ∨
    (∃ mk, formOf op = some (.reg mk) ∧ ∀ rn, opcodeOf (mk rn) = op ∧ (mk rn).rn? = some rn) := by
  unfold formOf
  split
  case h_39 hop => exact .inl ⟨rfl, by simp_all [tableOpcodes]⟩
  case h_32 | h_33 | h_34 | h_35 | h_36 | h_37 => exact .inr (.inr ⟨_, rfl, fun _ => ⟨rfl, rfl⟩⟩)
  all_goals exact .inr (.inl ⟨_, rfl, rfl, rfl⟩)

/-! ## The parts of a command word (30_encoding.md R74) -/

/-- A command is well-formed when the index its word carries, 0 where it names none, fits eight bits. -/
theorem Instr.wellFormed_iff (i : Instr) : i.WellFormed ↔ i.rn?.getD 0 < 256 := by
  unfold Instr.WellFormed Instr.wellFormed
  cases i.rn? <;> simp

/-- Bits [7:0] of a command's word are its opcode. -/
theorem wordOpcode_encode (i : Instr) : wordOpcode (encode i) = opcodeOf i := wordOpcode_ofNat (opcodeOf_lt i)

/-- Bits [15:8] of a well-formed command's word are its register index, 0 where it names none. -/
theorem wordRn_encode {i : Instr} (hi : i.WellFormed) : wordRn (encode i) = i.rn?.getD 0 :=
  wordRn_ofNat (opcodeOf_lt i) (i.wellFormed_iff.1 hi)

/-- Bits [31:16] of a well-formed command's word are zero. -/
theorem wordHigh_encode {i : Instr} (hi : i.WellFormed) : wordHigh (encode i) = 0 :=
  wordHigh_ofNat (opcodeOf_lt i) (i.wellFormed_iff.1 hi)

/-- A word with zero reserved bits is the word of the command with its opcode and its index. -/
theorem wellFormed_and_encode_eq {w : CmdWord} {i : Instr} (hop : opcodeOf i = wordOpcode w)
    (hrn : i.rn?.getD 0 = wordRn w) (hhigh : wordHigh w = 0) : i.WellFormed ∧ encode i = w := by
  refine ⟨?_, BitVec.eq_of_toNat_eq ?_⟩
  · rw [i.wellFormed_iff, hrn]
    exact Nat.mod_lt _ (by decide)
  · rw [encode, hop, hrn, BitVec.toNat_ofNat]
    unfold wordOpcode wordRn wordHigh at *
    omega

/-! ## The decoder (30_encoding.md R76) -/

/-- Everything the decoder can answer: an unknown opcode, a reserved bit, or the command whose word it is. -/
theorem decode_cases (w : CmdWord) :
    (decode w = .error .unknownOpcode ∧ wordOpcode w ∉ tableOpcodes) ∨
    (decode w = .error .reservedBits ∧ wordOpcode w ∈ tableOpcodes ∧
      (wordHigh w ≠ 0 ∨ wordOpcode w ∉ rnOpcodes ∧ wordRn w ≠ 0)) ∨
    ∃ i, decode w = .ok i ∧ i.WellFormed ∧ encode i = w := by
  rcases formOf_cases (wordOpcode w) with ⟨hform, hop⟩ | ⟨i, hform, hop, hrn⟩ | ⟨mk, hform, hmk⟩
  · exact .inl ⟨by simp only [decode, hform], hop⟩
  · by_cases hbits : wordHigh w = 0 ∧ wordRn w = 0
    · exact .inr (.inr ⟨i, by simp only [decode, hform, if_pos hbits],
        wellFormed_and_encode_eq hop (by rw [hrn, hbits.2]; rfl) hbits.1⟩)
    · refine .inr (.inl ⟨by simp only [decode, hform, if_neg hbits], hop ▸ opcodeOf_mem_tableOpcodes i, ?_⟩)
      have hplain : wordOpcode w ∉ rnOpcodes := by simp [← hop, opcodeOf_mem_rnOpcodes_iff, hrn]
      exact (not_and_or.1 hbits).imp_right (⟨hplain, ·⟩)
  · obtain ⟨hop, hrn⟩ := hmk (wordRn w)
    by_cases hhigh : wordHigh w = 0
    · exact .inr (.inr ⟨_, by simp only [decode, hform, if_pos hhigh],
        wellFormed_and_encode_eq hop (by rw [hrn]; rfl) hhigh⟩)
    · exact .inr (.inl ⟨by simp only [decode, hform, if_neg hhigh], hop ▸ opcodeOf_mem_tableOpcodes _, .inl hhigh⟩)

/-- Settles O1: the word of a command decodes by its opcode, and the opcode map gives each command its own. -/
theorem decodeOfEncode : Obligations.DecodeOfEncode := by
  intro i hi
  rw [decode_encode_of_form hi]
  cases i <;> rfl

/-- Settles O2: the decoder accepts a word for the command it is the word of. -/
theorem encodeOfDecode : Obligations.EncodeOfDecode := by
  intro w i h
  rcases decode_cases w with ⟨hd, -⟩ | ⟨hd, -⟩ | ⟨j, hd, hj⟩ <;> rw [hd] at h <;> cases h
  exact hj

/-- Settles O3: the fields of each word, read through the opcode map. -/
theorem sampleWordsDecode : Obligations.SampleWordsDecode := by
  exact ⟨rfl, rfl, rfl, rfl, rfl, rfl, rfl, rfl⟩

/-! ## The step of a rejected word (30_encoding.md R76; 60_exceptions.md R214) -/

namespace Machine

/-- A command whose word the decoder rejects, with no mark set, is refused (60_exceptions.md R214). -/
theorem step_of_reject {s : State} {cmd : Command s.cfg.fmt} {rest : List (Command s.cfg.fmt)} {r : Reject}
    (hm : s.mark = none) (hp : s.pending = cmd :: rest) (hd : decode cmd.word = .error r) :
    step s = .next ((s.running cmd rest).refuse (rejection cmd.word r)) := by
  simp only [step, runNext, State.takeCommand_of_cons hp, hm, runWord, hd]

/-- The cache is not checked after a refused command (60_exceptions.md R214). -/
theorem afterCommand_refuse (s : State) (r : Refusal) : afterCommand (.next (s.refuse r)) = .next (s.refuse r) := rfl

/-- A command that names a register at or above NUM_GPR, with no mark set, is refused (43_regcache.md R191). -/
theorem step_of_badRegister {s : State} {cmd : Command s.cfg.fmt} {rest : List (Command s.cfg.fmt)} {i : Instr}
    {rn : Nat} (hm : s.mark = none) (hp : s.pending = cmd :: rest) (hd : decode cmd.word = .ok i) (hi : i.rn? = some rn)
    (hrn : s.numGpr ≤ rn) : step s = .next ((s.running cmd rest).refuse (.badRegister (encode i))) := by
  rw [step_of_decode hm hp hd, exec_register_refused (s := s.running cmd rest) hi hrn, afterCommand_refuse,
    recordedWord]

end Machine

/-- A word whose bits [7:0] are no opcode is rejected for that (30_encoding.md R76). -/
theorem decode_of_unknownOpcode {w : CmdWord} (hop : wordOpcode w ∉ tableOpcodes) :
    decode w = .error .unknownOpcode := by
  rcases decode_cases w with ⟨hd, -⟩ | ⟨-, hmem, -⟩ | ⟨i, -, -, rfl⟩
  · exact hd
  · exact absurd hmem hop
  · exact absurd (wordOpcode_encode i ▸ opcodeOf_mem_tableOpcodes i) hop

/-- A word with an opcode and a non-zero reserved bit is rejected for that (30_encoding.md R76). -/
theorem decode_of_reservedBits {w : CmdWord} (hop : wordOpcode w ∈ tableOpcodes)
    (hbits : wordHigh w ≠ 0 ∨ wordOpcode w ∉ rnOpcodes ∧ wordRn w ≠ 0) : decode w = .error .reservedBits := by
  rcases decode_cases w with ⟨-, hmem⟩ | ⟨hd, -⟩ | ⟨i, -, hi, rfl⟩
  · exact absurd hop hmem
  · exact hd
  · rw [wordHigh_encode hi, wordRn_encode hi, wordOpcode_encode, opcodeOf_mem_rnOpcodes_iff] at hbits
    cases hrn : i.rn? <;> simp [hrn] at hbits

/-- A word with the opcode of a command that names a register, and no reserved bit set, decodes to such a command with
the index of bits [15:8] (30_encoding.md R74). -/
theorem decode_of_rnOpcode {w : CmdWord} (hop : wordOpcode w ∈ rnOpcodes) (hhigh : wordHigh w = 0) :
    ∃ i, decode w = .ok i ∧ encode i = w ∧ i.rn? = some (wordRn w) := by
  rcases decode_cases w with ⟨-, hmem⟩ | ⟨-, -, hbits⟩ | ⟨i, hd, hi, rfl⟩
  · exact absurd (rnOpcodes_subset hop) hmem
  · exact absurd hhigh (hbits.resolve_right fun h => h.1 hop)
  · rw [wordOpcode_encode, opcodeOf_mem_rnOpcodes_iff, Option.isSome_iff_exists] at hop
    obtain ⟨rn, hrn⟩ := hop
    exact ⟨i, hd, rfl, by rw [wordRn_encode hi, hrn]; rfl⟩

/-- Settles O4: the decoder rejects the words of the first two clauses, and the command of the third is refused. -/
theorem illegalWordsRefused : Obligations.IllegalWordsRefused := by
  intro s cmd rest hm hp opcode rn high
  refine ⟨fun hop => ?_, fun hop hbits => ?_, fun hop hhigh hrn => ?_⟩
  · exact step_of_reject hm hp (decode_of_unknownOpcode hop)
  · exact step_of_reject hm hp (decode_of_reservedBits hop hbits)
  · obtain ⟨i, hd, hw, hi⟩ := decode_of_rnOpcode hop hhigh
    rw [step_of_badRegister hm hp hd hi hrn, hw]

end Sys2Proof

/-! SUPPORT and PROOFS. The fields of a packed word (30_encoding.md R68): with a valid configuration no two named fields
share a bit, so each bit of a packed word is the bit of the one field that claims it, or else reserved. -/

namespace Sys2Proof.Machine

/-! ## The claims of the fields on a bit (30_encoding.md R60) -/

/-- What the named fields say of bit i of a word: whether the field takes up the bit, and the bit it puts there. -/
def claims (k : Config) (x : Fields k.fmt) (i : Nat) : List (Bool × Bool) :=
  [(inField k.sdpLo k.fmt.sdpw i, x.sdp.getLsbD (i - k.sdpLo)),
    (inField k.apLo k.fmt.apFieldWidth i, (x.code.setWidth k.fmt.apFieldWidth).getLsbD (i - k.apLo)),
    (decide (k.mBit? = some i), x.code.getLsbD k.fmt.apFieldWidth),
    (decide (i = k.ctPos), x.ct),
    (decide (i = k.efPos), x.ef),
    (inField k.tLo k.fmt.tw i, x.t.getLsbD (i - k.tLo)),
    (inField k.bLo k.fmt.mw i, x.b.getLsbD (i - k.bLo))]

/-- The named bits are those some field claims. -/
theorem namedBit_eq_any_claims (k : Config) (x : Fields k.fmt) (i : Nat) :
    namedBit k i = (claims k x i).any Prod.fst := by
  simp [namedBit, claims, Bool.or_assoc]

/-- A placed field holds its bits where it stands, and no others. -/
theorem getLsbD_place_inField (f : Fmt) (lo : Nat) {n : Nat} (v : BitVec n) {i : Nat} (hi : i < f.aw) :
    (place f lo v).getLsbD i = (inField lo n i && v.getLsbD (i - lo)) := by
  rw [getLsbD_place, Bool.eq_iff_iff]
  simp only [Bool.and_eq_true, Bool.not_eq_true', decide_eq_true_eq, decide_eq_false_iff_not, inField_iff]
  constructor
  · rintro ⟨⟨-, hlo⟩, hv⟩
    have := BitVec.lt_of_getLsbD hv
    exact ⟨by omega, hv⟩
  · rintro ⟨⟨hlo, -⟩, hv⟩
    exact ⟨⟨hi, by omega⟩, hv⟩

/-- A placed bit stands at its position alone. -/
theorem getLsbD_place_bit (f : Fmt) (pos : Nat) (b : Bool) {i : Nat} (hi : i < f.aw) :
    (place f pos (bit b)).getLsbD i = (decide (i = pos) && b) := by
  rw [getLsbD_place_inField _ _ _ hi, getLsbD_bit, Bool.eq_iff_iff]
  simp only [Bool.and_eq_true, decide_eq_true_eq, inField_iff]
  constructor
  · rintro ⟨⟨hlo, -⟩, h0, hb⟩
    exact ⟨by omega, hb⟩
  · rintro ⟨rfl, hb⟩
    exact ⟨by omega, by omega, hb⟩

/-- The separate M bit stands at M_POS_128 alone, where the format has one. -/
theorem getLsbD_placeM_eq (k : Config) (m : Bool) {i : Nat} (hi : i < k.fmt.aw) :
    (placeM k m).getLsbD i = (decide (k.mBit? = some i) && m) := by
  rw [getLsbD_placeM]
  cases k.mBit? with
  | none => simp
  | some pos => simp [getLsbD_place_bit _ _ _ hi, eq_comm]

/-- A bit of a packed word is what the named fields put there, or the reserved bit (30_encoding.md R68). -/
theorem getLsbD_pack_eq_claims (k : Config) (x : Fields k.fmt) {i : Nat} (hi : i < k.fmt.aw) :
    (pack k x).getLsbD i = ((claims k x i).any (fun c => c.1 && c.2) || x.reserved.getLsbD i) := by
  rw [getLsbD_pack]
  simp only [getLsbD_place_bit _ _ _ hi, getLsbD_placeM_eq k _ hi]
  simp only [getLsbD_place_inField _ _ _ hi, claims, List.any_cons, List.any_nil, Bool.or_false, Bool.or_assoc]

/-! ## The fields are disjoint (30_encoding.md R61, R66; 70_reset_and_hazards.md R232) -/

/-- The fields LAYOUT64 places share no bit and lie below bit 30 (30_encoding.md R66). -/
theorem layout64_separate {k : Config} (h : k.LayoutOk) (i : Nat) :
    let y := k.layout64
    let inB := y.bLo ≤ i ∧ i < y.bLo + 10
    let inT := y.tLo ≤ i ∧ i < y.tLo + 8
    let inAp := y.apLo ≤ i ∧ i < y.apLo + 5
    y.efPos ≠ y.ctPos ∧ ¬(inB ∧ inT) ∧ ¬((inB ∨ inT) ∧ (i = y.efPos ∨ i = y.ctPos)) ∧
      ¬(((inB ∨ inT) ∨ i = y.efPos ∨ i = y.ctPos) ∧ inAp) ∧
      (((inB ∨ inT) ∨ i = y.efPos ∨ i = y.ctPos) ∨ inAp → i < 30) := by
  obtain ⟨hnodup, hlt⟩ := h
  simp only [← List.range'_eq_map_range, List.nodup_append, List.mem_append, List.mem_range'_1, List.mem_cons,
    List.not_mem_nil, or_false, List.nodup_cons] at hnodup hlt
  obtain ⟨⟨⟨-, -, hbt⟩, ⟨hne, -⟩, hpos⟩, -, hap⟩ := hnodup
  exact ⟨hne, fun h => hbt i h.1 i h.2 rfl, fun h => hpos i h.1 i h.2 rfl, fun h => hap i h.1 i h.2 rfl, hlt i⟩

/-- The bits the C64R fields take up (30_encoding.md R66, R67). -/
theorem claims_fst_c64r {k : Config} (hf : k.fmt = .c64r) (x : Fields k.fmt) (i : Nat) :
    (claims k x i).map Prod.fst =
      [inField 30 2 i, inField k.layout64.apLo 5 i, false, decide (i = k.layout64.ctPos), decide (i = k.layout64.efPos),
        inField k.layout64.tLo 8 i, inField k.layout64.bLo 10 i] := by
  simp [claims, Config.sdpLo, Config.apLo, Config.mBit?, Config.ctPos, Config.efPos, Config.tLo, Config.bLo, hf,
    Fmt.apFieldWidth, Fmt.tw, Fmt.mw]

/-- The bits the C128R fields take up (30_encoding.md R61, R62). -/
theorem claims_fst_c128r {k : Config} (hf : k.fmt = .c128r) (x : Fields k.fmt) (i : Nat) :
    (claims k x i).map Prod.fst =
      [inField 53 4 i, inField 44 6 i, decide (i = k.mPos128), decide (i = 27), decide (i = 26), inField 14 12 i,
        inField 0 14 i] := by
  simp [claims, Config.sdpLo, Config.apLo, Config.mBit?, Config.ctPos, Config.efPos, Config.tLo, Config.bLo, hf,
    Fmt.apFieldWidth, Fmt.tw, Fmt.mw, eq_comm]

/-- No two named fields claim the same bit. -/
theorem pairwise_claims {k : Config} (hk : k.Valid) (x : Fields k.fmt) (i : Nat) :
    (claims k x i).Pairwise fun c d => ¬(c.1 = true ∧ d.1 = true) := by
  rw [← List.pairwise_map (f := Prod.fst) (R := fun c d => ¬(c = true ∧ d = true))]
  rcases fmt_cases k.fmt with hf | hf
  · have hlayout := layout64_separate (hk.c64 hf).layout i
    rw [claims_fst_c64r hf]
    simp only [List.pairwise_cons, List.forall_mem_cons, List.not_mem_nil, List.Pairwise.nil, inField_iff,
      decide_eq_true_eq, Bool.false_eq_true, false_implies, implies_true, and_true, and_false, false_and,
      not_false_eq_true, true_and] at hlayout ⊢
    omega
  · have hm : (50 ≤ k.mPos128 ∧ k.mPos128 ≤ 52) ∨ (28 ≤ k.mPos128 ∧ k.mPos128 ≤ 43) := hk.mPos hf
    rw [claims_fst_c128r hf]
    simp only [List.pairwise_cons, List.forall_mem_cons, List.not_mem_nil, List.Pairwise.nil, inField_iff,
      decide_eq_true_eq, false_implies, implies_true, and_true]
    omega

/-- The field that claims a bit is the only one. -/
theorem claim_unique {k : Config} (hk : k.Valid) {x : Fields k.fmt} {i : Nat} {c d : Bool × Bool}
    (hc : c ∈ claims k x i) (hd : d ∈ claims k x i) (hc1 : c.1 = true) (hd1 : d.1 = true) : c = d := by
  have : Std.Symm fun c d : Bool × Bool => ¬(c.1 = true ∧ d.1 = true) := ⟨fun _ _ => mt And.symm⟩
  by_contra hne
  exact (pairwise_claims hk x i).forall hc hd hne ⟨hc1, hd1⟩

/-- Every bit a named field claims is a bit of the word. -/
theorem lt_aw_of_claim {k : Config} (hk : k.Valid) {x : Fields k.fmt} {i : Nat} {c : Bool × Bool}
    (hc : c ∈ claims k x i) (h : c.1 = true) : i < k.fmt.aw := by
  have hfst : true ∈ (claims k x i).map Prod.fst := h ▸ List.mem_map_of_mem hc
  rcases fmt_cases k.fmt with hf | hf
  · have hlayout := layout64_separate (hk.c64 hf).layout i
    simp only [claims_fst_c64r hf, List.mem_cons, List.not_mem_nil, eq_comm (a := true), inField_iff,
      decide_eq_true_eq, Bool.false_eq_true, or_false, false_or] at hfst hlayout
    simp only [hf, Fmt.aw]
    omega
  · have hm : (50 ≤ k.mPos128 ∧ k.mPos128 ≤ 52) ∨ (28 ≤ k.mPos128 ∧ k.mPos128 ≤ 43) := hk.mPos hf
    simp only [claims_fst_c128r hf, List.mem_cons, List.not_mem_nil, eq_comm (a := true), inField_iff,
      decide_eq_true_eq, or_false] at hfst
    simp only [hf, Fmt.aw]
    omega

/-! ## The fields of a packed word (30_encoding.md R68) -/

/-- Reserved bits at reserved positions are 0 at every named bit. -/
theorem reserved_eq_false_of_namedBit {k : Config} {x : Fields k.fmt}
    (hx : x.reserved &&& namedMask k = BitVec.ofNat _ 0) {i : Nat} (hi : i < k.fmt.aw) (h : namedBit k i = true) :
    x.reserved.getLsbD i = false := by
  have hbit := congrArg (BitVec.getLsbD · i) hx
  simpa [getLsbD_namedMask k hi, h] using hbit

/-- The reserved bits are read back: no named field claims their positions. -/
theorem reservedOf_pack {k : Config} {x : Fields k.fmt} (hx : x.reserved &&& namedMask k = BitVec.ofNat _ 0) :
    reservedOf k (pack k x) = x.reserved := by
  apply BitVec.eq_of_getLsbD_eq
  intro i hi
  rw [getLsbD_reservedOf]
  cases hn : namedBit k i with
  | true => simp [reserved_eq_false_of_namedBit hx hi hn]
  | false =>
    have hfree : (claims k x i).any (fun c => c.1 && c.2) = false := by
      rw [namedBit_eq_any_claims k x, List.any_eq_false] at hn
      exact List.any_eq_false.2 fun c hc h => hn c hc (Bool.and_eq_true_iff.1 h).1
    rw [getLsbD_pack_eq_claims k x hi, hfree, Bool.false_or, Bool.not_false, Bool.and_true]

section

variable {k : Config} {x : Fields k.fmt} (hk : k.Valid) (hx : x.reserved &&& namedMask k = BitVec.ofNat _ 0)
include hk hx

/-- A bit of a packed word is the one put there by the field that claims it. -/
theorem getLsbD_pack_of_claim {i : Nat} {c : Bool × Bool} (hc : c ∈ claims k x i) (h : c.1 = true) :
    (pack k x).getLsbD i = c.2 := by
  have hi := lt_aw_of_claim hk hc h
  have hnamed : namedBit k i = true := by
    rw [namedBit_eq_any_claims k x]
    exact List.any_eq_true.2 ⟨c, hc, h⟩
  rw [getLsbD_pack_eq_claims k x hi, reserved_eq_false_of_namedBit hx hi hnamed, Bool.or_false, Bool.eq_iff_iff,
    List.any_eq_true]
  constructor
  · rintro ⟨d, hd, hbit⟩
    obtain ⟨hd1, hd2⟩ := Bool.and_eq_true_iff.1 hbit
    exact claim_unique hk hc hd h hd1 ▸ hd2
  · exact fun hbit => ⟨c, hc, Bool.and_eq_true_iff.2 ⟨h, hbit⟩⟩

/-- A field read where it was placed is the field. -/
theorem extractLsb'_pack_of_claim {lo n : Nat} {v : BitVec n}
    (hc : ∀ i, (inField lo n i, v.getLsbD (i - lo)) ∈ claims k x i) : (pack k x).extractLsb' lo n = v := by
  apply BitVec.eq_of_getLsbD_eq
  intro j hj
  have hin : inField lo n (lo + j) = true := (inField_iff ..).2 ⟨by omega, by omega⟩
  rw [BitVec.getLsbD_extractLsb', decide_eq_true hj, Bool.true_and, getLsbD_pack_of_claim hk hx (hc (lo + j)) hin,
    Nat.add_sub_cancel_left]

/-- A bit read where it was placed is the bit. -/
theorem getLsbD_pack_of_bit_claim {pos : Nat} {b : Bool} (hc : (decide (pos = pos), b) ∈ claims k x pos) :
    (pack k x).getLsbD pos = b :=
  getLsbD_pack_of_claim hk hx hc (decide_eq_true rfl)

/-- M is read back as the bit of the code above the AP field: C64R has neither. -/
theorem mOf_pack : mOf k (pack k x) = x.code.getLsbD k.fmt.apFieldWidth := by
  cases hm : k.mBit? with
  | some pos =>
    have hc : (decide (k.mBit? = some pos), x.code.getLsbD k.fmt.apFieldWidth) ∈ claims k x pos := by
      simp only [claims, List.mem_cons, true_or, or_true]
    rw [mOf, hm]
    exact getLsbD_pack_of_claim hk hx hc (decide_eq_true hm)
  | none =>
    have hw : k.fmt.apw ≤ k.fmt.apFieldWidth := by
      rcases fmt_cases k.fmt with hf | hf
      · simp [hf, Fmt.apFieldWidth]
      · simp [Config.mBit?, hf] at hm
    rw [mOf, hm, BitVec.getLsbD_of_ge _ _ hw]

/-- The permission code is read back: the AP field holds its low bits and M the one above (30_encoding.md R64, R65). -/
theorem codeOf_pack : codeOf k (pack k x) = x.code := by
  have hap : (pack k x).extractLsb' k.apLo k.fmt.apFieldWidth = x.code.setWidth k.fmt.apFieldWidth :=
    extractLsb'_pack_of_claim hk hx fun i => by simp [claims]
  have hw : k.fmt.apw ≤ k.fmt.apFieldWidth + 1 := by
    rcases fmt_cases k.fmt with hf | hf <;> simp [hf, Fmt.apw, Fmt.apFieldWidth]
  apply BitVec.eq_of_toNat_eq
  calc (codeOf k (pack k x)).toNat
      = x.code.toNat % 2 ^ k.fmt.apFieldWidth +
          2 ^ k.fmt.apFieldWidth * (x.code.toNat / 2 ^ k.fmt.apFieldWidth % 2) := by
        rw [toNat_codeOf, hap, mOf_pack hk hx, BitVec.toNat_setWidth, ← BitVec.testBit_toNat, Nat.toNat_testBit]
    _ = x.code.toNat % 2 ^ (k.fmt.apFieldWidth + 1) := Nat.mod_pow_succ.symm
    _ = x.code.toNat := Nat.mod_eq_of_lt (x.code.isLt.trans_le (Nat.pow_le_pow_right (by decide) hw))

/-- Splitting a packed word gives its fields back (30_encoding.md R68). -/
theorem fields_pack : fields k (pack k x) = x := by
  have hsdp : (pack k x).extractLsb' k.sdpLo k.fmt.sdpw = x.sdp :=
    extractLsb'_pack_of_claim hk hx fun i => by simp [claims]
  have hct : (pack k x).getLsbD k.ctPos = x.ct := getLsbD_pack_of_bit_claim hk hx (by simp [claims])
  have hef : (pack k x).getLsbD k.efPos = x.ef := getLsbD_pack_of_bit_claim hk hx (by simp [claims])
  have ht : (pack k x).extractLsb' k.tLo k.fmt.tw = x.t := extractLsb'_pack_of_claim hk hx fun i => by simp [claims]
  have hb : (pack k x).extractLsb' k.bLo k.fmt.mw = x.b := extractLsb'_pack_of_claim hk hx fun i => by simp [claims]
  rw [fields, hsdp, codeOf_pack hk hx, hct, hef, ht, hb, reservedOf_pack hx]

end

/-- Settles O34: fields_pack. -/
theorem fieldsOfPack : Obligations.FieldsOfPack := fun _ _ hk hx => fields_pack hk hx

end Sys2Proof.Machine


/-! SUPPORT and PROOFS. The permission codec (40_permissions.md): sets by their names, the table codec of C64R, the bit map
of C128R, and the ordered fix-up rules. -/

namespace Sys2Proof

/-! ## Permission sets (00_scope.md R12) -/

namespace PermSet

/-- The set of a test has the names that satisfy it. -/
@[simp] theorem has_ofTest (f : Perm → Bool) (p : Perm) : (ofTest f).has p = f p := by
  cases p <;> rfl

/-- Two sets with the same names are equal. -/
theorem ext_has {a b : PermSet} (h : ∀ p, a.has p = b.has p) : a = b := by
  cases a
  cases b
  rw [mk.injEq]
  exact ⟨h .x, h .r, h .w, h .c, h .lm, h .asr, h .el, h .sl⟩

/-- Every name is listed. -/
theorem mem_all (p : Perm) : p ∈ Perm.all := by
  cases p <;> decide

/-- The test of inclusion decides inclusion. -/
theorem subset_iff (a b : PermSet) : a.subset b = true ↔ ∀ p, a.has p = true → b.has p = true := by
  simp only [subset, List.all_eq_true, mem_all, forall_const, Bool.or_eq_true, Bool.not_eq_true', ← Bool.not_eq_true,
    imp_iff_not_or]

/-- The empty set has no name. -/
@[simp] theorem has_ofList_nil (p : Perm) : (ofList []).has p = false := by
  simp [ofList]

end PermSet

namespace Machine

/-! ## What the commands answer (40_permissions.md R92, R94, R97, R99) -/

/-- PERM_ENCODE answers the code of its operands. -/
theorem exec_permEncode {s : State} {code : BitVec s.cfg.fmt.apw}
    (h : permEncode s.cfg s.operands.set s.operands.m s.operands.lvb = code) :
    exec .permEncode s = .next { s with response := some (.returned (.code code)) } := by
  subst h
  rfl

/-- PERM_DECODE answers the set and m of its operand. -/
theorem exec_permDecode {s : State} {set : PermSet} {m : Bool}
    (h : permDecode s.cfg s.operands.code s.operands.lvb = (set, m)) :
    exec .permDecode s = .next { s with response := some (.returned (.perms set m)) } := by
  rw [exec, execPermDecode, h]
  rfl

/-- Settles O33: the command tests inclusion in the permissions of the word, and the empty set has no name. -/
theorem capHasPermsIsInclusion : Obligations.CapHasPermsIsInclusion := by
  intro s
  refine ⟨_, rfl, PermSet.subset_iff _ _, fun hreq => ?_⟩
  simp [PermSet.subset_iff, hreq]

/-! ## The C64R table (40_permissions.md R91 to R95) -/

section

variable {k : Config} (hf : k.fmt = .c64r)
include hf

/-- A C64R code decodes through the table entry it is the index of. -/
theorem permDecode_c64r {code : BitVec k.fmt.apw} {i : Fin 32} (hi : code.toNat = i.val) (lvb : Bool) :
    permDecode k code lvb = permDecode64 k (BitVec.ofFin (w := 5) i) lvb := by
  simp only [permDecode, hf, hi]
  congr 1
  exact BitVec.eq_of_toNat_eq (Nat.mod_eq_of_lt i.isLt)

/-- The code of a Used entry decodes to what the entry holds. -/
theorem permDecode_of_used {code : BitVec k.fmt.apw} {i : Fin 32} {lvb : Bool} {set : PermSet} {m : Bool}
    (hi : code.toNat = i.val) (h : k.apEntry lvb i = .used set m) : permDecode k code lvb = (set, m) := by
  have hentry : (k.apEntries lvb)[(BitVec.ofFin (w := 5) i).toNat] = .used set m := h
  simp only [permDecode_c64r hf hi, permDecode64, hentry]

/-- The code of an Unused entry decodes to the fallback. -/
theorem permDecode_of_unused {code : BitVec k.fmt.apw} {i : Fin 32} {lvb : Bool} (hi : code.toNat = i.val)
    (h : k.apEntry lvb i = .unused) : permDecode k code lvb = fallback k i.val lvb := by
  have hentry : (k.apEntries lvb)[(BitVec.ofFin (w := 5) i).toNat] = .unused := h
  simp only [permDecode_c64r hf hi, permDecode64, hentry]
  rfl

end

/-- An Unused code of Q0 falls back to no permissions (40_permissions.md R93). -/
theorem fallback_q0 (k : Config) {code : Nat} (h : code < 8) (lvb : Bool) :
    fallback k code lvb = (.ofList [], k.fallbackM) := by
  rw [fallback, Nat.div_eq_of_lt h]
  rfl

/-- An Unused code of Q2 or Q3 falls back to FULL(lvb) (40_permissions.md R93). -/
theorem fallback_q2_q3 (k : Config) {code : Nat} (h : 16 ≤ code) (lvb : Bool) :
    fallback k code lvb = (fullSet k lvb, k.fallbackM) := by
  obtain ⟨q, hq⟩ : ∃ q, code / 8 = q + 2 := ⟨code / 8 - 2, by omega⟩
  rw [fallback, hq]
  rfl

/-- Settles O30: the fallback of the entry's quadrant. -/
theorem fallbackAsymmetry : Obligations.FallbackAsymmetry := by
  intro s hf i hi hunused
  have hdecode := permDecode_of_unused hf hi hunused
  exact ⟨fun hq => exec_permDecode (hdecode.trans (fallback_q0 _ hq _)),
    fun hq => exec_permDecode (hdecode.trans (fallback_q2_q3 _ hq _))⟩

/-- A pair a Used entry holds is encoded to that entry's index, the only one by constraint T1 (40_permissions.md R91). -/
theorem permEncode64_of_used {k : Config} (hinj : k.TableInjective) {lvb : Bool} {i : Fin 32} {set : PermSet} {m : Bool}
    (h : k.apEntry lvb i = .used set m) : permEncode64 k set m lvb = i.val := by
  have hfind : (k.apEntries lvb).toList.findIdx? (· = .used set m) = some i.val := by
    rw [List.findIdx?_eq_some_iff_getElem]
    refine ⟨by simp, by simpa [Config.apEntry] using h, fun j hj => ?_⟩
    have hne : k.apEntry lvb ⟨j, hj.trans i.isLt⟩ ≠ .used set m := fun hheld =>
      hj.ne (congrArg Fin.val (hinj lvb _ i set m hheld h))
    simpa [Config.apEntry] using hne
  rw [permEncode64, hfind, Option.getD_some]

/-- A pair no Used entry holds is encoded to 0 (40_permissions.md R95). -/
theorem permEncode64_of_forall_ne {k : Config} {lvb : Bool} {set : PermSet} {m : Bool}
    (h : ∀ i, k.apEntry lvb i ≠ .used set m) : permEncode64 k set m lvb = 0 := by
  have hfind : (k.apEntries lvb).toList.findIdx? (· = .used set m) = none := by
    rw [List.findIdx?_eq_none_iff]
    intro e he
    obtain ⟨i, hi, rfl⟩ := List.getElem_of_mem he
    simpa [Config.apEntry] using h ⟨i, by simpa using hi⟩
  rw [permEncode64, hfind, Option.getD_none]

/-- The C64R code is the table's. -/
theorem permEncode_c64r {k : Config} (hf : k.fmt = .c64r) (set : PermSet) (m lvb : Bool) :
    permEncode k set m lvb = BitVec.ofNat _ (permEncode64 k set m lvb) := by
  simp only [permEncode, hf]

/-- A table index is a code of its own. -/
theorem toNat_ofNat_tableIndex {k : Config} (hf : k.fmt = .c64r) (i : Fin 32) :
    (BitVec.ofNat k.fmt.apw i.val).toNat = i.val := by
  simp only [hf, BitVec.toNat_ofNat]
  exact Nat.mod_eq_of_lt i.isLt

/-- Settles O31: the code of the entry that holds the pair, 0 without one, and the decode of a Used entry. -/
theorem permCodecC64R : Obligations.PermCodecC64R := by
  intro s hk hf
  refine ⟨fun i h => exec_permEncode ?_, fun h => exec_permEncode ?_, fun i set m hi h => exec_permDecode ?_⟩
  · rw [permEncode_c64r hf, permEncode64_of_used (hk.c64 hf).injective h]
  · rw [permEncode_c64r hf, permEncode64_of_forall_ne h]
  · exact permDecode_of_used hf hi h

/-- In C64R a non-zero code decodes back: it is the index of a Used entry that holds the pair (40_permissions.md R100). -/
theorem permDecode_permEncode_c64r {k : Config} (hk : k.Valid) (hf : k.fmt = .c64r) {set : PermSet} {m lvb : Bool}
    (h : permEncode k set m lvb ≠ BitVec.ofNat _ 0) : permDecode k (permEncode k set m lvb) lvb = (set, m) := by
  rw [permEncode_c64r hf] at h ⊢
  by_cases hheld : ∃ i, k.apEntry lvb i = .used set m
  · obtain ⟨i, hi⟩ := hheld
    rw [permEncode64_of_used (hk.c64 hf).injective hi]
    exact permDecode_of_used hf (toNat_ofNat_tableIndex hf i) hi
  · exact absurd (congrArg (BitVec.ofNat _) (permEncode64_of_forall_ne (not_exists.1 hheld))) h

/-! ## The names AP128_MAP gives a bit (40_permissions.md R90, R96) -/

/-- The names of C128R. -/
def sixNames : List Perm := [.x, .r, .w, .c, .lm, .asr]

/-- A name with a bit is one of the six. -/
theorem mem_sixNames_of_apBit? {k : Config} {p : Perm} {n : Nat} (h : k.apBit? p = some n) : p ∈ sixNames := by
  cases p <;> simp [Config.apBit?, sixNames] at h ⊢

/-- The six names have the six numbers of AP128_MAP. -/
theorem map_apBit?_sixNames (k : Config) :
    sixNames.map k.apBit? =
      [k.ap128Map.x, k.ap128Map.r, k.ap128Map.w, k.ap128Map.c, k.ap128Map.lm, k.ap128Map.asr].map (some ·.val) := rfl

/-- A name's bit is below 6. -/
theorem lt_of_apBit? {k : Config} {p : Perm} {n : Nat} (h : k.apBit? p = some n) : n < 6 := by
  have hmem := List.mem_map_of_mem (f := k.apBit?) (mem_sixNames_of_apBit? h)
  rw [h, map_apBit?_sixNames, List.mem_map] at hmem
  obtain ⟨i, -, hi⟩ := hmem
  exact Option.some.inj hi ▸ i.isLt

/-- No two names have the same bit. -/
theorem apBit?_injective {k : Config} (hk : k.Ap128Ok) {p q : Perm} {n : Nat} (hp : k.apBit? p = some n)
    (hq : k.apBit? q = some n) : p = q := by
  have hnodup : (sixNames.map k.apBit?).Nodup := by
    rw [map_apBit?_sixNames]
    exact List.Nodup.map ((Option.some_injective _).comp Fin.val_injective) hk
  exact List.inj_on_of_nodup_map hnodup (mem_sixNames_of_apBit? hp) (mem_sixNames_of_apBit? hq) (hp.trans hq.symm)

/-- Every bit below 6 is some name's: six different bits are all six. -/
theorem exists_apBit?_eq {k : Config} (hk : k.Ap128Ok) {n : Nat} (hn : n < 6) :
    ∃ p ∈ sixNames, k.apBit? p = some n := by
  have huniv := Finset.eq_univ_of_card _ (List.toFinset_card_of_nodup hk)
  have hmem := List.mem_toFinset.1 (huniv ▸ Finset.mem_univ (⟨n, hn⟩ : Fin 6))
  rw [← List.mem_map, map_apBit?_sixNames]
  exact List.mem_map_of_mem (f := (some ·.val)) hmem

/-- A name without a bit is EL or SL. -/
theorem apBit?_eq_none_iff (k : Config) (p : Perm) : k.apBit? p = none ↔ p = .el ∨ p = .sl := by
  cases p <;> simp [Config.apBit?]

/-- A set without EL and SL has no name without a bit. -/
theorem has_eq_false_of_apBit?_eq_none {k : Config} {set : PermSet} {p : Perm} (hel : set.el = false)
    (hsl : set.sl = false) (h : k.apBit? p = none) : set.has p = false := by
  rcases (apBit?_eq_none_iff k p).1 h with rfl | rfl
  · exact hel
  · exact hsl

/-! ## The C128R code (40_permissions.md R94 to R96) -/

/-- The bits of a number after some names' bits were set in it. -/
theorem testBit_foldl_setBits (set : PermSet) (bitOf : Perm → Nat) (l : List Perm) (acc n : Nat) :
    (l.foldl (fun acc p => if set.has p then acc ||| 1 <<< bitOf p else acc) acc).testBit n = true ↔
      acc.testBit n = true ∨ ∃ p ∈ l, set.has p = true ∧ bitOf p = n := by
  induction l generalizing acc with
  | nil => simp
  | cons p l ih =>
    rw [List.foldl_cons, ih]
    cases hp : set.has p <;> simp [hp, Nat.one_shiftLeft, Nat.testBit_two_pow, or_assoc]

/-- A set with EL or SL has no C128R code (40_permissions.md R95). -/
theorem permEncode128_of_el_or_sl (k : Config) {set : PermSet} (h : set.el = true ∨ set.sl = true) (m : Bool) :
    permEncode128 k set m = 0 := by
  refine if_pos (List.any_eq_true.2 ?_)
  rcases h with h | h
  · exact ⟨.el, PermSet.mem_all _, by simp [PermSet.has, h, Config.apBit?]⟩
  · exact ⟨.sl, PermSet.mem_all _, by simp [PermSet.has, h, Config.apBit?]⟩

section

variable {k : Config} {set : PermSet} (hel : set.el = false) (hsl : set.sl = false)
include hel hsl

/-- The bits of the C128R code: M as bit 6 and the bit of each of the set's names. -/
theorem testBit_permEncode128 (m : Bool) (n : Nat) :
    (permEncode128 k set m).testBit n = true ↔
      (n = 6 ∧ m = true) ∨ ∃ p, set.has p = true ∧ k.apBit? p = some n := by
  have hbit {p : Perm} (hp : set.has p = true) : ∃ b, k.apBit? p = some b :=
    Option.ne_none_iff_exists'.1 fun hnone => by simp [has_eq_false_of_apBit?_eq_none hel hsl hnone] at hp
  have hM : (m.toNat <<< 6).testBit n = true ↔ n = 6 ∧ m = true := by
    rw [Nat.testBit_shiftLeft, Nat.testBit_bool_toNat]
    cases m with
    | false => simp
    | true =>
      simp only [ge_iff_le, Bool.and_true, Bool.and_eq_true, decide_eq_true_eq, and_true]
      omega
  rw [permEncode128, if_neg, testBit_foldl_setBits, hM]
  · refine or_congr_right (exists_congr fun p => ?_)
    simp only [PermSet.mem_all, true_and]
    refine and_congr_right fun hp => ?_
    obtain ⟨b, hb⟩ := hbit hp
    simp [hb]
  · intro hany
    obtain ⟨p, -, hp⟩ := List.any_eq_true.1 hany
    obtain ⟨hhas, hnone⟩ := Bool.and_eq_true_iff.1 hp
    obtain ⟨b, hb⟩ := hbit hhas
    simp [hb] at hnone

/-- Bit 6 of the C128R code is M. -/
theorem testBit_six_permEncode128 (m : Bool) : (permEncode128 k set m).testBit 6 = m := by
  rw [Bool.eq_iff_iff, testBit_permEncode128 hel hsl]
  refine ⟨fun h => (h.resolve_right ?_).2, fun hm => .inl ⟨rfl, hm⟩⟩
  rintro ⟨p, -, hp⟩
  exact absurd (lt_of_apBit? hp) (by decide)

/-- The bit of a name in the C128R code is its membership. -/
theorem testBit_permEncode128_of_apBit? (hk : k.Ap128Ok) (m : Bool) {p : Perm} {n : Nat} (hp : k.apBit? p = some n) :
    (permEncode128 k set m).testBit n = set.has p := by
  rw [Bool.eq_iff_iff, testBit_permEncode128 hel hsl]
  constructor
  · rintro (⟨rfl, -⟩ | ⟨q, hq, hqn⟩)
    · exact absurd (lt_of_apBit? hp) (by decide)
    · exact apBit?_injective hk hp hqn ▸ hq
  · exact fun hset => .inr ⟨p, hset, hp⟩

end

/-- The C128R code has seven bits. -/
theorem permEncode128_lt (k : Config) (set : PermSet) (m : Bool) : permEncode128 k set m < 2 ^ 7 := by
  by_cases h : set.el = true ∨ set.sl = true
  · rw [permEncode128_of_el_or_sl k h]
    decide
  · rw [not_or, Bool.not_eq_true, Bool.not_eq_true] at h
    refine Nat.lt_pow_two_of_testBit _ fun n hn => Bool.eq_false_iff.2 fun hbit => ?_
    rcases (testBit_permEncode128 h.1 h.2 m n).1 hbit with ⟨rfl, -⟩ | ⟨p, -, hp⟩
    · omega
    · have := lt_of_apBit? hp
      omega

/-- The full set with m = 0 has the code 0x3F under every bijection (40_permissions.md R96). -/
theorem permEncode128_sixPerms {k : Config} (hk : k.Ap128Ok) : permEncode128 k sixPerms false = 0x3F := by
  refine Nat.eq_of_testBit_eq fun n => ?_
  rw [show 0x3F = 2 ^ 6 - 1 from rfl, Nat.testBit_two_pow_sub_one, Bool.eq_iff_iff, testBit_permEncode128 rfl rfl,
    decide_eq_true_eq]
  constructor
  · rintro (⟨-, hm⟩ | ⟨p, -, hp⟩)
    · cases hm
    · exact lt_of_apBit? hp
  · intro hn
    obtain ⟨p, hmem, hp⟩ := exists_apBit?_eq hk hn
    exact .inr ⟨p, by simpa [sixPerms, PermSet.ofList, sixNames] using hmem, hp⟩

/-- The C128R code as a number. -/
theorem toNat_permEncode_c128r {k : Config} (hf : k.fmt = .c128r) (set : PermSet) (m lvb : Bool) :
    (permEncode k set m lvb).toNat = permEncode128 k set m := by
  simp only [permEncode, hf, BitVec.toNat_ofNat]
  exact Nat.mod_eq_of_lt (permEncode128_lt k set m)

/-- Settles O28: the bits of the C128R code. -/
theorem permEncodeC128R : Obligations.PermEncodeC128R := by
  intro s hk hf
  refine ⟨_, exec_permEncode rfl, ?_⟩
  rw [toNat_permEncode_c128r hf]
  refine ⟨fun h => permEncode128_of_el_or_sl _ h _, fun hel hsl => ⟨?_, fun p n hp => ?_, fun hset hm => ?_⟩⟩
  · exact testBit_six_permEncode128 hel hsl _
  · exact testBit_permEncode128_of_apBit? hel hsl (hk.ap128 hf) _ hp
  · rw [hset, hm, permEncode128_sixPerms (hk.ap128 hf)]

/-! ## The C128R decode (40_permissions.md R92) -/

/-- The C128R decode is that of the code's bits, whatever lvb. -/
theorem permDecode_c128r {k : Config} (hf : k.fmt = .c128r) (code : BitVec k.fmt.apw) (lvb : Bool) :
    permDecode k code lvb = permDecode128 k code.toNat := by
  simp only [permDecode, hf]

/-- A name is decoded from its bit. -/
theorem has_permDecode128 {k : Config} {p : Perm} {n : Nat} (h : k.apBit? p = some n) (code : Nat) :
    (permDecode128 k code).1.has p = code.testBit n := by
  simp only [permDecode128, PermSet.has_ofTest, h]

/-- A name without a bit is never decoded. -/
theorem has_permDecode128_of_none {k : Config} {p : Perm} (h : k.apBit? p = none) (code : Nat) :
    (permDecode128 k code).1.has p = false := by
  simp only [permDecode128, PermSet.has_ofTest, h]

/-- Settles O29: the C128R decode by names. -/
theorem permDecodeC128R : Obligations.PermDecodeC128R := by
  intro s hf
  refine ⟨_, _, ?_, rfl, ?_, ?_, fun p n hp => has_permDecode128 hp _⟩
  · rintro lvb o rfl
    exact exec_permDecode (permDecode_c128r hf _ _)
  · exact has_permDecode128_of_none (p := .el) rfl _
  · exact has_permDecode128_of_none (p := .sl) rfl _

/-- In C128R the code of a set without EL and SL decodes back (40_permissions.md R100). -/
theorem permDecode_permEncode_c128r {k : Config} (hk : k.Valid) (hf : k.fmt = .c128r) {set : PermSet}
    (hel : set.el = false) (hsl : set.sl = false) (m lvb : Bool) :
    permDecode k (permEncode k set m lvb) lvb = (set, m) := by
  rw [permDecode_c128r hf, toNat_permEncode_c128r hf]
  refine Prod.ext (PermSet.ext_has fun p => ?_) (testBit_six_permEncode128 hel hsl m)
  cases hp : k.apBit? p with
  | some n => rw [has_permDecode128 hp, testBit_permEncode128_of_apBit? hel hsl (hk.ap128 hf) m hp]
  | none => rw [has_permDecode128_of_none hp, has_eq_false_of_apBit?_eq_none hel hsl hp]

/-! ## Both formats (40_permissions.md R95, R100) -/

/-- A non-zero code decodes back (40_permissions.md R100). -/
theorem permDecode_permEncode {k : Config} (hk : k.Valid) {set : PermSet} {m lvb : Bool}
    (h : permEncode k set m lvb ≠ BitVec.ofNat _ 0) : permDecode k (permEncode k set m lvb) lvb = (set, m) := by
  rcases fmt_cases k.fmt with hf | hf
  · exact permDecode_permEncode_c64r hk hf h
  · have hcode : permEncode128 k set m ≠ 0 := fun h0 =>
      h (BitVec.eq_of_toNat_eq (by rw [toNat_permEncode_c128r hf, h0, BitVec.toNat_ofNat, Nat.zero_mod]))
    have hbits := mt (permEncode128_of_el_or_sl k · m) hcode
    rw [not_or, Bool.not_eq_true, Bool.not_eq_true] at hbits
    exact permDecode_permEncode_c128r hk hf hbits.1 hbits.2 m lvb

/-- Settles O27: permDecode_permEncode. -/
theorem permDecodeOfEncode : Obligations.PermDecodeOfEncode := by
  intro s hk
  refine ⟨_, exec_permEncode rfl, ?_⟩
  rintro hcode o rfl
  exact exec_permDecode (permDecode_permEncode hk hcode)

/-- A pair no Used entry holds has the code 0 (40_permissions.md R95). -/
theorem toNat_permEncode_of_forall_ne {k : Config} (hf : k.fmt = .c64r) {lvb : Bool} {set : PermSet} {m : Bool}
    (h : ∀ i, k.apEntry lvb i ≠ .used set m) : (permEncode k set m lvb).toNat = 0 := by
  rw [permEncode_c64r hf, permEncode64_of_forall_ne h, BitVec.toNat_ofNat, Nat.zero_mod]

/-- Settles O60: no Used entry holds C without R or W, and the C128R code of a set without EL and SL decodes back. -/
theorem invalidCombinationsEncodeToZero : Obligations.InvalidCombinationsEncodeToZero := by
  intro s hk
  refine ⟨_, exec_permEncode rfl, fun hf => ⟨fun hc hr hw => ?_, toNat_permEncode_of_forall_ne hf⟩,
    fun hf => ⟨fun h => ?_, ?_⟩⟩
  · refine toNat_permEncode_of_forall_ne hf fun i hi => ?_
    have hrw := (hk.c64 hf).noBareC _ _ _ _ hi hc
    simp [hr, hw] at hrw
  · rw [toNat_permEncode_c128r hf, permEncode128_of_el_or_sl _ h]
  · rintro hel hsl o rfl
    exact exec_permDecode (permDecode_permEncode_c128r hk hf hel hsl _ _)

/-! ## The fix-up rules in order (40_permissions.md R97) -/

/-- Two pairs (m, set) with the same bits are equal. -/
theorem eq_of_isIn {x y : Bool × PermSet} (h : ∀ t : FixTarget, t.isIn x = true ↔ t.isIn y = true) : x = y :=
  Prod.ext (Bool.eq_iff_iff.2 (h .m)) (PermSet.ext_has fun p => Bool.eq_iff_iff.2 (h (.perm p)))

/-- A rule sets no bit. -/
theorem isIn_of_isIn_applyRule {k : Config} {x : Bool × PermSet} {r : FixupRule} {t : FixTarget}
    (h : t.isIn (applyRule k x r) = true) : t.isIn x = true :=
  ((isIn_applyRule k x r t).1 h).1

/-- A run of rules sets no bit. -/
theorem isIn_of_isIn_foldl {k : Config} {rs : List FixupRule} {x : Bool × PermSet} {t : FixTarget}
    (h : t.isIn (rs.foldl (applyRule k) x) = true) : t.isIn x = true := by
  induction rs generalizing x with
  | nil => exact h
  | cons r rs ih => exact isIn_of_isIn_applyRule (ih h)

/-- A run of rules clears only what an applicable one of them targets. -/
theorem exists_target_of_isIn_foldl_ne {k : Config} {rs : List FixupRule} {x : Bool × PermSet} {t : FixTarget}
    (h : t.isIn (rs.foldl (applyRule k) x) ≠ t.isIn x) :
    ∃ r ∈ rs, k.ruleApplies r = true ∧ r.target = t := by
  induction rs generalizing x with
  | nil => exact absurd rfl h
  | cons r rs ih =>
    by_cases hr : t.isIn (applyRule k x r) = t.isIn x
    · obtain ⟨r', hmem, hr'⟩ := ih (x := applyRule k x r) (by rwa [hr])
      exact ⟨r', List.mem_cons_of_mem r hmem, hr'⟩
    · rw [Bool.eq_iff_iff, isIn_applyRule, and_iff_left_iff_imp, Classical.not_imp, not_not] at hr
      obtain ⟨-, htarget, happlies, -⟩ := hr
      exact ⟨r, List.mem_cons_self, happlies, htarget.symm⟩

/-- A rule leaves a pair exactly where it does not apply, its requirement holds or its target is absent. -/
theorem applyRule_eq_self_iff (k : Config) (x : Bool × PermSet) (r : FixupRule) :
    applyRule k x r = x ↔
      (k.ruleApplies r = true → r.requires.holds x.1 x.2 = true ∨ r.target.isIn x = false) := by
  constructor
  · intro h happlies
    by_contra hne
    rw [not_or, Bool.not_eq_true, Bool.not_eq_false] at hne
    exact ((isIn_applyRule k x r r.target).1 (by rw [h, hne.2])).2 ⟨rfl, happlies, hne.1⟩
  · intro h
    refine eq_of_isIn fun t => ?_
    rw [isIn_applyRule, and_iff_left_iff_imp]
    rintro ht ⟨rfl, happlies, hreq⟩
    simpa [hreq, ht] using h happlies

/-- A run of rules leaves a pair exactly where each of them does: no later rule restores what one cleared. -/
theorem foldl_applyRule_eq_self_iff (k : Config) (rs : List FixupRule) (x : Bool × PermSet) :
    rs.foldl (applyRule k) x = x ↔ ∀ r ∈ rs, applyRule k x r = x := by
  induction rs with
  | nil => simp
  | cons r rs ih =>
    rw [List.foldl_cons, List.forall_mem_cons, ← ih]
    constructor
    · intro h
      have hr : applyRule k x r = x := eq_of_isIn fun t =>
        ⟨isIn_of_isIn_applyRule, fun ht => isIn_of_isIn_foldl (rs := rs) (by rwa [h])⟩
      exact ⟨hr, by rwa [hr] at h⟩
    · rintro ⟨hr, hrs⟩
      rwa [hr]

/-- A rule of the list clears its target, wherever it stands, if its requirement fails of every pair below the
request. -/
theorem target_isIn_foldl_eq_false {k : Config} {rs : List FixupRule} {x : Bool × PermSet} {r : FixupRule} (hr : r ∈ rs)
    (happlies : k.ruleApplies r = true)
    (hreq : ∀ y : Bool × PermSet, (∀ t : FixTarget, t.isIn y = true → t.isIn x = true) →
      r.requires.holds y.1 y.2 = false) :
    r.target.isIn (rs.foldl (applyRule k) x) = false := by
  obtain ⟨before, after, rfl⟩ := List.append_of_mem hr
  rw [List.foldl_append, List.foldl_cons]
  refine Bool.eq_false_iff.2 fun h => ?_
  have hkept := (isIn_applyRule ..).1 (isIn_of_isIn_foldl h)
  exact hkept.2 ⟨rfl, happlies, hreq _ fun _ => isIn_of_isIn_foldl⟩

/-- A rule for every format and every LVB applies whatever the configuration. -/
theorem ruleApplies_everywhere (k : Config) (target : FixTarget) (requires : Cond) :
    k.ruleApplies (.everywhere target requires) = true := by
  simp only [Config.ruleApplies, FixupRule.everywhere]
  cases k.fmt <;> simp

/-- What the pair is before rule i of the list (40_permissions.md R97). -/
def fixupBefore (k : Config) (x : Bool × PermSet) (i : Nat) : Bool × PermSet :=
  (k.fixupRules.take i).foldl (applyRule k) x

/-- After the last rule stands the result. -/
theorem fixupBefore_length (k : Config) (m : Bool) (set : PermSet) :
    fixupBefore k (m, set) k.fixupRules.length = permFixup k m set := by
  rw [fixupBefore, List.take_length, permFixup]

/-- Rule i runs on what the rules before it left. -/
theorem fixupBefore_succ {k : Config} (x : Bool × PermSet) {i : Nat} {r : FixupRule} (hr : k.fixupRules[i]? = some r) :
    fixupBefore k x (i + 1) = applyRule k (fixupBefore k x i) r := by
  simp [fixupBefore, List.take_add_one, hr, List.foldl_append]

/-! ## The pinned rules (40_permissions.md R98) -/

section

variable {k : Config} (hk : k.FixupOk) (m : Bool) {set : PermSet}
include hk

/-- F3: without X there is no M in the result. -/
theorem permFixup_m_eq_false (hx : set.x = false) : (permFixup k m set).1 = false := by
  obtain ⟨-, -, -, hf3⟩ := hk
  refine target_isIn_foldl_eq_false hf3 (ruleApplies_everywhere ..) fun y hy => ?_
  exact Bool.eq_false_iff.2 fun h => by simpa [FixTarget.isIn, PermSet.has, hx] using hy (.perm .x) h

/-- F2: without R and W there is no C in the result. -/
theorem permFixup_c_eq_false (hr : set.r = false) (hw : set.w = false) : (permFixup k m set).2.c = false := by
  obtain ⟨-, -, hf2, -⟩ := hk
  refine target_isIn_foldl_eq_false hf2 (ruleApplies_everywhere ..) fun y hy => ?_
  refine Bool.eq_false_iff.2 fun h => ?_
  rcases Bool.or_eq_true_iff.1 h with h | h
  · simpa [FixTarget.isIn, PermSet.has, hr] using hy (.perm .r) h
  · simpa [FixTarget.isIn, PermSet.has, hw] using hy (.perm .w) h

/-- F1: without any of C, R, W, X there is no ASR in the result. -/
theorem permFixup_asr_eq_false
    (hany : set.c = false ∨ set.r = false ∨ set.w = false ∨ set.x = false) : (permFixup k m set).2.asr = false := by
  obtain ⟨-, hf1, -, -⟩ := hk
  refine target_isIn_foldl_eq_false hf1 (ruleApplies_everywhere ..) fun y hy => ?_
  refine Bool.eq_false_iff.2 fun h => ?_
  simp only [FixupRule.f1, FixupRule.everywhere, Cond.holds, Bool.and_eq_true] at h
  obtain ⟨⟨hc, hr⟩, hw, hx⟩ := h
  have hc : set.c = true := hy (.perm .c) hc
  have hr : set.r = true := hy (.perm .r) hr
  have hw : set.w = true := hy (.perm .w) hw
  have hx : set.x = true := hy (.perm .x) hx
  simp [hc, hr, hw, hx] at hany

end

/-- Settles O32: the rules run in list order, each as isIn_applyRule says. -/
theorem permFixupClears : Obligations.PermFixupClears := by
  intro s
  refine ⟨fixupBefore s.cfg (s.operands.m, s.operands.set), permFixup s.cfg s.operands.m s.operands.set, rfl, rfl,
    fixupBefore_length .., fun i r hr t => ?_, fun t => isIn_of_isIn_foldl, fun t => exists_target_of_isIn_foldl_ne,
    ?_, fun hk => ?_⟩
  · rw [fixupBefore_succ _ hr, isIn_applyRule]
  · simp only [permFixup, foldl_applyRule_eq_self_iff, applyRule_eq_self_iff]
  · exact ⟨permFixup_m_eq_false hk.fixup _, permFixup_c_eq_false hk.fixup _, permFixup_asr_eq_false hk.fixup _⟩

end Machine
end Sys2Proof


/-! SUPPORT and PROOFS. The bounds codec's decoder (41_bounds.md R112 to R115, R120 to R122). In units of 2^E the
address line is cut into windows of 2^MW points, each from a point congruent to the edge R to the next: a bound is the one
point of the address's window that is congruent to its mantissa. -/

namespace Sys2Proof.Machine

/-! ## Windows of a line of integers -/

/-- The lowest point of the window of x, where the points congruent to the edge modulo M start the windows. -/
def windowStart (M edge x : Int) : Int := x - (x - edge) % M

section

variable {M edge x : Int}

/-- A window starts at or below its points. -/
theorem windowStart_le (hM : 0 < M) : windowStart M edge x ≤ x := by
  have := Int.emod_nonneg (x - edge) hM.ne'
  unfold windowStart
  omega

/-- A window ends above its points. -/
theorem lt_windowStart_add (hM : 0 < M) : x < windowStart M edge x + M := by
  have := Int.emod_lt_of_pos (x - edge) hM
  unfold windowStart
  omega

/-- A window starts at a point congruent to the edge. -/
theorem windowStart_modEq : windowStart M edge x ≡ edge [ZMOD M] := by
  have h := (Int.mod_modEq (x - edge) M).sub_left x
  rwa [sub_sub_cancel] at h

/-- The window of x starts at z if z is congruent to the edge and x lies less than M above it. -/
theorem windowStart_eq_of_modEq {z : Int} (hz : z ≡ edge [ZMOD M]) (hle : z ≤ x) (hlt : x < z + M) :
    windowStart M edge x = z := by
  have h : (x - edge) % M = (x - z) % M := (hz.symm.sub_left x)
  rw [windowStart, h, Int.emod_eq_of_lt (by omega) (by omega), sub_sub_cancel]

/-- The distance from the edge up to a point of the same block of M, modulo M. -/
theorem sub_emod_eq_ite {m : Int} (hm : 0 ≤ m) (hmM : m < M) (he : 0 ≤ edge) (heM : edge < M) :
    (m - edge) % M = m - edge + M * (if m < edge then 1 else 0) := by
  split
  · rw [← Int.add_emod_right, Int.emod_eq_of_lt (by omega) (by omega), mul_one]
  · rw [Int.emod_eq_of_lt (by omega) (by omega), mul_zero, add_zero]

/-- A mantissa spliced under the high part of x, with the correction carry, is the point of the window of x that is
congruent to the mantissa (41_bounds.md R113). -/
theorem splice_eq_windowStart_add {m : Int} (hm : 0 ≤ m) (hmM : m < M) (he : 0 ≤ edge) (heM : edge < M) :
    (x / M + ((if m < edge then 1 else 0) - (if x % M < edge then 1 else 0))) * M + m =
      windowStart M edge x + (m - edge) % M := by
  have hM : 0 < M := he.trans_lt heM
  have hx : (x - edge) % M = x % M - edge + M * (if x % M < edge then 1 else 0) := by
    rw [← Int.emod_sub_emod, sub_emod_eq_ite (Int.emod_nonneg _ hM.ne') (Int.emod_lt_of_pos _ hM) he heM]
  rw [windowStart, hx, sub_emod_eq_ite hm hmM he heM]
  linear_combination Int.mul_ediv_add_emod x M

end

/-- The start of a block of M, modulo a multiple of M, is as many blocks as lie below. -/
theorem sub_emod_self_emod {M N z : Int} (hM : 0 < M) (hN : 0 < N) (h : M ∣ N) :
    (z - z % M) % N = M * (z % N / M) := by
  have hlow := Int.emod_emod_of_dvd z h
  have hpart := Int.mul_ediv_add_emod (z % N) M
  have hnonneg := mul_nonneg hM.le (Int.ediv_nonneg (Int.emod_nonneg z hN.ne') hM.le)
  have := Int.emod_nonneg z hM.ne'
  have := Int.emod_lt_of_pos z hN
  calc (z - z % M) % N
      = (z % N - z % M) % N := (Int.emod_sub_emod ..).symm
    _ = z % N - z % M := Int.emod_eq_of_lt (by omega) (by omega)
    _ = M * (z % N / M) := by omega

/-- A difference modulo n that natural numbers take by adding n first. -/
theorem natCast_add_sub_mod {u v n : Nat} (h : v ≤ n) : (((u + n - v) % n : Nat) : Int) = ((u : Int) - v) % n := by
  rw [Int.natCast_mod, Nat.cast_sub (by omega), Nat.cast_add, add_sub_right_comm, Int.add_emod_right]

/-! ## The widths of a format (00_scope.md R3, R7) -/

/-- The relations between the widths of a format. -/
theorem fmt_widths (f : Fmt) :
    f.tw + 2 = f.mw ∧ f.mw + f.maxE = f.aw + 2 ∧ 10 ≤ f.mw ∧ 24 ≤ f.maxE ∧ f.maxE < 2 ^ 6 := by
  cases f <;> decide

/-- A mantissa has two bits more than the T field. -/
theorem two_pow_mw (f : Fmt) : 2 ^ f.mw = 4 * 2 ^ f.tw := by
  cases f <;> rfl

/-- The edge is a quarter of the mantissas below the base mantissa (41_bounds.md R113). -/
theorem natCast_regionEdge (f : Fmt) (bm : Nat) :
    (regionEdge f bm : Int) = ((bm : Int) - (2 ^ f.tw : Nat)) % (2 ^ f.mw : Nat) :=
  natCast_add_sub_mod (Nat.pow_le_pow_right (by decide) (Nat.sub_le ..))

/-- The edge is a mantissa. -/
theorem regionEdge_lt (f : Fmt) (bm : Nat) : regionEdge f bm < 2 ^ f.mw := Nat.mod_lt _ (Nat.two_pow_pos _)

/-! ## Exponent and mantissas (41_bounds.md R112) -/

/-- The ranges of what R112 reads from a word. -/
structure Mantissas.InRange (f : Fmt) (d : Mantissas) : Prop where
  e_le : d.e ≤ f.maxE
  bm_lt : d.bm < 2 ^ f.mw
  tLow_lt : d.tLow < 2 ^ f.tw

/-- What R112 reads from fields of the two widths is in range. -/
theorem inRange_of_mantissas {f : Fmt} {ef : Bool} {t b : Nat} {d : Mantissas} (ht : t < 2 ^ f.tw) (hb : b < 2 ^ f.mw)
    (h : mantissas f ef t b = some d) : d.InRange f := by
  unfold mantissas at h
  split at h
  · cases h
    exact ⟨Nat.zero_le _, hb, ht⟩
  · split at h
    · cases h
    · cases h
      exact ⟨Nat.sub_le .., (Nat.div_mul_le_self ..).trans_lt hb, (Nat.div_mul_le_self ..).trans_lt ht⟩

/-- What R112 reads from a word is in range. -/
theorem inRange_of_mantissas? {k : Config} {p : BitVec k.fmt.aw} {d : Mantissas} (h : k.mantissas? p = some d) :
    d.InRange k.fmt :=
  inRange_of_mantissas (fields k p).t.isLt (fields k p).b.isLt h

/-- The top mantissa is a mantissa. -/
theorem topMantissa_lt {f : Fmt} {d : Mantissas} (hd : d.InRange f) : topMantissa f d < 2 ^ f.mw := by
  have htLow := hd.tLow_lt
  have hhigh : (d.bm / 2 ^ f.tw + (if d.tLow < d.bm % 2 ^ f.tw then 1 else 0) + d.lmsb) % 4 ≤ 3 := by omega
  have hmul := Nat.mul_le_mul_right (2 ^ f.tw) hhigh
  rw [two_pow_mw, topMantissa]
  omega

/-! ## The window of an address (41_bounds.md R113, R122) -/

/-- The start of the window of an address, in units of 2^E. -/
def windowAt (f : Fmt) (d : Mantissas) (a : Nat) : Int :=
  windowStart (2 ^ f.mw : Nat) (regionEdge f d.bm) (a / 2 ^ d.e : Nat)

/-- How far above the start of its window the top stands, in units of 2^E. -/
def topOffset (f : Fmt) (d : Mantissas) : Int := ((topMantissa f d : Int) - regionEdge f d.bm) % (2 ^ f.mw : Nat)

/-- A bound is assembled at its mantissa's point of the address's window. -/
theorem assemble_carry {f : Fmt} {d : Mantissas} {mant : Nat} (hm : mant < 2 ^ f.mw) (a : Nat) :
    assemble f d.e a mant (carry (regionEdge f d.bm) ((a >>> d.e) % 2 ^ f.mw) mant) =
      (2 ^ d.e : Nat) * (windowAt f d a + ((mant : Int) - regionEdge f d.bm) % (2 ^ f.mw : Nat)) := by
  have hedge := regionEdge_lt f d.bm
  rw [windowAt, ← splice_eq_windowStart_add (by omega) (by omega) (by omega) (by omega), assemble, carry,
    Nat.shiftRight_add, Nat.shiftRight_eq_div_pow, Nat.shiftRight_eq_div_pow, pow_add]
  simp only [← Int.natCast_mod, Nat.cast_lt]
  push_cast
  ring

/-- The base mantissa stands a quarter of the mantissas above the edge. -/
theorem bm_sub_regionEdge_emod (f : Fmt) (bm : Nat) :
    ((bm : Int) - regionEdge f bm) % (2 ^ f.mw : Nat) = (2 ^ f.tw : Nat) := by
  have := two_pow_mw f
  rw [natCast_regionEdge, Int.sub_emod_emod, sub_sub_cancel, Int.emod_eq_of_lt (by omega)]
  have := Nat.two_pow_pos f.tw
  omega

/-- The base stands a quarter of the window above its start. -/
theorem boundsAt_base {f : Fmt} {d : Mantissas} (hd : d.InRange f) (a : Nat) :
    (boundsAt f d a).base = BitVec.ofInt f.aw ((2 ^ d.e : Nat) * (windowAt f d a + (2 ^ f.tw : Nat))) := by
  rw [← bm_sub_regionEdge_emod f d.bm, ← assemble_carry hd.bm_lt]
  rfl

/-- The top stands at its offset in the window, then corrected. -/
theorem boundsAt_top {f : Fmt} {d : Mantissas} (hd : d.InRange f) (a : Nat) :
    (boundsAt f d a).top = topCorrect f (boundsAt f d a).base
      (BitVec.ofInt (f.aw + 1) ((2 ^ d.e : Nat) * (windowAt f d a + topOffset f d))) d.e := by
  rw [topOffset, ← assemble_carry (topMantissa_lt hd)]
  rfl

/-- Every word decodes with bounds_valid true (41_bounds.md R115). -/
theorem decodeBounds_valid (k : Config) (p a : BitVec k.fmt.aw) : (decodeBounds k p a).valid = true := by
  cases h : k.mantissas? p with
  | some d => rw [decodeBounds_of_some h]; rfl
  | none => rw [decodeBounds_of_none h]

/-- Bounds are equal where base, top and bounds_valid are. -/
theorem bounds_ext {f : Fmt} {x y : Bounds f} (hbase : x.base = y.base) (htop : x.top = y.top)
    (hvalid : x.valid = y.valid) : x = y := by
  cases x
  cases y
  rw [Bounds.mk.injEq]
  exact ⟨hbase, htop, hvalid⟩

/-! ## The top correction (41_bounds.md R114) -/

/-- The correction changes bit AW of the top alone. -/
theorem toNat_topCorrect_mod (f : Fmt) (base : BitVec f.aw) (top : BitVec (f.aw + 1)) (e : Nat) :
    (topCorrect f base top e).toNat % 2 ^ f.aw = top.toNat % 2 ^ f.aw := by
  unfold topCorrect
  split
  · rw [BitVec.toNat_xor, Nat.xor_mod_two_pow, BitVec.toNat_ofNat, Nat.mod_mod_of_dvd _ (pow_dvd_pow 2 (Nat.le_succ _)),
      Nat.mod_self, Nat.xor_zero]
  · rfl

/-- Below exponent MAX_E - 1 the corrected top lies in the half of the base or in the next (41_bounds.md R114). -/
theorem topCorrect_half {f : Fmt} (base : BitVec f.aw) (top : BitVec (f.aw + 1)) {e : Nat} (he : e + 1 < f.maxE) :
    ((topCorrect f base top e).toNat / 2 ^ (f.aw - 1) + 4 - base.toNat / 2 ^ (f.aw - 1)) % 4 ≤ 1 := by
  have hflip : ∀ q < 4, ∀ p < 2, (q + 4 - p) % 4 > 1 → ((q ^^^ 2) + 4 - p) % 4 ≤ 1 := by decide
  have hbase : base.toNat / 2 ^ (f.aw - 1) < 2 := Nat.div_lt_of_lt_mul (base.isLt.trans_eq (by cases f <;> rfl))
  have htop : top.toNat / 2 ^ (f.aw - 1) < 4 := Nat.div_lt_of_lt_mul (top.isLt.trans_eq (by cases f <;> rfl))
  have hbit : (BitVec.ofNat (f.aw + 1) (2 ^ f.aw)).toNat / 2 ^ (f.aw - 1) = 2 := by cases f <;> rfl
  unfold topCorrect
  split
  case isFalse h => omega
  case isTrue h =>
    rw [BitVec.toNat_xor, Nat.xor_div_two_pow, hbit]
    exact hflip _ htop _ hbase h.2

/-- A top at or above the base by less than half the space is not corrected. -/
theorem topCorrect_eq_self {f : Fmt} {base : BitVec f.aw} {top : BitVec (f.aw + 1)} {e : Nat}
    (h : base.toNat ≤ top.toNat) (hlt : e + 1 < f.maxE → top.toNat < base.toNat + 2 ^ (f.aw - 1)) :
    topCorrect f base top e = top := by
  refine if_neg ?_
  rintro ⟨he, hhalf⟩
  have := Nat.div_le_div_right (c := 2 ^ (f.aw - 1)) h
  have := Nat.div_le_div_right (c := 2 ^ (f.aw - 1)) (hlt he).le
  rw [Nat.add_div_right _ (Nat.two_pow_pos _)] at this
  omega

/-- Two tops in the half of one base or in the next are equal if they agree below bit AW. -/
theorem top_eq_of_half {f : Fmt} {base : BitVec f.aw} {top top' : BitVec (f.aw + 1)}
    (h : top.toNat % 2 ^ f.aw = top'.toNat % 2 ^ f.aw)
    (hhalf : (top.toNat / 2 ^ (f.aw - 1) + 4 - base.toNat / 2 ^ (f.aw - 1)) % 4 ≤ 1)
    (hhalf' : (top'.toNat / 2 ^ (f.aw - 1) + 4 - base.toNat / 2 ^ (f.aw - 1)) % 4 ≤ 1) : top = top' := by
  have hbase := base.isLt
  have htop := top.isLt
  have htop' := top'.isLt
  apply BitVec.eq_of_toNat_eq
  cases f <;> simp only [Fmt.aw] at * <;> omega

/-! ## Bounds in units of 2^E (41_bounds.md R113) -/

/-- An integer as a bit vector. -/
theorem toNat_ofInt_modEq (n : Nat) (z : Int) : ((BitVec.ofInt n z).toNat : Int) ≡ z [ZMOD (2 ^ n : Nat)] := by
  rw [BitVec.toNat_ofInt, Int.toNat_of_nonneg (Int.emod_nonneg _ (by positivity))]
  exact Int.mod_modEq ..

/-- The space in units of 2^e. -/
theorem two_pow_aw_eq {f : Fmt} {e : Nat} (he : e ≤ f.aw) : 2 ^ f.aw = 2 ^ e * 2 ^ (f.aw - e) := by
  rw [← pow_add, Nat.add_sub_cancel' he]

/-- Multiples of 2^e are congruent in the space where the multipliers are congruent in units of 2^e. -/
theorem mul_modEq_space_iff {f : Fmt} {e : Nat} (he : e ≤ f.aw) {y z : Int} :
    (2 ^ e : Nat) * y ≡ (2 ^ e : Nat) * z [ZMOD (2 ^ f.aw : Nat)] ↔ y ≡ z [ZMOD (2 ^ (f.aw - e) : Nat)] := by
  rw [two_pow_aw_eq he, Nat.cast_mul, Int.ModEq.mul_left_cancel_iff' (by positivity)]

/-- A number congruent in the space to a multiple of 2^e is a multiple of 2^e. -/
theorem exists_eq_mul_of_modEq {f : Fmt} {e v : Nat} (he : e ≤ f.aw) {z : Int}
    (h : (v : Int) ≡ (2 ^ e : Nat) * z [ZMOD (2 ^ f.aw : Nat)]) :
    ∃ u : Nat, v = 2 ^ e * u ∧ (u : Int) ≡ z [ZMOD (2 ^ (f.aw - e) : Nat)] := by
  have hdvd : ((2 ^ e : Nat) : Int) ∣ v := by
    have hspace : ((2 ^ e : Nat) : Int) ∣ (2 ^ f.aw : Nat) := by exact_mod_cast Dvd.intro _ (two_pow_aw_eq he).symm
    exact (h.of_dvd hspace).dvd_iff.2 (Dvd.intro _ rfl)
  obtain ⟨u, rfl⟩ := Int.natCast_dvd_natCast.1 hdvd
  rw [Nat.cast_mul, mul_modEq_space_iff he] at h
  exact ⟨u, rfl, h⟩

section

variable {f : Fmt} {d : Mantissas} (hd : d.InRange f) (a : Nat)
include hd

/-- The base is the point of its mantissa in the window of the address, in the space. -/
theorem base_modEq : ((boundsAt f d a).base.toNat : Int) ≡ (2 ^ d.e : Nat) * (windowAt f d a + (2 ^ f.tw : Nat))
    [ZMOD (2 ^ f.aw : Nat)] := by
  rw [boundsAt_base hd]
  exact toNat_ofInt_modEq ..

/-- The top is the point of its mantissa in the window of the address, in the space. -/
theorem top_modEq : ((boundsAt f d a).top.toNat : Int) ≡ (2 ^ d.e : Nat) * (windowAt f d a + topOffset f d)
    [ZMOD (2 ^ f.aw : Nat)] := by
  have hspace : ((2 ^ f.aw : Nat) : Int) ∣ (2 ^ (f.aw + 1) : Nat) :=
    Int.natCast_dvd_natCast.2 (pow_dvd_pow 2 (Nat.le_succ _))
  rw [boundsAt_top hd]
  exact (Int.natCast_modEq_iff.2 (toNat_topCorrect_mod ..)).trans ((toNat_ofInt_modEq ..).of_dvd hspace)

/-- Below exponent MAX_E - 1 the top lies in the half of the base or in the next (41_bounds.md R114). -/
theorem boundsAt_half (he : d.e + 1 < f.maxE) :
    ((boundsAt f d a).top.toNat / 2 ^ (f.aw - 1) + 4 - (boundsAt f d a).base.toNat / 2 ^ (f.aw - 1)) % 4 ≤ 1 := by
  rw [boundsAt_top hd]
  exact topCorrect_half _ _ he

end

/-! ## Bounds below exponent MAX_E - 1 (41_bounds.md R113, R122) -/

section

variable {f : Fmt} {d : Mantissas} (he : d.e + f.mw ≤ f.aw)
include he

/-- A window is a divisor of the space in units of 2^E. -/
theorem two_pow_mw_dvd : ((2 ^ f.mw : Nat) : Int) ∣ (2 ^ (f.aw - d.e) : Nat) :=
  Int.natCast_dvd_natCast.2 (pow_dvd_pow 2 (by omega))

/-- A point of the window of the address at the distance of a mantissa from the edge has the mantissa's low bits. -/
theorem mod_mw_of_modEq_windowAt {a u m : Nat} {r : Int}
    (h : (u : Int) ≡ windowAt f d a + r [ZMOD (2 ^ (f.aw - d.e) : Nat)])
    (hr : r ≡ (m : Int) - regionEdge f d.bm [ZMOD (2 ^ f.mw : Nat)]) (hm : m < 2 ^ f.mw) : u % 2 ^ f.mw = m := by
  have hum := (h.of_dvd (two_pow_mw_dvd he)).trans (windowStart_modEq.add hr)
  rw [add_sub_cancel, Int.natCast_modEq_iff] at hum
  exact Nat.mod_eq_of_modEq hum hm

/-- A point u lies less than a window above the start of the window of a base B, as the difference modulo the space
shows. -/
theorem add_sub_mod_lt_of_modEq {a u B : Nat} {r : Int} (hB : B < 2 ^ (f.aw - d.e))
    (hBa : (B : Int) ≡ windowAt f d a + (2 ^ f.tw : Nat) [ZMOD (2 ^ (f.aw - d.e) : Nat)])
    (hu : (u : Int) ≡ windowAt f d a + r [ZMOD (2 ^ (f.aw - d.e) : Nat)]) (hr : 0 ≤ r) (hrM : r < (2 ^ f.mw : Nat)) :
    (u + 2 ^ f.tw + 2 ^ (f.aw - d.e) - B) % 2 ^ (f.aw - d.e) < 2 ^ f.mw := by
  have hle : 2 ^ f.mw ≤ 2 ^ (f.aw - d.e) := Nat.pow_le_pow_right (by decide) (by omega)
  have hdist : ((u + 2 ^ f.tw : Nat) : Int) - B ≡ r [ZMOD (2 ^ (f.aw - d.e) : Nat)] := by
    have h := (hu.add_right (2 ^ f.tw : Nat)).sub hBa
    rwa [add_right_comm, add_sub_cancel_left, ← Nat.cast_add] at h
  rw [← Nat.cast_lt (α := Int), natCast_add_sub_mod hB.le, hdist.eq, Int.emod_eq_of_lt hr (by omega)]
  exact hrM

/-- The number of a window is how many windows its start lies from the edge (41_bounds.md R122). -/
theorem mul_windowOf (a : Nat) :
    ((2 ^ f.mw : Nat) : Int) * windowOf f d a = (windowAt f d a - regionEdge f d.bm) % (2 ^ (f.aw - d.e) : Nat) := by
  have hedge : regionEdge f d.bm ≤ 2 ^ (f.aw - d.e) :=
    (regionEdge_lt f d.bm).le.trans (Nat.pow_le_pow_right (by decide) (by omega))
  rw [windowOf, windowAt, windowStart, sub_right_comm, Int.natCast_ediv, natCast_add_sub_mod hedge,
    sub_emod_self_emod (by positivity) (by positivity) (two_pow_mw_dvd he)]

/-- Two addresses share a window where their windows start at the same point of the space (41_bounds.md R122). -/
theorem windowOf_eq_iff (a c : Nat) :
    windowOf f d a = windowOf f d c ↔ windowAt f d a ≡ windowAt f d c [ZMOD (2 ^ (f.aw - d.e) : Nat)] := by
  have hpos : ((2 ^ f.mw : Nat) : Int) ≠ 0 := by positivity
  rw [← Nat.cast_inj (R := Int), ← mul_right_inj' hpos, mul_windowOf he, mul_windowOf he]
  exact ⟨fun h => by simpa using Int.ModEq.add_right (regionEdge f d.bm) h, fun h => h.sub_right _⟩

variable (hd : d.InRange f)
include hd

/-- A word decodes to the same bounds at two addresses where they share a window (41_bounds.md R122). -/
theorem boundsAt_eq_iff (a c : Nat) : boundsAt f d a = boundsAt f d c ↔ windowOf f d a = windowOf f d c := by
  have hw := fmt_widths f
  have he' : d.e + 1 < f.maxE := by omega
  rw [windowOf_eq_iff he]
  constructor
  · intro h
    have hbase := (base_modEq hd a).symm.trans (congrArg Bounds.base h ▸ base_modEq hd c)
    exact Int.ModEq.add_right_cancel' _ ((mul_modEq_space_iff (by omega)).1 hbase)
  · intro h
    have hspace (r : Int) : (2 ^ d.e : Nat) * (windowAt f d a + r) ≡ (2 ^ d.e : Nat) * (windowAt f d c + r)
        [ZMOD (2 ^ f.aw : Nat)] := (mul_modEq_space_iff (by omega)).2 (h.add_right r)
    have hb := Int.natCast_modEq_iff.1 ((base_modEq hd a).trans ((hspace _).trans (base_modEq hd c).symm))
    have ht := Int.natCast_modEq_iff.1 ((top_modEq hd a).trans ((hspace _).trans (top_modEq hd c).symm))
    have hbase : (boundsAt f d a).base = (boundsAt f d c).base :=
      BitVec.eq_of_toNat_eq (hb.eq_of_lt_of_lt (BitVec.isLt _) (BitVec.isLt _))
    exact bounds_ext hbase (top_eq_of_half ht (hbase ▸ boundsAt_half hd a he') (boundsAt_half hd c he')) rfl

/-- The base and the top a word decodes to at an address, in units of 2^E. -/
theorem exists_units (a : Nat) : ∃ B T : Nat, (boundsAt f d a).base.toNat = 2 ^ d.e * B ∧
    (boundsAt f d a).top.toNat = 2 ^ d.e * T ∧ B < 2 ^ (f.aw - d.e) ∧
    (B : Int) ≡ windowAt f d a + (2 ^ f.tw : Nat) [ZMOD (2 ^ (f.aw - d.e) : Nat)] ∧
    (T : Int) ≡ windowAt f d a + topOffset f d [ZMOD (2 ^ (f.aw - d.e) : Nat)] := by
  have hP : 0 < 2 ^ d.e := Nat.two_pow_pos _
  obtain ⟨B, hB, hBa⟩ := exists_eq_mul_of_modEq (by omega) (base_modEq hd a)
  obtain ⟨T, hT, hTa⟩ := exists_eq_mul_of_modEq (by omega) (top_modEq hd a)
  have hlt := (boundsAt f d a).base.isLt
  rw [hB, two_pow_aw_eq (e := d.e) (by omega)] at hlt
  exact ⟨B, T, hB, hT, lt_of_mul_lt_mul_left hlt hP.le, hBa, hTa⟩

/-- The base is a multiple of 2^E with the base mantissa above. -/
theorem base_mantissa (a : Nat) :
    (boundsAt f d a).base.toNat % 2 ^ d.e = 0 ∧ (boundsAt f d a).base.toNat / 2 ^ d.e % 2 ^ f.mw = d.bm := by
  obtain ⟨B, -, hB, -, -, hBa, -⟩ := exists_units he hd a
  have hquarter : ((2 ^ f.tw : Nat) : Int) ≡ (d.bm : Int) - regionEdge f d.bm [ZMOD (2 ^ f.mw : Nat)] :=
    bm_sub_regionEdge_emod f d.bm ▸ Int.mod_modEq ..
  rw [hB, Nat.mul_mod_right, Nat.mul_div_cancel_left _ (Nat.two_pow_pos _)]
  exact ⟨rfl, mod_mw_of_modEq_windowAt he hBa hquarter hd.bm_lt⟩

/-- The top is a multiple of 2^E with the top mantissa above. -/
theorem top_mantissa (a : Nat) :
    (boundsAt f d a).top.toNat % 2 ^ d.e = 0 ∧ (boundsAt f d a).top.toNat / 2 ^ d.e % 2 ^ f.mw = topMantissa f d := by
  obtain ⟨-, T, -, hT, -, -, hTa⟩ := exists_units he hd a
  rw [hT, Nat.mul_mod_right, Nat.mul_div_cancel_left _ (Nat.two_pow_pos _)]
  exact ⟨rfl, mod_mw_of_modEq_windowAt he hTa (Int.mod_modEq ..) (topMantissa_lt hd)⟩

/-- The address lies in the window that starts a quarter of a window below the base. -/
theorem address_in_window (a : Nat) :
    (a / 2 ^ d.e + 2 ^ f.tw + 2 ^ (f.aw - d.e) - (boundsAt f d a).base.toNat / 2 ^ d.e) % 2 ^ (f.aw - d.e) <
      2 ^ f.mw := by
  obtain ⟨B, -, hB, -, hlt, hBa, -⟩ := exists_units he hd a
  have hM : (0 : Int) < (2 ^ f.mw : Nat) := by positivity
  have haddr : ((a / 2 ^ d.e : Nat) : Int) ≡ windowAt f d a + ((a / 2 ^ d.e : Nat) - windowAt f d a)
      [ZMOD (2 ^ (f.aw - d.e) : Nat)] := by rw [add_sub_cancel]
  rw [hB, Nat.mul_div_cancel_left _ (Nat.two_pow_pos _)]
  exact add_sub_mod_lt_of_modEq he hlt hBa haddr (sub_nonneg.2 (windowStart_le hM))
    (sub_lt_iff_lt_add'.2 (lt_windowStart_add hM))

/-- The top lies in the window that starts a quarter of a window below the base. -/
theorem top_in_window (a : Nat) :
    ((boundsAt f d a).top.toNat + 2 ^ (d.e + f.tw) + 2 ^ f.aw - (boundsAt f d a).base.toNat) % 2 ^ f.aw <
      2 ^ (d.e + f.mw) := by
  obtain ⟨B, T, hB, hT, hlt, hBa, hTa⟩ := exists_units he hd a
  have hM : (0 : Int) < (2 ^ f.mw : Nat) := by positivity
  rw [hB, hT, pow_add, pow_add, two_pow_aw_eq (e := d.e) (by omega), ← Nat.mul_add, ← Nat.mul_add, ← Nat.mul_sub,
    Nat.mul_mod_mul_left]
  exact Nat.mul_lt_mul_of_pos_left (add_sub_mod_lt_of_modEq he hlt hBa hTa (Int.emod_nonneg _ hM.ne')
    (Int.emod_lt_of_pos _ hM)) (Nat.two_pow_pos _)

end

/-! ## Bounds at exponents MAX_E - 1 and MAX_E (41_bounds.md R113) -/

/-- A bound of a window as large as the space is its mantissa times 2^E. -/
theorem ofInt_assemble {f : Fmt} {n e : Nat} (h : n ≤ e + f.mw) (a mant : Nat) (c : Int) :
    BitVec.ofInt n (assemble f e a mant c) = BitVec.ofNat n (mant * 2 ^ e) := by
  have hdvd : ((2 ^ n : Nat) : Int) ∣ (2 ^ (e + f.mw) : Nat) := Int.natCast_dvd_natCast.2 (pow_dvd_pow 2 h)
  apply BitVec.eq_of_toNat_eq
  rw [BitVec.toNat_ofInt, BitVec.toNat_ofNat, assemble, Int.add_emod,
    Int.emod_eq_zero_of_dvd (Dvd.dvd.mul_left hdvd _), zero_add, Int.emod_emod]
  exact Int.toNat_natCast _

/-- From exponent MAX_E - 1 on, a word decodes to its mantissas times 2^E at every address. -/
theorem boundsAt_of_maxE_le {f : Fmt} {d : Mantissas} (he : f.maxE ≤ d.e + 1) (a : Nat) :
    boundsAt f d a = ⟨BitVec.ofNat _ (d.bm * 2 ^ d.e), BitVec.ofNat _ (topMantissa f d * 2 ^ d.e), true⟩ := by
  have hw := fmt_widths f
  have htop (base top) : topCorrect f base top d.e = top := if_neg fun h => by omega
  simp only [boundsAt, htop, ofInt_assemble (show f.aw ≤ d.e + f.mw by omega),
    ofInt_assemble (show f.aw + 1 ≤ d.e + f.mw by omega)]

/-! ## What the commands answer (41_bounds.md R113, R120, R121) -/

/-- BOUNDS_DECODE answers the bounds of its operands, with bounds_valid true. -/
theorem exec_boundsDecode {s : State} {y : Bounds s.cfg.fmt} (h : decodeBounds s.cfg s.operands.p s.operands.a = y) :
    exec .boundsDecode s = .next { s with response := some (.returned (.bounds ⟨y.base, y.top, true⟩)) } := by
  subst h
  rw [← decodeBounds_valid s.cfg s.operands.p s.operands.a]
  rfl

/-- IS_REPRESENTABLE_WITH_ADDR compares the whole bounds, since all are valid (41_bounds.md R120). -/
theorem isRepresentableWithAddr_iff {k : Config} (c : Cap k.fmt) (a : BitVec k.fmt.aw) :
    c.isRepresentableWithAddr k a = true ↔ decodeBounds k c.pesbt c.cursor = decodeBounds k c.pesbt a := by
  rw [Cap.isRepresentableWithAddr, Bool.and_eq_true, decide_eq_true_eq, decide_eq_true_eq]
  refine ⟨fun ⟨hbase, htop⟩ => ?_, fun h => h ▸ ⟨rfl, rfl⟩⟩
  exact bounds_ext hbase htop ((decodeBounds_valid ..).trans (decodeBounds_valid ..).symm)

/-- Settles O37: the congruences of base and top with the window of the address, and the bounds from MAX_E - 1 on. -/
theorem decodeWithinWindow : Obligations.DecodeWithinWindow := by
  intro s d h
  have hd := inRange_of_mantissas? h
  refine ⟨_, _, exec_boundsDecode (decodeBounds_of_some h _), fun he => ?_, fun he => ?_⟩
  · have hw := fmt_widths s.cfg.fmt
    have he' : d.e + s.cfg.fmt.mw ≤ s.cfg.fmt.aw := by omega
    obtain ⟨hbase, hbm⟩ := base_mantissa he' hd s.operands.a.toNat
    obtain ⟨htop, htm⟩ := top_mantissa he' hd s.operands.a.toNat
    have hwindow := top_in_window he' hd s.operands.a.toNat
    rw [← Nat.add_sub_assoc (by omega)] at hwindow
    exact ⟨hbase, hbm, htop, htm, address_in_window he' hd _, hwindow, boundsAt_half hd _ (by omega)⟩
  · rw [boundsAt_of_maxE_le he, BitVec.toNat_ofNat, BitVec.toNat_ofNat]
    exact ⟨rfl, rfl⟩

/-- Settles O38: both cases of the stored exponent decode with bounds_valid true, and the second is the draw. -/
theorem everyWordDecodes : Obligations.EveryWordDecodes := by
  intro s
  refine ⟨_, _, exec_boundsDecode rfl, fun hef hes => ?_⟩
  have h : s.cfg.mantissas? s.operands.p = none := by
    rw [Config.mantissas?, mantissas, hef, if_neg Bool.false_ne_true]
    exact if_pos hes
  have hdraw : (s.cfg.oorDecode s.operands.p.toNat s.operands.a.toNat).2 % (2 ^ s.cfg.fmt.aw + 1) ≤ 2 ^ s.cfg.fmt.aw :=
    Nat.le_of_lt_succ (Nat.mod_lt _ (Nat.succ_pos _))
  rw [decodeBounds_of_none h]
  exact ⟨rfl, rfl, (Nat.mod_le ..).trans hdraw⟩

/-- Settles O43: the command compares whole bounds, and a word of exponent MAX_E has one decode. -/
theorem representableWithAddr : Obligations.RepresentableWithAddr := by
  intro s
  refine ⟨_, rfl, isRepresentableWithAddr_iff .., fun ha => ?_, fun d h he => ?_⟩
  · rw [isRepresentableWithAddr_iff, ha]
  · have he' : s.cfg.fmt.maxE ≤ d.e + 1 := by omega
    rw [isRepresentableWithAddr_iff, decodeBounds_of_some h, decodeBounds_of_some h, boundsAt_of_maxE_le he',
      boundsAt_of_maxE_le he']

/-- Settles O44: boundsAt_eq_iff. -/
theorem windowRepresentable : Obligations.WindowRepresentable := by
  intro s d h he
  have hw := fmt_widths s.cfg.fmt
  refine ⟨_, rfl, ?_⟩
  rw [isRepresentableWithAddr_iff, decodeBounds_of_some h, decodeBounds_of_some h,
    boundsAt_eq_iff (by omega) (inRange_of_mantissas? h), eq_comm]

/-- Settles O45: the operands name the result. -/
theorem markUnrepresentableClearsTag : Obligations.MarkUnrepresentableClearsTag :=
  fun _ => ⟨_, rfl, rfl, rfl, rfl, rfl⟩

end Sys2Proof.Machine


/-! SUPPORT and PROOFS. The bounds codec's encoder (41_bounds.md R116 to R119, R123). At exponent E it keeps a request
to granules of 2^(E+3): the base rounded down, the top rounded up. -/

namespace Sys2Proof.Machine

/-! ## The exponent of a length (41_bounds.md R116) -/

/-- A number is below 2^bitlen, and at least half of that. -/
theorem bitlen_spec (v : Nat) : v < 2 ^ bitlen v ∧ (bitlen v ≠ 0 → 2 ^ (bitlen v - 1) ≤ v) := by
  unfold bitlen
  split
  case isTrue h => simp [h]
  case isFalse h => exact ⟨Nat.lt_log2_self, fun _ => Nat.log2_self_le h⟩

/-- A length is below 2^(E+MW-1) at its exponent E. -/
theorem lt_two_pow_lengthExponent (f : Fmt) (l : Nat) : l < 2 ^ (lengthExponent f l + f.mw - 1) := by
  have hw := fmt_widths f
  have hlt : l >>> (f.mw - 1) < 2 ^ lengthExponent f l := (bitlen_spec _).1
  rwa [Nat.shiftRight_eq_div_pow, Nat.div_lt_iff_lt_mul (Nat.two_pow_pos _), ← pow_add,
    ← Nat.add_sub_assoc (by omega)] at hlt

/-- A length that needs an exponent E above 0 is at least 2^(E+MW-2). -/
theorem two_pow_lengthExponent_le {f : Fmt} {l : Nat} (h : lengthExponent f l ≠ 0) :
    2 ^ (lengthExponent f l + f.mw - 2) ≤ l := by
  have hw := fmt_widths f
  have hle : 2 ^ (lengthExponent f l - 1) ≤ l >>> (f.mw - 1) := (bitlen_spec _).2 h
  have hexp : lengthExponent f l - 1 + (f.mw - 1) = lengthExponent f l + f.mw - 2 := by omega
  rwa [Nat.shiftRight_eq_div_pow, Nat.le_div_iff_mul_le (Nat.two_pow_pos _), ← pow_add, hexp] at hle

/-! ## Rounding to granules (41_bounds.md R116) -/

/-- A request's top at an exponent, as a number of granules, rounded up. -/
def roundedTop (t e : Nat) : Nat := t ⌈/⌉ 2 ^ (e + 3)

/-- A request's length at an exponent, as a number of granules: the top rounded up, the base rounded down. -/
def roundedLength (b t e : Nat) : Nat := roundedTop t e - b / 2 ^ (e + 3)

/-- The rounded top is the least number of granules that holds the top. -/
theorem roundedTop_le_iff (t e n : Nat) : roundedTop t e ≤ n ↔ t ≤ 2 ^ (e + 3) * n :=
  ceilDiv_le_iff_le_mul (Nat.two_pow_pos _)

/-- The top is rounded up. -/
theorem le_mul_roundedTop (t e : Nat) : t ≤ 2 ^ (e + 3) * roundedTop t e := (roundedTop_le_iff ..).1 le_rfl

/-- The top is rounded up by less than a granule. -/
theorem mul_roundedTop_lt (t e : Nat) : 2 ^ (e + 3) * roundedTop t e < t + 2 ^ (e + 3) := by
  have h := Nat.mul_div_le (t + 2 ^ (e + 3) - 1) (2 ^ (e + 3))
  have := Nat.two_pow_pos (e + 3)
  rw [roundedTop, Nat.ceilDiv_eq_add_pred_div]
  omega

/-- Nothing is lost of a multiple of the granule. -/
theorem bitsLost_eq_false_iff (v e : Nat) : bitsLost v e = false ↔ v % 2 ^ (e + 3) = 0 := by
  simp [bitsLost]

/-- The top is rounded up where bits are lost (41_bounds.md R116). -/
theorem div_add_bitsLost (t e : Nat) : t / 2 ^ (e + 3) + (bitsLost t e).toNat = roundedTop t e := by
  have hpos := Nat.two_pow_pos (e + 3)
  have hdiv := Nat.div_add_mod t (2 ^ (e + 3))
  have hmod := Nat.mod_lt t hpos
  have hle := le_mul_roundedTop t e
  refine le_antisymm (Nat.le_of_lt_succ (Nat.lt_of_mul_lt_mul_left (a := 2 ^ (e + 3)) ?_)) ((roundedTop_le_iff ..).2 ?_)
  all_goals
    simp only [Nat.succ_eq_add_one, Nat.mul_add]
    cases h : bitsLost t e with
    | false =>
      rw [bitsLost_eq_false_iff] at h
      simp only [Bool.toNat_false]
      omega
    | true =>
      rw [← Bool.not_eq_false, bitsLost_eq_false_iff] at h
      simp only [Bool.toNat_true]
      omega

/-- At the next exponent one more bit may be lost (41_bounds.md R116). -/
theorem bitsLost_succ (v e : Nat) : bitsLost v (e + 1) = (bitsLost v e || decide (v / 2 ^ (e + 3) % 2 = 1)) := by
  have hmod : v % 2 ^ (e + 1 + 3) = v % 2 ^ (e + 3) + 2 ^ (e + 3) * (v / 2 ^ (e + 3) % 2) := by
    rw [show 2 ^ (e + 1 + 3) = 2 ^ (e + 3) * 2 by ring, Nat.mod_mul]
  have hpos := Nat.two_pow_pos (e + 3)
  rw [Bool.eq_iff_iff]
  rcases Nat.mod_two_eq_zero_or_one (v / 2 ^ (e + 3)) with h | h <;> simp [bitsLost, hmod, h]

/-- The top mantissa bits are the low bits of the rounded top. -/
theorem topBits_eq (f : Fmt) (t e : Nat) : topBits f t e (bitsLost t e) = roundedTop t e % 2 ^ (f.mw - 3) := by
  rw [topBits, Nat.shiftRight_eq_div_pow, div_add_bitsLost]

/-- The base mantissa bits are the low bits of the rounded base. -/
theorem baseBits_eq (f : Fmt) (b e : Nat) : baseBits f b e = b / 2 ^ (e + 3) % 2 ^ (f.mw - 3) := by
  rw [baseBits, Nat.shiftRight_eq_div_pow]

/-- A mantissa has a lowest bit. -/
theorem two_dvd_mantissa (f : Fmt) : 2 ∣ 2 ^ (f.mw - 3) := by
  have hw := fmt_widths f
  exact dvd_pow_self 2 (by omega)

/-- The base bits R116 takes as lost when the exponent goes up are those lost at the exponent above. -/
theorem base_bitsLost_succ (f : Fmt) (b e : Nat) :
    (bitsLost b e || decide (baseBits f b e % 2 = 1)) = bitsLost b (e + 1) := by
  rw [bitsLost_succ, baseBits_eq, Nat.mod_mod_of_dvd _ (two_dvd_mantissa f)]

/-- The top bits R116 takes as lost when the exponent goes up are those lost at the exponent above. -/
theorem top_bitsLost_succ (f : Fmt) (t e : Nat) :
    (bitsLost t e || decide (topBits f t e (bitsLost t e) % 2 = 1)) = bitsLost t (e + 1) := by
  rw [bitsLost_succ, topBits, Nat.mod_mod_of_dvd _ (two_dvd_mantissa f), Nat.shiftRight_eq_div_pow]
  cases bitsLost t e <;> simp

section

variable {b t : Nat} (hbt : b ≤ t) (e : Nat)
include hbt

/-- The rounded base lies at or below the rounded top. -/
theorem div_le_roundedTop : b / 2 ^ (e + 3) ≤ roundedTop t e := by
  have h := (Nat.mul_div_le b (2 ^ (e + 3))).trans (hbt.trans (le_mul_roundedTop t e))
  exact Nat.le_of_mul_le_mul_left h (Nat.two_pow_pos _)

/-- The rounded length holds the length. -/
theorem sub_le_mul_roundedLength : t - b ≤ 2 ^ (e + 3) * roundedLength b t e := by
  have := le_mul_roundedTop t e
  have := Nat.mul_div_le b (2 ^ (e + 3))
  rw [roundedLength, Nat.mul_sub]
  omega

/-- The length is rounded up by less than two granules. -/
theorem mul_roundedLength_lt : 2 ^ (e + 3) * roundedLength b t e < t - b + 2 * 2 ^ (e + 3) := by
  have := mul_roundedTop_lt t e
  have hpos := Nat.two_pow_pos (e + 3)
  have := Nat.lt_mul_div_succ b hpos
  rw [Nat.mul_succ] at this
  rw [roundedLength, Nat.mul_sub]
  omega

/-- A length of less than n granules is rounded to n + 1 at most. -/
theorem roundedLength_le {n : Nat} (h : t - b < 2 ^ (e + 3) * n) : roundedLength b t e ≤ n + 1 := by
  have hlt := mul_roundedLength_lt hbt e
  have : 2 ^ (e + 3) * roundedLength b t e < 2 ^ (e + 3) * (n + 2) := by rw [Nat.mul_add]; omega
  have := Nat.lt_of_mul_lt_mul_left this
  omega

end

/-- At the next exponent a length takes up half as many granules at least. -/
theorem roundedLength_le_two_mul_succ (b t e : Nat) : roundedLength b t e ≤ 2 * roundedLength b t (e + 1) := by
  have hpow : 2 ^ (e + 1 + 3) = 2 ^ (e + 3) * 2 := by ring
  have htop : roundedTop t e ≤ 2 * roundedTop t (e + 1) := by
    have h := le_mul_roundedTop t (e + 1)
    rwa [hpow, Nat.mul_assoc, ← roundedTop_le_iff] at h
  have hbase : 2 * (b / 2 ^ (e + 1 + 3)) ≤ b / 2 ^ (e + 3) := by
    rw [hpow, ← Nat.div_div_eq_div_mul]
    exact Nat.mul_div_le ..
  unfold roundedLength
  omega

/-- The length overflows at an exponent where its granules do not fit below 2^(MW-4). -/
theorem lengthOverflows_iff {f : Fmt} {b t e : Nat} (hbt : b ≤ t) (h : roundedLength b t e < 2 ^ (f.mw - 3)) :
    lengthOverflows f b t e = true ↔ 2 ^ (f.mw - 4) ≤ roundedLength b t e := by
  have hle := div_le_roundedTop hbt e
  have hdiff : (roundedTop t e % 2 ^ (f.mw - 3) + 2 ^ (f.mw - 3) - b / 2 ^ (e + 3) % 2 ^ (f.mw - 3)) % 2 ^ (f.mw - 3) =
      roundedLength b t e := by
    rw [← Nat.cast_inj (R := Int), natCast_add_sub_mod (Nat.mod_lt _ (Nat.two_pow_pos _)).le, Int.natCast_mod,
      Int.natCast_mod, ← Int.sub_emod, ← Nat.cast_sub hle]
    exact_mod_cast Nat.mod_eq_of_lt h
  rw [lengthOverflows, topBits_eq, baseBits_eq, hdiff, decide_eq_true_eq, ge_iff_le]

/-! ## The exponent of a request (41_bounds.md R116) -/

/-- A length below 2^(MW-2) is encoded in the EF = 1 form, and no other (41_bounds.md R116). -/
theorem exactForm_iff (f : Fmt) (l : Nat) :
    lengthExponent f l = 0 ∧ l.testBit (f.mw - 2) = false ↔ l < 2 ^ (f.mw - 2) := by
  have hw := fmt_widths f
  have hlt := lt_two_pow_lengthExponent f l
  constructor
  · rintro ⟨h0, hbit⟩
    rw [h0, show 0 + f.mw - 1 = f.mw - 2 + 1 by omega] at hlt
    by_contra hge
    rw [Nat.testBit_of_two_pow_le_and_two_pow_add_one_gt (Nat.le_of_not_lt hge) hlt] at hbit
    contradiction
  · intro hl
    refine ⟨?_, Nat.testBit_lt_two_pow hl⟩
    by_contra h0
    have := two_pow_lengthExponent_le h0
    have : 2 ^ (f.mw - 2) ≤ 2 ^ (lengthExponent f l + f.mw - 2) := Nat.pow_le_pow_right (by decide) (by omega)
    omega

/-- A length in the EF = 0 form is at least 2^(E+MW-2) at its exponent E. -/
theorem two_pow_le_of_not_lt {f : Fmt} {l : Nat} (h : ¬ l < 2 ^ (f.mw - 2)) :
    2 ^ (lengthExponent f l + f.mw - 2) ≤ l := by
  by_cases h0 : lengthExponent f l = 0
  · rw [h0, Nat.zero_add]
    exact Nat.le_of_not_lt h
  · exact two_pow_lengthExponent_le h0

/-- An exponent holds a request: the length, and the rounded length, which would not fill the mantissas one exponent
below (41_bounds.md R116). -/
structure ExponentHolds (f : Fmt) (b t e : Nat) : Prop where
  length_lt : t - b < 2 ^ (e + f.mw - 1)
  le_roundedLength : 2 ^ (f.mw - 5) ≤ roundedLength b t e
  roundedLength_lt : roundedLength b t e < 2 ^ (f.mw - 4)

/-- The product of two powers of two, for exponents given by their sum. -/
theorem two_pow_mul_two_pow {i j n : Nat} (h : i + j = n) : 2 ^ i * 2 ^ j = 2 ^ n := by
  rw [← pow_add, h]

section

variable {f : Fmt} {b t e : Nat} (hbt : b ≤ t) (hlt : t - b < 2 ^ (e + f.mw - 1))
include hbt hlt

/-- At its exponent a length takes up one granule too many at most, so an overflow shows modulo 2^(MW-3). -/
theorem lengthOverflows_iff_of_length_lt :
    lengthOverflows f b t e = true ↔ 2 ^ (f.mw - 4) ≤ roundedLength b t e := by
  have hw := fmt_widths f
  have hle := roundedLength_le hbt e (hlt.trans_eq (two_pow_mul_two_pow (by omega : e + 3 + (f.mw - 4) = _)).symm)
  have htwice : 2 * 2 ^ (f.mw - 4) = 2 ^ (f.mw - 3) := two_pow_mul_two_pow (i := 1) (by omega)
  have hpos : 2 ^ 5 ≤ 2 ^ (f.mw - 4) := Nat.pow_le_pow_right (by decide) (by omega)
  exact lengthOverflows_iff hbt (by omega)

/-- The exponent of a length holds the request where the rounded length does not overflow. -/
theorem exponentHolds_of_lt (hge : 2 ^ (e + f.mw - 2) ≤ t - b) (h : roundedLength b t e < 2 ^ (f.mw - 4)) :
    ExponentHolds f b t e := by
  have hw := fmt_widths f
  have hgranules : 2 ^ (e + 3) * 2 ^ (f.mw - 5) ≤ 2 ^ (e + 3) * roundedLength b t e :=
    (two_pow_mul_two_pow (by omega)).trans_le (hge.trans (sub_le_mul_roundedLength hbt e))
  exact ⟨hlt, Nat.le_of_mul_le_mul_left hgranules (Nat.two_pow_pos _), h⟩

/-- The next exponent holds the request where the rounded length overflows. -/
theorem exponentHolds_succ_of_le (h : 2 ^ (f.mw - 4) ≤ roundedLength b t e) : ExponentHolds f b t (e + 1) := by
  have hw := fmt_widths f
  have htwice : 2 * 2 ^ (f.mw - 5) = 2 ^ (f.mw - 4) := two_pow_mul_two_pow (i := 1) (by omega)
  have hpos : 2 ^ 5 ≤ 2 ^ (f.mw - 5) := Nat.pow_le_pow_right (by decide) (by omega)
  have hhalf := roundedLength_le_two_mul_succ b t e
  have hle := roundedLength_le hbt (e + 1) (n := 2 ^ (f.mw - 5)) (hlt.trans_eq (two_pow_mul_two_pow (by omega)).symm)
  exact ⟨hlt.trans_le (Nat.pow_le_pow_right (by decide) (by omega)), by omega, by omega⟩

end

/-- The EF = 0 form takes the exponent of the length, or the next where the rounded length overflows: it holds the
request (41_bounds.md R116). -/
theorem encodeInDomain_eq {f : Fmt} {b t : Nat} (hbt : b ≤ t) :
    t - b < 2 ^ (f.mw - 2) ∧ encodeInDomain f b t = encodeExact f b t ∨
      2 ^ (f.mw - 2) ≤ t - b ∧ ∃ e, ExponentHolds f b t e ∧
        encodeInDomain f b t = encodeRounded f b t e (bitsLost b e) (bitsLost t e) := by
  have hlt := lt_two_pow_lengthExponent f (t - b)
  unfold encodeInDomain
  simp only [exactForm_iff, base_bitsLost_succ, top_bitsLost_succ, lengthOverflows_iff_of_length_lt hbt hlt]
  by_cases hl : t - b < 2 ^ (f.mw - 2)
  · exact .inl ⟨hl, if_pos hl⟩
  · rw [if_neg hl]
    refine .inr ⟨Nat.le_of_not_lt hl, ?_⟩
    split
    case isTrue h => exact ⟨_, exponentHolds_succ_of_le hbt hlt h, rfl⟩
    case isFalse h => exact ⟨_, exponentHolds_of_lt hbt hlt (two_pow_le_of_not_lt hl) (Nat.lt_of_not_le h), rfl⟩

/-- An exponent that holds a request of the space is at most MAX_E (41_bounds.md R110). -/
theorem ExponentHolds.e_le {f : Fmt} {b t e : Nat} (h : ExponentHolds f b t e) (ht : t ≤ 2 ^ f.aw) : e ≤ f.maxE := by
  have hw := fmt_widths f
  by_contra he
  have hsix : 2 ^ f.aw ≤ 2 ^ (e + 3) * 2 ^ (f.mw - 6) := by
    rw [← pow_add]
    exact Nat.pow_le_pow_right (by decide) (by omega)
  have htop := (roundedTop_le_iff t e _).2 (ht.trans hsix)
  have hlt : 2 ^ (f.mw - 6) < 2 ^ (f.mw - 5) := Nat.pow_lt_pow_right (by decide) (by omega)
  have hge := h.le_roundedLength.trans (Nat.sub_le ..)
  omega

/-- The rounded top of a request in the space lies in the space (41_bounds.md R110). -/
theorem mul_roundedTop_le {f : Fmt} {t e : Nat} (he : e ≤ f.maxE) (ht : t ≤ 2 ^ f.aw) :
    2 ^ (e + 3) * roundedTop t e ≤ 2 ^ f.aw := by
  have hw := fmt_widths f
  have hspace : 2 ^ (e + 3) * 2 ^ (f.aw - (e + 3)) = 2 ^ f.aw := two_pow_mul_two_pow (by omega)
  have htop := (roundedTop_le_iff t e _).2 (ht.trans_eq hspace.symm)
  exact (Nat.mul_le_mul_left _ htop).trans_eq hspace

/-! ## The encoding of a request (41_bounds.md R116) -/

/-- The EF = 0 encoding of a request in the space at an exponent up to MAX_E: the rounded bounds, the exponent in the
low three bits of T and B, and the rounded bounds' bits above. -/
structure EncodesRounded (f : Fmt) (b t e : Nat) (y : Encoded f) : Prop where
  ef_eq : y.ef = false
  e_eq : y.e = e
  toNat_es : y.es.toNat = f.maxE - e
  toNat_t : y.t.toNat = roundedTop t e % 2 ^ (f.tw - 3) * 8 + (f.maxE - e) / 8
  toNat_b : y.b.toNat = b / 2 ^ (e + 3) % 2 ^ (f.mw - 3) * 8 + (f.maxE - e) % 8
  exact_iff : y.exact = true ↔ b % 2 ^ (e + 3) = 0 ∧ t % 2 ^ (e + 3) = 0
  toNat_base : y.base.toNat = 2 ^ (e + 3) * (b / 2 ^ (e + 3))
  toNat_top : y.top.toNat = 2 ^ (e + 3) * roundedTop t e

/-- The encoding at an exponent up to MAX_E is not cut off by the widths of its fields. -/
theorem encodesRounded {f : Fmt} {b t e : Nat} (hb : b < 2 ^ f.aw) (ht : t ≤ 2 ^ f.aw) (he : e ≤ f.maxE) :
    EncodesRounded f b t e (encodeRounded f b t e (bitsLost b e) (bitsLost t e)) := by
  have hw := fmt_widths f
  have hexp : f.maxE - e < 2 ^ 6 := by omega
  have hT : 2 ^ (f.tw - 3) * 2 ^ 3 = 2 ^ f.tw := two_pow_mul_two_pow (by omega)
  have hB : 2 ^ (f.mw - 3) * 2 ^ 3 = 2 ^ f.mw := two_pow_mul_two_pow (by omega)
  have htlow := Nat.mod_lt (roundedTop t e) (Nat.two_pow_pos (f.tw - 3))
  have hblow := Nat.mod_lt (b / 2 ^ (e + 3)) (Nat.two_pow_pos (f.mw - 3))
  have htop := mul_roundedTop_le he ht
  have hbase := Nat.mul_div_le b (2 ^ (e + 3))
  have hnarrow : 2 ^ (f.tw - 3) ∣ 2 ^ (f.mw - 3) := pow_dvd_pow 2 (by omega)
  have hwide : 2 ^ f.aw < 2 ^ (f.aw + 1) := Nat.pow_lt_pow_right (by decide) (Nat.lt_succ_self _)
  refine ⟨rfl, rfl, ?_, ?_, ?_, ?_, ?_, ?_⟩
  all_goals simp only [encodeRounded, topBits_eq, baseBits_eq, div_add_bitsLost, Nat.shiftRight_eq_div_pow,
    Nat.mod_mod_of_dvd _ hnarrow, BitVec.toNat_ofNat]
  · exact Nat.mod_eq_of_lt hexp
  · exact Nat.mod_eq_of_lt (by omega)
  · exact Nat.mod_eq_of_lt (by omega)
  · simp [bitsLost_eq_false_iff]
  · rw [Nat.mul_comm, Nat.mod_eq_of_lt (by omega)]
  · rw [Nat.mul_comm, Nat.mod_eq_of_lt (by omega)]

/-- The rounded top is the top where the top is a multiple of the granule. -/
theorem mul_roundedTop_eq_iff (t e : Nat) : 2 ^ (e + 3) * roundedTop t e = t ↔ t % 2 ^ (e + 3) = 0 := by
  constructor
  · intro h
    rw [← h, Nat.mul_mod_right]
  · intro h
    have htop := (roundedTop_le_iff t e (t / 2 ^ (e + 3))).2 (Nat.mul_div_cancel' (Nat.dvd_of_mod_eq_zero h)).ge
    exact le_antisymm ((Nat.mul_le_mul_left _ htop).trans (Nat.mul_div_le ..)) (le_mul_roundedTop ..)

namespace EncodesRounded

variable {f : Fmt} {b t e : Nat} {y : Encoded f} (hy : EncodesRounded f b t e y)
include hy

/-- The encoding is exact where the rounded bounds are the request. -/
theorem exact_iff_eq : y.exact = true ↔ y.base.toNat = b ∧ y.top.toNat = t := by
  rw [hy.exact_iff, hy.toNat_base, hy.toNat_top, mul_roundedTop_eq_iff, ← Nat.dvd_iff_mod_eq_zero,
    Nat.mul_div_eq_iff_dvd]

/-- The length of the rounded bounds is a number of granules. -/
theorem length_eq : y.top.toNat - y.base.toNat = 2 ^ (e + 3) * roundedLength b t e := by
  rw [hy.toNat_base, hy.toNat_top, roundedLength, Nat.mul_sub]

/-- The rounded bounds are less than a granule away from the request. -/
theorem lt_granule : b < y.base.toNat + 2 ^ (e + 3) ∧ y.top.toNat < t + 2 ^ (e + 3) := by
  rw [hy.toNat_base, hy.toNat_top, ← Nat.mul_succ]
  exact ⟨Nat.lt_mul_div_succ b (Nat.two_pow_pos _), mul_roundedTop_lt t e⟩

/-- The low three bits of T and B are the stored exponent (30_encoding.md R63). -/
theorem storedExponent_eq (he : e ≤ f.maxE) : storedExponent y.t.toNat y.b.toNat = f.maxE - e := by
  have hw := fmt_widths f
  rw [storedExponent, hy.toNat_t, hy.toNat_b]
  omega

/-- The upper bits of T and B are those of the rounded bounds. -/
theorem upper_bits :
    y.t.toNat / 8 = roundedTop t e % 2 ^ (f.tw - 3) ∧ y.b.toNat / 8 = b / 2 ^ (e + 3) % 2 ^ (f.mw - 3) := by
  have hw := fmt_widths f
  rw [hy.toNat_t, hy.toNat_b]
  omega

/-- The exponent is the smallest that holds the rounded length (41_bounds.md R116). -/
theorem length_bounds (he : ExponentHolds f b t e) :
    2 ^ (e + f.mw - 2) ≤ y.top.toNat - y.base.toNat ∧ y.top.toNat - y.base.toNat < 2 ^ (e + f.mw - 1) := by
  have hw := fmt_widths f
  have hle : 2 ^ (e + 3) * 2 ^ (f.mw - 5) = 2 ^ (e + f.mw - 2) := two_pow_mul_two_pow (by omega)
  have hlt : 2 ^ (e + 3) * 2 ^ (f.mw - 4) = 2 ^ (e + f.mw - 1) := two_pow_mul_two_pow (by omega)
  rw [hy.length_eq, ← hle, ← hlt]
  exact ⟨Nat.mul_le_mul_left _ he.le_roundedLength,
    Nat.mul_lt_mul_of_pos_left he.roundedLength_lt (Nat.two_pow_pos _)⟩

end EncodesRounded

/-- The EF = 1 encoding of a request in the space is not cut off by the widths of its bounds. -/
theorem encodeExact_bounds {f : Fmt} {b t : Nat} (hb : b < 2 ^ f.aw) (ht : t ≤ 2 ^ f.aw) :
    (encodeExact f b t).base.toNat = b ∧ (encodeExact f b t).top.toNat = t :=
  ⟨Nat.mod_eq_of_lt hb, Nat.mod_eq_of_lt (ht.trans_lt (Nat.pow_lt_pow_right (by decide) (Nat.lt_succ_self _)))⟩

/-- BOUNDS_ENCODE answers the encoding of its operands. -/
theorem exec_boundsEncode {s : State} {y : Encoded s.cfg.fmt} (h : encodeBounds s.cfg s.operands.b s.operands.t = y) :
    exec .boundsEncode s = .next { s with response := some (.returned (.encoded y)) } := by
  subst h
  rfl

/-- Settles O39: the EF = 1 form keeps the request, and the EF = 0 form rounds it to granules of an exponent that holds
it. -/
theorem encodeRoundsOutward : Obligations.EncodeRoundsOutward := by
  intro s h
  have hbt := h.1
  have ht := h.2
  have hb := s.operands.b.isLt
  refine ⟨_, exec_boundsEncode (encodeBounds_of_inDomain h), ?_⟩
  rcases encodeInDomain_eq (f := s.cfg.fmt) hbt with ⟨hlt, hy⟩ | ⟨hge, e, he, hy⟩
  · obtain ⟨hbase, htop⟩ := encodeExact_bounds hb ht
    rw [hy, hbase, htop]
    exact ⟨le_rfl, le_rfl, ht, Nat.zero_le _, iff_of_true rfl ⟨rfl, rfl⟩, iff_of_true rfl hlt,
      fun _ => ⟨rfl, rfl, rfl, BitVec.toNat_ofNat .., BitVec.toNat_ofNat ..⟩, fun hef => Bool.noConfusion hef⟩
  · have hmax := he.e_le ht
    have hy' := encodesRounded hb ht hmax
    rw [← hy] at hy'
    generalize encodeInDomain s.cfg.fmt s.operands.b.toNat s.operands.t.toNat = y at hy'
    obtain ⟨hlength, hlength'⟩ := hy'.length_bounds he
    obtain ⟨hT, hB⟩ := hy'.upper_bits
    obtain ⟨hbase, htop⟩ := hy'.lt_granule
    have hexact := hy'.exact_iff_eq
    have hes := hy'.storedExponent_eq hmax
    obtain ⟨hef, rfl, hes', -, -, -, hybase, hytop⟩ := hy'
    have hpos := Nat.two_pow_pos (y.e + 3)
    refine ⟨?_, ?_, ?_, hmax, hexact, ?_, ?_, fun _ =>
      ⟨he.length_lt, hes', hes.trans hes'.symm, hlength, hlength', ?_, ?_, ?_, ?_, hbase, htop⟩⟩
    · exact hybase.trans_le (Nat.mul_div_le ..)
    · exact hytop ▸ le_mul_roundedTop ..
    · exact hytop.trans_le (mul_roundedTop_le hmax ht)
    · rw [hef]
      exact iff_of_false Bool.false_ne_true hge.not_gt
    · rw [hef]
      exact fun h => Bool.noConfusion h
    · rw [hT, hytop, Nat.mul_div_cancel_left _ hpos]
    · rw [hB, hybase, Nat.mul_div_cancel_left _ hpos]
    · rw [hybase, Nat.mul_mod_right]
    · rw [hytop, Nat.mul_mod_right]

/-- Settles O40: the encoding outside the domain is the draw. -/
theorem encodeOutsideDomain : Obligations.EncodeOutsideDomain := by
  intro s h
  exact ⟨_, exec_boundsEncode (encodeBounds_of_not_inDomain h), rfl, Nat.le_of_lt_succ (Nat.mod_lt _ (Nat.succ_pos _)),
    rfl, BitVec.toNat_ofNat .., BitVec.toNat_ofNat .., BitVec.toNat_ofNat ..⟩

end Sys2Proof.Machine


/-! SUPPORT and PROOFS. Decoding an encoded request (41_bounds.md R118, R123): at every address of the request the word
decodes to the rounded bounds, whose window holds the whole request. -/

namespace Sys2Proof.Machine

/-! ## The top mantissa (41_bounds.md R113) -/

/-- The high part of a sum is that of its first term, with the carry of the low parts. -/
theorem div_eq_div_add_carry {B T Q l : Nat} (hle : B + l * Q ≤ T) (hlt : T < B + (l + 1) * Q) :
    T / Q = B / Q + (if T % Q < B % Q then 1 else 0) + l := by
  have hQ : 0 < Q := Nat.pos_of_ne_zero fun h => by simp [h] at hle hlt; omega
  have hT := Nat.div_add_mod T Q
  have hB := Nat.div_add_mod B Q
  have hTlt := Nat.mod_lt T hQ
  have hBlt := Nat.mod_lt B hQ
  rw [Nat.mul_comm l] at hle
  rw [Nat.mul_comm (l + 1), Nat.mul_succ] at hlt
  refine le_antisymm (Nat.le_of_lt_succ (Nat.lt_of_mul_lt_mul_left (a := Q) ?_))
    (Nat.le_of_lt_succ (Nat.lt_of_mul_lt_mul_left (a := Q) ?_))
  all_goals
    split <;> simp only [Nat.succ_eq_add_one, Nat.mul_add] <;> omega

/-- The top mantissa is that of a top whose length the implied bit and the carry give back (41_bounds.md R113). -/
theorem topMantissa_eq {f : Fmt} {d : Mantissas} {B T : Nat} (hB : d.bm = B % 2 ^ f.mw) (hT : d.tLow = T % 2 ^ f.tw)
    (hle : B + d.lmsb * 2 ^ f.tw ≤ T) (hlt : T < B + (d.lmsb + 1) * 2 ^ f.tw) : topMantissa f d = T % 2 ^ f.mw := by
  have hhigh : B % 2 ^ f.mw / 2 ^ f.tw = B / 2 ^ f.tw % 4 := by
    rw [two_pow_mw, Nat.mul_comm, Nat.mod_mul_right_div_self]
  have hlow : B % 2 ^ f.mw % 2 ^ f.tw = B % 2 ^ f.tw := Nat.mod_mod_of_dvd _ (two_pow_mw f ▸ Nat.dvd_mul_left ..)
  have hdiv := div_eq_div_add_carry hle hlt
  rw [topMantissa, hB, hT, hhigh, hlow, two_pow_mw, Nat.mul_comm 4, Nat.mod_mul, hdiv, Nat.add_comm (T % _),
    Nat.mul_comm (2 ^ f.tw)]
  congr 2
  omega

/-! ## Decoding at an address between base and top (41_bounds.md R123) -/

/-- The edge is a quarter of a window below every base of its mantissa. -/
theorem regionEdge_modEq (f : Fmt) (B : Nat) :
    (regionEdge f (B % 2 ^ f.mw) : Int) ≡ (B : Int) - (2 ^ f.tw : Nat) [ZMOD (2 ^ f.mw : Nat)] := by
  rw [natCast_regionEdge]
  exact (Int.mod_modEq ..).trans ((Int.natCast_modEq_iff.2 (Nat.mod_modEq ..)).sub_right _)

/-- The top stands above the start of the window by a quarter of a window and the length. -/
theorem topOffset_eq {f : Fmt} {d : Mantissas} {B T : Nat} (hbm : d.bm = B % 2 ^ f.mw)
    (htm : topMantissa f d = T % 2 ^ f.mw) (hBT : B ≤ T) (hlt : T < B + 2 * 2 ^ f.tw) :
    topOffset f d = (T : Int) - (B - (2 ^ f.tw : Nat)) := by
  have hpow := two_pow_mw f
  have hmod : ((T % 2 ^ f.mw : Nat) : Int) - regionEdge f (B % 2 ^ f.mw) ≡ (T : Int) - (B - (2 ^ f.tw : Nat))
      [ZMOD (2 ^ f.mw : Nat)] := (Int.natCast_modEq_iff.2 (Nat.mod_modEq ..)).sub (regionEdge_modEq f B)
  rw [topOffset, htm, hbm, hmod.eq, Int.emod_eq_of_lt (by omega) (by omega)]

section

variable {f : Fmt} {d : Mantissas} {B T a : Nat} (hbm : d.bm = B % 2 ^ f.mw) (hBa : 2 ^ d.e * B ≤ a)
  (haT : a ≤ 2 ^ d.e * T) (hlt : T < B + 2 * 2 ^ f.tw)
include hbm hBa haT hlt

/-- The window of an address between base and top starts a quarter of a window below the base. -/
theorem windowAt_eq : windowAt f d a = (B : Int) - (2 ^ f.tw : Nat) := by
  have hpow := two_pow_mw f
  have hle : B ≤ a / 2 ^ d.e := (Nat.le_div_iff_mul_le (Nat.two_pow_pos _)).2 (by rwa [Nat.mul_comm])
  have hge : a / 2 ^ d.e ≤ T := Nat.div_le_of_le_mul haT
  refine windowStart_eq_of_modEq ?_ (by omega) (by omega)
  rw [hbm]
  exact (regionEdge_modEq f B).symm

/-- At an address between base and top a word decodes to both. -/
theorem boundsAt_eq_of_mem (hd : d.InRange f) (htm : topMantissa f d = T % 2 ^ f.mw) {base : BitVec f.aw}
    {top : BitVec (f.aw + 1)} (hbase : base.toNat = 2 ^ d.e * B) (htop : top.toNat = 2 ^ d.e * T) :
    boundsAt f d a = ⟨base, top, true⟩ := by
  have hw := fmt_widths f
  have hBT : B ≤ T := Nat.le_of_mul_le_mul_left (hBa.trans haT) (Nat.two_pow_pos _)
  have hb : (boundsAt f d a).base = base := by
    rw [boundsAt_base hd, windowAt_eq hbm hBa haT hlt, sub_add_cancel, ← Nat.cast_mul, ← hbase, BitVec.ofInt_natCast,
      BitVec.ofNat_toNat, BitVec.setWidth_eq]
  refine bounds_ext hb ?_ rfl
  rw [boundsAt_top hd, hb, windowAt_eq hbm hBa haT hlt, topOffset_eq hbm htm hBT hlt, add_sub_cancel, ← Nat.cast_mul,
    ← htop, BitVec.ofInt_natCast, BitVec.ofNat_toNat, BitVec.setWidth_eq]
  refine topCorrect_eq_self ?_ fun he => ?_
  · rw [hbase, htop]
    exact Nat.mul_le_mul_left _ hBT
  · have hhalf : 2 ^ d.e * (2 * 2 ^ f.tw) ≤ 2 ^ (f.aw - 1) := by
      rw [← pow_succ', ← pow_add]
      exact Nat.pow_le_pow_right (by decide) (by omega)
    have := Nat.mul_lt_mul_of_pos_left hlt (Nat.two_pow_pos d.e)
    rw [Nat.mul_add] at this
    rw [hbase, htop]
    omega

end

/-! ## Decoding an encoded request (41_bounds.md R123) -/

/-- The mantissas of the EF = 1 form are the low bits of the request. -/
theorem mantissas_encodeExact (f : Fmt) (b t : Nat) :
    mantissas f (encodeExact f b t).ef (encodeExact f b t).t.toNat (encodeExact f b t).b.toNat =
      some ⟨0, t % 2 ^ f.tw, b % 2 ^ f.mw, 0⟩ := by
  rw [← BitVec.toNat_ofNat t, ← BitVec.toNat_ofNat b]
  rfl

/-- The mantissas of the EF = 0 form are the low bits of the rounded request in units of 2^E. -/
theorem EncodesRounded.mantissas_eq {f : Fmt} {b t e : Nat} {y : Encoded f} (hy : EncodesRounded f b t e y)
    (he : e ≤ f.maxE) : mantissas f y.ef y.t.toNat y.b.toNat =
      some ⟨e, 8 * roundedTop t e % 2 ^ f.tw, 8 * (b / 2 ^ (e + 3)) % 2 ^ f.mw, 1⟩ := by
  have hw := fmt_widths f
  obtain ⟨hT, hB⟩ := hy.upper_bits
  have hstored := hy.storedExponent_eq he
  have htw : 8 * 2 ^ (f.tw - 3) = 2 ^ f.tw := two_pow_mul_two_pow (i := 3) (by omega)
  have hmw : 8 * 2 ^ (f.mw - 3) = 2 ^ f.mw := two_pow_mul_two_pow (i := 3) (by omega)
  rw [mantissas, hy.ef_eq, if_neg Bool.false_ne_true, hstored, if_neg (by omega), Nat.sub_sub_self he, hT, hB,
    ← htw, ← hmw, Nat.mul_comm _ 8, Nat.mul_comm _ 8, ← Nat.mul_mod_mul_left, ← Nat.mul_mod_mul_left]

/-- The encoding of a request has bounds around it, whose low bits in units of 2^E are the mantissas and whose length is
less than half a window. -/
theorem exists_units_of_encodeInDomain {f : Fmt} {b t : Nat} {y : Encoded f} (hb : b < 2 ^ f.aw) (ht : t ≤ 2 ^ f.aw)
    (hbt : b ≤ t) (hy : encodeInDomain f b t = y) :
    y.base.toNat ≤ b ∧ t ≤ y.top.toNat ∧ ∃ d B T, mantissas f y.ef y.t.toNat y.b.toNat = some d ∧
      d.bm = B % 2 ^ f.mw ∧ topMantissa f d = T % 2 ^ f.mw ∧ T < B + 2 * 2 ^ f.tw ∧
      y.base.toNat = 2 ^ d.e * B ∧ y.top.toNat = 2 ^ d.e * T := by
  have hw := fmt_widths f
  rcases encodeInDomain_eq (f := f) hbt with ⟨hlt, hy'⟩ | ⟨-, e, he, hy'⟩
  · obtain ⟨hbase, htop⟩ := encodeExact_bounds hb ht
    have hlt' : t < b + (0 + 1) * 2 ^ f.tw := by
      rw [Nat.zero_add, Nat.one_mul]
      exact (Nat.sub_lt_iff_lt_add' hbt).1 hlt
    rw [← hy, hy', hbase, htop]
    exact ⟨le_rfl, le_rfl, _, b, t, mantissas_encodeExact f b t, rfl, topMantissa_eq rfl rfl (by simpa using hbt) hlt',
      by omega, (Nat.one_mul b).symm, (Nat.one_mul t).symm⟩
  · have hmax := he.e_le ht
    have hround := encodesRounded hb ht hmax
    rw [← hy', hy] at hround
    have hunit (n : Nat) : 2 ^ (e + 3) * n = 2 ^ e * (8 * n) := by ring
    have hle := he.le_roundedLength
    have hlt := he.roundedLength_lt
    have h4 : 8 * 2 ^ (f.mw - 5) = 2 ^ f.tw := two_pow_mul_two_pow (i := 3) (by omega)
    have h5 : 2 * 2 ^ (f.mw - 5) = 2 ^ (f.mw - 4) := two_pow_mul_two_pow (i := 1) (by omega)
    have hBT := div_le_roundedTop hbt e
    unfold roundedLength at hle hlt
    rw [hround.toNat_base, hround.toNat_top]
    exact ⟨Nat.mul_div_le .., le_mul_roundedTop .., _, 8 * (b / 2 ^ (e + 3)), 8 * roundedTop t e,
      hround.mantissas_eq hmax, rfl, topMantissa_eq rfl rfl (by simp only; omega) (by simp only; omega), by omega,
      hunit _, hunit _⟩

/-- A word with the bounds fields of an encoded request decodes to the rounded request at every address of the request
(41_bounds.md R123). -/
theorem decodeBounds_of_encodeBounds {k : Config} {p b a : BitVec k.fmt.aw} {t : BitVec (k.fmt.aw + 1)}
    {y : Encoded k.fmt} (h : InDomain k b t) (hy : encodeBounds k b t = y) (hef : (fields k p).ef = y.ef)
    (ht : (fields k p).t = y.t) (hb : (fields k p).b = y.b) (hba : b.toNat ≤ a.toNat) (hat : a.toNat ≤ t.toNat) :
    decodeBounds k p a = ⟨y.base, y.top, true⟩ := by
  rw [encodeBounds_of_inDomain h] at hy
  obtain ⟨hbase, htop, d, B, T, hm, hbm, htm, hlt, hB, hT⟩ := exists_units_of_encodeInDomain b.isLt h.2 h.1 hy
  rw [← hef, ← ht, ← hb] at hm
  rw [decodeBounds_of_some hm]
  exact boundsAt_eq_of_mem hbm (hB ▸ hbase.trans hba) (hT ▸ hat.trans htop) hlt (inRange_of_mantissas? hm) htm hB hT

/-! ## The capabilities made from a request (41_bounds.md R118, 42_capvalue.md R144) -/

/-- The reserved bits of a word stand at reserved positions. -/
theorem reservedOf_and_namedMask (k : Config) (p : BitVec k.fmt.aw) :
    reservedOf k p &&& namedMask k = BitVec.ofNat _ 0 := by
  rw [reservedOf, BitVec.and_assoc, BitVec.not_and_self]
  exact BitVec.and_zero

/-- The fields of the word of SET_BOUNDS are those of its capability, with the bounds fields replaced. -/
theorem fields_setBounds {k : Config} (hk : k.Valid) (c : Cap k.fmt) (rb : BitVec k.fmt.aw)
    (rt : BitVec (k.fmt.aw + 1)) :
    fields k (c.setBounds k rb rt).1.pesbt = withBounds k (fields k c.pesbt) (encodeBounds k rb rt) :=
  fields_pack hk (reservedOf_and_namedMask k c.pesbt)

/-- The fields of the word of MAKE_MAX_PERMS_CAP: all permissions, unsealed, and the bounds fields of the encoding. -/
theorem fields_makeMaxPermsCap {k : Config} (hk : k.Valid) (b a : BitVec k.fmt.aw) (t : BitVec (k.fmt.aw + 1)) :
    fields k (makeMaxPermsCap k b a t).pesbt =
      withBounds k ⟨BitVec.allOnes _, k.maxCode, false, false, 0, 0, BitVec.ofNat _ 0⟩ (encodeBounds k b t) :=
  fields_pack hk BitVec.zero_and

/-- Settles O41: the bounds fields of the word are the encoding's, and it decodes at the cursor to the rounded
request. -/
theorem maxPermsCapDecodesToRequest : Obligations.MaxPermsCapDecodesToRequest := by
  intro s hk h hba hat
  have hfields := fields_makeMaxPermsCap hk s.operands.b s.operands.a s.operands.t
  exact ⟨_, _, rfl, exec_boundsEncode rfl, decodeBounds_of_encodeBounds h rfl (congrArg Fields.ef hfields)
    (congrArg Fields.t hfields) (congrArg Fields.b hfields) hba hat⟩

/-- Settles O42: the fields of the word, and its decode at a cursor in the request. -/
theorem setBoundsStoresRequest : Obligations.SetBoundsStoresRequest := by
  intro s hk
  have hfields := fields_setBounds hk s.operands.c s.operands.rb s.operands.rt
  exact ⟨_, rfl, rfl, rfl, hfields, fun h hba hat => decodeBounds_of_encodeBounds h rfl (congrArg Fields.ef hfields)
    (congrArg Fields.t hfields) (congrArg Fields.b hfields) hba hat⟩

end Sys2Proof.Machine


/-! SUPPORT and PROOFS. The capability value (42_capvalue.md): the accessors and predicates as views of the word, the
mutators as changes of one field of it, and re-encoding, which gives encoded bounds back. -/

namespace Sys2Proof.Machine

/-! ## Words and capabilities (42_capvalue.md R140, R142) -/

/-- COMPRESS answers the word of its operand. -/
theorem exec_compress {s : State} {p : BitVec s.cfg.fmt.aw} (h : s.operands.c.pesbt = p) :
    exec .compress s = .next { s with response := some (.returned (.word p)) } := by
  subst h
  rfl

/-- Settles O47: the operands name both results. -/
theorem compressOfDecompress : Obligations.CompressOfDecompress := by
  intro s
  exact ⟨exec_compress rfl, _, rfl, rfl, rfl, rfl, fun _ ho => exec_compress (congrArg Cap.pesbt ho)⟩

/-! ## Accessors and predicates (42_capvalue.md R145 to R157) -/

section

variable {k : Config} {c : Cap k.fmt}

/-- The full length of bounds that are not inverted is their difference: it fits (42_capvalue.md R149). -/
theorem toNat_lengthFull (h : (c.base k).toNat ≤ (c.top k).toNat) :
    (c.lengthFull k).toNat = (c.top k).toNat - (c.base k).toNat := by
  rw [Cap.lengthFull, if_pos h, BitVec.toNat_ofNat]
  exact Nat.mod_eq_of_lt ((Nat.sub_le ..).trans_lt (c.top k).isLt)

/-- The full length of inverted bounds is the draw (42_capvalue.md R148). -/
theorem lengthFull_of_inverted (h : (c.top k).toNat < (c.base k).toNat) :
    c.lengthFull k = c.invertedLength k := if_neg h.not_ge

/-- Saturation takes the smaller of the value and the greatest address (42_capvalue.md R146, R148). -/
theorem toNat_saturate (f : Fmt) (v : Nat) : (saturate f v).toNat = min v (2 ^ f.aw - 1) := by
  rw [saturate, BitVec.toNat_ofNat]
  exact Nat.mod_eq_of_lt ((Nat.min_le_right ..).trans_lt (Nat.sub_lt (Nat.two_pow_pos _) Nat.one_pos))

/-- The length of bounds that are not inverted is their difference, saturated (42_capvalue.md R148). -/
theorem toNat_length (h : (c.base k).toNat ≤ (c.top k).toNat) :
    (c.length k).toNat = min ((c.top k).toNat - (c.base k).toNat) (2 ^ k.fmt.aw - 1) := by
  rw [Cap.length, if_pos h, toNat_saturate]

/-- The length of inverted bounds is the draw at the address width (42_capvalue.md R148). -/
theorem toNat_length_of_inverted (h : (c.top k).toNat < (c.base k).toNat) :
    (c.length k).toNat = k.invertedLength c.pesbt.toNat c.cursor.toNat c.tag % 2 ^ k.fmt.aw := by
  rw [Cap.length, if_neg h.not_ge, Cap.invertedLength, BitVec.toNat_setWidth, BitVec.toNat_ofNat]
  exact Nat.mod_mod_of_dvd _ (pow_dvd_pow 2 (Nat.le_succ _))

/-- A range is in bounds by unbounded sums (42_capvalue.md R153). -/
theorem isInBounds_iff (a : BitVec k.fmt.aw) (n : BitVec (k.fmt.aw + 1)) :
    c.isInBounds k a n = true ↔ (c.base k).toNat ≤ a.toNat ∧ a.toNat + n.toNat ≤ (c.top k).toNat := by
  rw [Cap.isInBounds, Bool.and_eq_true, decide_eq_true_eq, decide_eq_true_eq]

/-- A sealed capability is a sentry (10_state.md R25; 42_capvalue.md R157). -/
theorem isSealed_and_otype_eq_otypeSentry (c : Cap k.fmt) :
    (c.isSealed k && decide (c.otype k = k.otypeSentry)) = c.isSealed k := by
  cases h : c.isSealed k with
  | false => rfl
  | true => simp [Cap.otype, h]

end

/-- IS_SEALED_ENTRY answers whether its operand is sealed (42_capvalue.md R157). -/
theorem exec_isSealedEntry (s : State) :
    exec .isSealedEntry s = .next { s with response := some (.returned (.bool (s.operands.c.isSealed s.cfg))) } := by
  rw [exec, execIsSealedEntry, isSealed_and_otype_eq_otypeSentry]
  rfl

/-- Settles O50: each accessor answers its view, and the full length is by the order of base and top. -/
theorem accessorsReturnViews : Obligations.AccessorsReturnViews := by
  intro s
  refine ⟨rfl, rfl, ⟨_, rfl, toNat_lengthFull, lengthFull_of_inverted⟩, ⟨_, rfl, ?_⟩, ⟨_, _, rfl, rfl⟩, rfl⟩
  exact BitVec.sub_add_cancel ..

/-- Settles O51: toNat_saturate, and the length by the order of base and top. -/
theorem accessorsSaturate : Obligations.AccessorsSaturate :=
  fun _ => ⟨⟨_, rfl, toNat_saturate ..⟩, _, rfl, toNat_length, toNat_length_of_inverted⟩

/-- Settles O52: isInBounds_iff. -/
theorem isInBoundsUnwrapped : Obligations.IsInBoundsUnwrapped := fun _ => ⟨_, rfl, isInBounds_iff ..⟩

/-- Settles O53: the three predicates read the CT field, since a sealed capability is a sentry. -/
theorem sealPredicates : Obligations.SealPredicates := fun s => ⟨_, rfl, rfl, rfl, exec_isSealedEntry s⟩

/-! ## The cursor (42_capvalue.md R160) -/

/-- SET_CURSOR keeps the word, moves the cursor, and keeps the tag where the address is representable. -/
theorem setCursor_eq {k : Config} (c : Cap k.fmt) (a : BitVec k.fmt.aw) :
    c.setCursor k a = ⟨c.pesbt, a, c.tag && c.isRepresentableWithAddr k a⟩ := by
  rw [Cap.setCursor, Cap.markUnrepresentable]
  cases c.isRepresentableWithAddr k a <;> simp

/-- SET_CURSOR answers the word at the new address with the tag of a representable address. -/
theorem exec_setCursor (s : State) :
    exec .setCursor s = .next { s with response := some (.returned (.cap ⟨s.operands.c.pesbt, s.operands.a,
      s.operands.c.tag && s.operands.c.isRepresentableWithAddr s.cfg s.operands.a⟩)) } := by
  rw [← setCursor_eq]
  rfl

/-- Settles O46: the tag stays where the address is representable, which is where the bounds agree. -/
theorem setCursorKeepsTaggedBounds : Obligations.SetCursorKeepsTaggedBounds := by
  intro s
  have htag : (s.operands.c.tag && s.operands.c.isRepresentableWithAddr s.cfg s.operands.a) = true ↔
      s.operands.c.tag = true ∧ decodeBounds s.cfg s.operands.c.pesbt s.operands.c.cursor =
        decodeBounds s.cfg s.operands.c.pesbt s.operands.a := by
    rw [Bool.and_eq_true, isRepresentableWithAddr_iff]
  refine ⟨_, exec_setCursor s, rfl, rfl, htag, fun h => ?_⟩
  obtain ⟨-, hbounds⟩ := htag.1 h
  exact ⟨(congrArg Bounds.base hbounds).symm, (congrArg Bounds.top hbounds).symm⟩

/-! ## The null word (42_capvalue.md R143) -/

/-- The word 0 has exponent MAX_E and the mantissas of [0, 2^AW), in both formats. -/
theorem mantissas?_zero (k : Config) : k.mantissas? (BitVec.ofNat _ 0) = some ⟨k.fmt.maxE, 0, 0, 1⟩ := by
  simp [Config.mantissas?, mantissas, fields, storedExponent]

/-- The word 0 decodes to [0, 2^AW) at every address. -/
theorem decodeBounds_zero (k : Config) (v : BitVec k.fmt.aw) :
    decodeBounds k (BitVec.ofNat _ 0) v = ⟨BitVec.ofNat _ 0, BitVec.ofNat _ (2 ^ k.fmt.aw), true⟩ := by
  have hw := fmt_widths k.fmt
  have htop : topMantissa k.fmt ⟨k.fmt.maxE, 0, 0, 1⟩ * 2 ^ k.fmt.maxE = 2 ^ k.fmt.aw := by
    simp only [topMantissa, Nat.zero_div, Nat.zero_mod, Nat.lt_irrefl, if_false, Nat.zero_add, Nat.add_zero,
      Nat.one_mod, Nat.one_mul]
    exact two_pow_mul_two_pow (by omega)
  rw [decodeBounds_of_some (mantissas?_zero k), boundsAt_of_maxE_le (Nat.le_succ _), htop, Nat.zero_mul]

/-- The C128R null word is 0 (30_encoding.md R69). -/
theorem nullPesbt_c128r {k : Config} (hf : k.fmt = .c128r) : k.nullPesbt = BitVec.ofNat _ 0 := by
  cases k
  cases hf
  rfl

/-- The null word of a valid configuration decodes to base 0 at every address. -/
theorem base_nullPesbt {k : Config} (hk : k.Valid) (v : BitVec k.fmt.aw) :
    (decodeBounds k k.nullPesbt v).base = BitVec.ofNat _ 0 := by
  rcases fmt_cases k.fmt with hf | hf
  · exact (hk.c64 hf).nullBase v
  · rw [nullPesbt_c128r hf, decodeBounds_zero]

/-- The C128R null word decodes to top 2^64 at every address. -/
theorem toNat_top_nullPesbt_c128r {k : Config} (hf : k.fmt = .c128r) (v : BitVec k.fmt.aw) :
    (decodeBounds k k.nullPesbt v).top.toNat = 2 ^ 64 := by
  rw [nullPesbt_c128r hf, decodeBounds_zero, BitVec.toNat_ofNat, hf]
  rfl

/-- Settles O48: base_nullPesbt, and the decode of the C128R null word. -/
theorem nullDerivedBounds : Obligations.NullDerivedBounds := by
  intro s hk
  refine ⟨_, rfl, rfl, rfl, rfl, ?_, fun hf => ?_⟩
  · exact (congrArg BitVec.toNat (base_nullPesbt hk s.operands.v)).trans BitVec.toNat_zero
  · exact ⟨(congrArg BitVec.toNat (nullPesbt_c128r hf)).trans BitVec.toNat_zero, toNat_top_nullPesbt_c128r hf _⟩

/-! ## The code of all permissions (42_capvalue.md R144) -/

/-- MAX_CODE of C128R. -/
theorem toNat_maxCode_c128r {k : Config} (hf : k.fmt = .c128r) : k.maxCode.toNat = 0x3F := by
  cases k
  cases hf
  rfl

/-- MAX_CODE of C128R is the code of all six permissions with m = 0 (40_permissions.md R96). -/
theorem permEncode_sixPerms {k : Config} (hk : k.Valid) (hf : k.fmt = .c128r) (lvb : Bool) :
    permEncode k sixPerms false lvb = k.maxCode := by
  apply BitVec.eq_of_toNat_eq
  rw [toNat_permEncode_c128r hf, permEncode128_sixPerms (hk.ap128 hf), toNat_maxCode_c128r hf]

/-- MAX_CODE of C128R decodes to all six permissions with m = 0. -/
theorem permDecode_maxCode {k : Config} (hk : k.Valid) (hf : k.fmt = .c128r) (lvb : Bool) :
    permDecode k k.maxCode lvb = (sixPerms, false) := by
  rw [← permEncode_sixPerms hk hf lvb, permDecode_permEncode_c128r hk hf rfl rfl]

/-- The permissions of the word of MAKE_MAX_PERMS_CAP in C128R. -/
theorem perms_makeMaxPermsCap {k : Config} (hk : k.Valid) (hf : k.fmt = .c128r) (b a : BitVec k.fmt.aw)
    (t : BitVec (k.fmt.aw + 1)) : (makeMaxPermsCap k b a t).perms k = (sixPerms, false) := by
  have hcode : codeOf k (makeMaxPermsCap k b a t).pesbt = k.maxCode :=
    congrArg Fields.code (fields_makeMaxPermsCap hk b a t)
  rw [Cap.perms, hcode, permDecode_maxCode hk hf]

/-- Settles O49: the fields of the word, and the decode of the C128R code. -/
theorem maxPermsCapFields : Obligations.MaxPermsCapFields := by
  intro s hk
  exact ⟨_, rfl, rfl, rfl, fields_makeMaxPermsCap hk .., fun hf =>
    ⟨toNat_maxCode_c128r hf, perms_makeMaxPermsCap hk hf ..⟩⟩

/-! ## Changing one field of the word (42_capvalue.md R158, R159, R162) -/

/-- A word whose stored exponent is in range keeps its bounds where SDP, the code and CT alone change
(41_bounds.md R112). -/
theorem decodeBounds_of_fields_eq {k : Config} {p q : BitVec k.fmt.aw} {sdp code ct}
    (h : fields k p = { fields k q with sdp := sdp, code := code, ct := ct }) (hq : k.mantissas? q ≠ none)
    (a : BitVec k.fmt.aw) : decodeBounds k p a = decodeBounds k q a := by
  obtain ⟨d, hd⟩ := Option.ne_none_iff_exists'.1 hq
  have hp : k.mantissas? p = some d := by rw [Config.mantissas?, h, ← hd, Config.mantissas?]
  rw [decodeBounds_of_some hd, decodeBounds_of_some hp]

section

variable {k : Config} (hk : k.Valid) (c : Cap k.fmt)

/-- Setting CT to the value it has changes nothing. -/
theorem withCt_of_isSealed {ct : Bool} (h : c.isSealed k = ct) : c.withCt k ct = c := by
  subst h
  exact congrArg (Cap.mk · c.cursor c.tag) (pack_fields k c.pesbt)

include hk

/-- Setting CT leaves every other field of the word. -/
theorem fields_withCt (ct : Bool) : fields k (c.withCt k ct).pesbt = { fields k c.pesbt with ct := ct } :=
  fields_pack hk (reservedOf_and_namedMask k c.pesbt)

/-- Setting CT again replaces its value. -/
theorem withCt_withCt (ct ct' : Bool) : (c.withCt k ct).withCt k ct' = c.withCt k ct' := by
  rw [Cap.withCt, fields_withCt hk]
  rfl

/-- Setting CT leaves the bounds of a word whose stored exponent is in range. -/
theorem bounds_withCt (ct : Bool) (h : k.mantissas? c.pesbt ≠ none) : (c.withCt k ct).bounds k = c.bounds k :=
  decodeBounds_of_fields_eq (fields_withCt hk c ct) h _

/-- SET_PERMS stores the code and SDP and leaves every other field of the word. -/
theorem fields_setPerms (s : PermSet) (m : Bool) (u : BitVec k.fmt.sdpw) : fields k (c.setPerms k s m u).pesbt =
    { fields k c.pesbt with code := permEncode k s m k.lvb, sdp := u } :=
  fields_pack hk (reservedOf_and_namedMask k c.pesbt)

/-- SET_PERMS leaves the bounds of a word whose stored exponent is in range. -/
theorem bounds_setPerms (s : PermSet) (m : Bool) (u : BitVec k.fmt.sdpw) (h : k.mantissas? c.pesbt ≠ none) :
    (c.setPerms k s m u).bounds k = c.bounds k :=
  decodeBounds_of_fields_eq (fields_setPerms hk c s m u) h _

/-- Permissions with a non-zero code are read back after SET_PERMS. -/
theorem perms_setPerms {s : PermSet} {m : Bool} (u : BitVec k.fmt.sdpw)
    (h : permEncode k s m k.lvb ≠ BitVec.ofNat _ 0) : (c.setPerms k s m u).perms k = (s, m) := by
  have hcode : codeOf k (c.setPerms k s m u).pesbt = permEncode k s m k.lvb :=
    congrArg Fields.code (fields_setPerms hk c s m u)
  rw [Cap.perms, hcode, permDecode_permEncode hk h]

end

/-- SET_SEALED with the sentry's otype answers its operand with CT set. -/
theorem exec_setSealed {s : State} (h : s.operands.ot = s.cfg.otypeSentry) :
    exec .setSealed s = .next { s with response := some (.returned (.cap (s.operands.c.withCt s.cfg true))) } := by
  rw [exec, execSetSealed, if_pos h]
  rfl

/-- SET_SEALED with another otype is refused. -/
theorem exec_setSealed_of_ne {s : State} (h : s.operands.ot ≠ s.cfg.otypeSentry) :
    exec .setSealed s =
      .next { s with response := some (.refused (.unsupportedOtype (recordedWord .setSealed) s.operands.ot)) } := by
  rw [exec, execSetSealed, if_neg h]
  rfl

/-- SET_UNSEALED answers its operand with CT cleared. -/
theorem exec_setUnsealed {s : State} {c : Cap s.cfg.fmt} (h : s.operands.c.withCt s.cfg false = c) :
    exec .setUnsealed s = .next { s with response := some (.returned (.cap c)) } := by
  subst h
  rfl

/-- Settles O54: CT is set and no other field changes; any other otype is refused. -/
theorem setSealedSentry : Obligations.SetSealedSentry := by
  intro s hk
  refine ⟨fun hot => ?_, exec_setSealed_of_ne⟩
  exact ⟨_, exec_setSealed hot, rfl, rfl, fields_withCt hk .., bounds_withCt hk _ _, withCt_of_isSealed _⟩

/-- Settles O55: CT is cleared, which gives an unsealed value back, also from its sealed form. -/
theorem unsealUndoesSeal : Obligations.UnsealUndoesSeal := by
  intro s hk
  refine ⟨⟨_, rfl, rfl, rfl, fields_withCt hk ..⟩, fun h => exec_setUnsealed (withCt_of_isSealed _ h), ?_⟩
  rintro h o rfl
  exact exec_setUnsealed ((withCt_withCt hk ..).trans (withCt_of_isSealed _ h))

/-- Settles O56: the fields of the word, its bounds, and the permissions of a non-zero code. -/
theorem setPermsStoresCode : Obligations.SetPermsStoresCode := by
  intro s hk
  exact ⟨_, rfl, rfl, rfl, fields_setPerms hk .., bounds_setPerms hk _ _ _ _, perms_setPerms hk _ _⟩

/-! ## Encoding rounded bounds again (41_bounds.md R116, R123) -/

/-- A length from 2^(E+MW-2) up and below 2^(E+MW-1) has exponent E. -/
theorem lengthExponent_eq {f : Fmt} {l e : Nat} (hge : 2 ^ (e + f.mw - 2) ≤ l) (hlt : l < 2 ^ (e + f.mw - 1)) :
    lengthExponent f l = e := by
  have hw := fmt_widths f
  have hup := (Nat.pow_lt_pow_iff_right (by decide)).1 (hge.trans_lt (lt_two_pow_lengthExponent f l))
  by_cases h0 : lengthExponent f l = 0
  · omega
  · have hdown := (Nat.pow_lt_pow_iff_right (by decide)).1 ((two_pow_lengthExponent_le h0).trans_lt hlt)
    omega

/-- A request whose rounded length does not overflow at the exponent of its length is encoded at that exponent. -/
theorem encodeInDomain_of_length {f : Fmt} {b t e : Nat} (hbt : b ≤ t) (hge : 2 ^ (e + f.mw - 2) ≤ t - b)
    (hlt : t - b < 2 ^ (e + f.mw - 1)) (h : roundedLength b t e < 2 ^ (f.mw - 4)) :
    encodeInDomain f b t = encodeRounded f b t e (bitsLost b e) (bitsLost t e) := by
  have hw := fmt_widths f
  have hexp := lengthExponent_eq hge hlt
  have hlong : 2 ^ (f.mw - 2) ≤ t - b := (Nat.pow_le_pow_right (by decide) (by omega)).trans hge
  have hform : ¬ (e = 0 ∧ (t - b).testBit (f.mw - 2) = false) := hexp ▸ mt (exactForm_iff f (t - b)).1 hlong.not_gt
  simp only [encodeInDomain, hexp, lengthOverflows_iff_of_length_lt hbt hlt, if_neg hform, if_neg h.not_ge]

/-- A number of granules is its own rounded top. -/
theorem roundedTop_mul (n e : Nat) : roundedTop (2 ^ (e + 3) * n) e = n :=
  Nat.eq_of_mul_eq_mul_left (Nat.two_pow_pos _) ((mul_roundedTop_eq_iff ..).2 (Nat.mul_mod_right ..))

/-- Rounded bounds are encoded at their own exponent, and rounding leaves them as they are: nothing is lost of them, and
their length overflows no more than before. -/
theorem EncodesRounded.encodeInDomain_bounds {f : Fmt} {b t e : Nat} {y : Encoded f} (hy : EncodesRounded f b t e y)
    (he : ExponentHolds f b t e) (ht : t ≤ 2 ^ f.aw) (hbt : b ≤ t) : y.top.toNat ≤ 2 ^ f.aw ∧
      (encodeInDomain f y.base.toNat y.top.toNat).base = y.base ∧
      (encodeInDomain f y.base.toNat y.top.toNat).top = y.top := by
  have hmax := he.e_le ht
  have hspace : y.top.toNat ≤ 2 ^ f.aw := hy.toNat_top.trans_le (mul_roundedTop_le hmax ht)
  have hbase : y.base.toNat / 2 ^ (e + 3) = b / 2 ^ (e + 3) := by
    rw [hy.toNat_base, Nat.mul_div_cancel_left _ (Nat.two_pow_pos _)]
  have htop : roundedTop y.top.toNat e = roundedTop t e := by rw [hy.toNat_top, roundedTop_mul]
  have hle : y.base.toNat ≤ y.top.toNat := by
    rw [hy.toNat_base, hy.toNat_top]
    exact Nat.mul_le_mul_left _ (div_le_roundedTop hbt e)
  have hsmall : roundedLength y.base.toNat y.top.toNat e < 2 ^ (f.mw - 4) := by
    rw [roundedLength, hbase, htop]
    exact he.roundedLength_lt
  obtain ⟨hge, hlt⟩ := hy.length_bounds he
  have hy' := encodesRounded y.base.isLt hspace hmax
  rw [encodeInDomain_of_length hle hge hlt hsmall]
  exact ⟨hspace, BitVec.eq_of_toNat_eq (hy'.toNat_base.trans (by rw [hbase, hy.toNat_base])),
    BitVec.eq_of_toNat_eq (hy'.toNat_top.trans (by rw [htop, hy.toNat_top]))⟩

/-- The rounded bounds of a request in the space lie in the space and are their own rounded bounds. -/
theorem encodeInDomain_bounds {f : Fmt} {b t : Nat} {y : Encoded f} (hb : b < 2 ^ f.aw) (ht : t ≤ 2 ^ f.aw)
    (hbt : b ≤ t) (hy : encodeInDomain f b t = y) : y.top.toNat ≤ 2 ^ f.aw ∧
      (encodeInDomain f y.base.toNat y.top.toNat).base = y.base ∧
      (encodeInDomain f y.base.toNat y.top.toNat).top = y.top := by
  rcases encodeInDomain_eq (f := f) hbt with ⟨-, hy'⟩ | ⟨-, e, he, hy'⟩
  · obtain ⟨hbase, htop⟩ := encodeExact_bounds hb ht
    rw [← hy', hy] at hbase htop
    rw [hbase, htop, hy]
    exact ⟨ht, rfl, rfl⟩
  · have hround := encodesRounded hb ht (he.e_le ht)
    rw [← hy', hy] at hround
    exact hround.encodeInDomain_bounds he ht hbt

/-- The rounded bounds of an exact encoding are the request (41_bounds.md R116). -/
theorem bounds_of_exact {f : Fmt} {b t : Nat} {y : Encoded f} (hb : b < 2 ^ f.aw) (ht : t ≤ 2 ^ f.aw) (hbt : b ≤ t)
    (hy : encodeInDomain f b t = y) (hexact : y.exact = true) : y.base.toNat = b ∧ y.top.toNat = t := by
  rcases encodeInDomain_eq (f := f) hbt with ⟨-, hy'⟩ | ⟨-, e, he, hy'⟩
  · rw [← hy, hy']
    exact encodeExact_bounds hb ht
  · have hround := encodesRounded hb ht (he.e_le ht)
    rw [← hy', hy] at hround
    exact hround.exact_iff_eq.1 hexact

/-! ## Re-encoding a capability (42_capvalue.md R141, R154, R161) -/

/-- A word that takes its bounds fields from an encoded request decodes to the rounded request at every address of the
request (41_bounds.md R123). -/
theorem decodeBounds_of_withBounds {k : Config} {p b a : BitVec k.fmt.aw} {t : BitVec (k.fmt.aw + 1)}
    {x : Fields k.fmt} (hp : fields k p = withBounds k x (encodeBounds k b t)) (h : InDomain k b t)
    (hba : b.toNat ≤ a.toNat) (hat : a.toNat ≤ t.toNat) :
    decodeBounds k p a = ⟨(encodeBounds k b t).base, (encodeBounds k b t).top, true⟩ :=
  decodeBounds_of_encodeBounds h rfl (congrArg Fields.ef hp) (congrArg Fields.t hp) (congrArg Fields.b hp) hba hat

/-- The fields of the re-encoded word: those of the word, with the bounds fields of the encoding of the decoded bounds and
the code of the decoded permissions (42_capvalue.md R141). -/
theorem fields_reencode {k : Config} (hk : k.Valid) (c : Cap k.fmt) : fields k (c.reencode k) =
    withBounds k { fields k c.pesbt with code := permEncode k (c.perms k).1 (c.perms k).2 k.lvb }
      (encodeBounds k (c.base k) (c.top k)) :=
  fields_pack hk (reservedOf_and_namedMask k c.pesbt)

/-- IS_REPRESENTABLE compares the whole bounds, since all are valid (42_capvalue.md R154). -/
theorem isRepresentable_iff {k : Config} (c : Cap k.fmt) :
    c.isRepresentable k = true ↔ decodeBounds k (c.reencode k) c.cursor = c.bounds k := by
  rw [Cap.isRepresentable, Bool.and_eq_true, decide_eq_true_eq, decide_eq_true_eq]
  refine ⟨fun ⟨hbase, htop⟩ => ?_, fun h => h ▸ ⟨rfl, rfl⟩⟩
  exact bounds_ext hbase htop ((decodeBounds_valid ..).trans (decodeBounds_valid ..).symm)

/-- A capability with the rounded bounds of a request that holds the cursor is representable: the re-encoded word decodes
to the rounded bounds of the rounded bounds, which are the same (41_bounds.md R123). -/
theorem isRepresentable_of_bounds {k : Config} (hk : k.Valid) {c : Cap k.fmt} {b : BitVec k.fmt.aw}
    {t : BitVec (k.fmt.aw + 1)} {y : Encoded k.fmt} (h : InDomain k b t) (hy : encodeBounds k b t = y)
    (hc : c.bounds k = ⟨y.base, y.top, true⟩) (hba : b.toNat ≤ c.cursor.toNat) (hat : c.cursor.toNat ≤ t.toNat) :
    c.isRepresentable k = true := by
  rw [encodeBounds_of_inDomain h] at hy
  obtain ⟨hbase, htop, -⟩ := exists_units_of_encodeInDomain b.isLt h.2 h.1 hy
  obtain ⟨hspace, hbase', htop'⟩ := encodeInDomain_bounds b.isLt h.2 h.1 hy
  have h' : InDomain k y.base y.top := ⟨(hbase.trans hba).trans (hat.trans htop), hspace⟩
  have hfields := fields_reencode hk c
  rw [show c.base k = y.base from congrArg Bounds.base hc, show c.top k = y.top from congrArg Bounds.top hc] at hfields
  rw [isRepresentable_iff, hc, decodeBounds_of_withBounds hfields h' (hbase.trans hba) (hat.trans htop),
    encodeBounds_of_inDomain h', hbase', htop']

/-- The capability SET_BOUNDS makes for a request that holds the cursor is representable (41_bounds.md R123). -/
theorem isRepresentable_setBounds {k : Config} (hk : k.Valid) (c : Cap k.fmt) {rb : BitVec k.fmt.aw}
    {rt : BitVec (k.fmt.aw + 1)} (h : InDomain k rb rt) (hba : rb.toNat ≤ c.cursor.toNat)
    (hat : c.cursor.toNat ≤ rt.toNat) : (c.setBounds k rb rt).1.isRepresentable k = true :=
  isRepresentable_of_bounds hk h rfl (decodeBounds_of_withBounds (fields_setBounds hk ..) h hba hat) hba hat

/-- IS_REPRESENTABLE answers whether its operand is representable. -/
theorem exec_isRepresentable {s : State} {b : Bool} (h : s.operands.c.isRepresentable s.cfg = b) :
    exec .isRepresentable s = .next { s with response := some (.returned (.bool b)) } := by
  subst h
  rfl

/-- Settles O57: isRepresentable_iff, and isRepresentable_setBounds. -/
theorem representableAfterSetBounds : Obligations.RepresentableAfterSetBounds := by
  intro s
  refine ⟨⟨_, exec_isRepresentable rfl, isRepresentable_iff _⟩, ?_⟩
  rintro hk h hba hat o rfl
  exact exec_isRepresentable (isRepresentable_setBounds hk _ h hba hat)

/-- A C128R capability made for an exact request that holds the cursor is re-encoded to its own word: the decoded bounds
are the request, and MAX_CODE is the code of the decoded permissions (42_capvalue.md R161). -/
theorem reencode_makeMaxPermsCap {k : Config} (hk : k.Valid) (hf : k.fmt = .c128r) {b a : BitVec k.fmt.aw}
    {t : BitVec (k.fmt.aw + 1)} (h : InDomain k b t) (hba : b.toNat ≤ a.toNat) (hat : a.toNat ≤ t.toNat)
    (hexact : (encodeBounds k b t).exact = true) :
    (makeMaxPermsCap k b a t).reencode k = (makeMaxPermsCap k b a t).pesbt := by
  have hfields := fields_makeMaxPermsCap hk b a t
  have hbounds : (makeMaxPermsCap k b a t).bounds k = ⟨(encodeBounds k b t).base, (encodeBounds k b t).top, true⟩ :=
    decodeBounds_of_withBounds hfields h hba hat
  obtain ⟨hbase, htop⟩ := bounds_of_exact b.isLt h.2 h.1 (encodeBounds_of_inDomain h).symm hexact
  have hb : (makeMaxPermsCap k b a t).base k = b := by
    rw [Cap.base, hbounds, BitVec.eq_of_toNat_eq hbase]
  have ht : (makeMaxPermsCap k b a t).top k = t := by
    rw [Cap.top, hbounds, BitVec.eq_of_toNat_eq htop]
  rw [Cap.reencode, hb, ht, perms_makeMaxPermsCap hk hf, permEncode_sixPerms hk hf, hfields]
  rfl

/-- Settles O58: the views, the fields of the re-encoded word, and the made word that is re-encoded to itself. -/
theorem roundtripRecord : Obligations.RoundtripRecord := by
  intro s
  refine ⟨_, rfl, rfl, rfl, rfl, decodeBounds_valid .., rfl, rfl, rfl, rfl, decide_eq_true_iff,
    fun hk => fields_reencode hk _, fun hk hf h hba hat hexact hp => ?_⟩
  have hmade : decompress s.operands.p s.operands.a true =
      makeMaxPermsCap s.cfg s.operands.b s.operands.a s.operands.t := by rw [hp]; rfl
  have hword := reencode_makeMaxPermsCap hk hf h hba hat hexact
  rw [← hmade] at hword
  exact decide_eq_true hword

end Sys2Proof.Machine

/-! SUPPORT and PROOFS. The register cache (43_regcache.md): what the cache invariant says of a read (R196, R197, R199),
what every command and every step keeps of it (R199, R212), the effect of the REG_* commands (R191 to R198), and that which
view of a register is authoritative cannot be observed (R200). -/

namespace Sys2Proof.Machine

/-! ## The cache invariant of a register file (43_regcache.md R199) -/

/-- Every entry of the register file g keeps I1 to I4: State.CacheInv, of a file alone (43_regcache.md R199). -/
def FileInv (k : Config) (g : List (Entry k.fmt)) : Prop := ∀ rn e, g[rn]? = some e → EntryInv k rn e

/-- The invariant of a state is that of its file. -/
theorem State.cacheInv_iff_fileInv (s : State) : s.CacheInv ↔ FileInv s.cfg s.gpr := Iff.rfl

/-- Register 0 as it always is keeps I1 to I4. -/
theorem entryInv_zeroEntry (k : Config) (rn : Nat) : EntryInv k rn (zeroEntry k) where
  i1 _ := ⟨nullCap k, rfl, rfl, rfl⟩
  i2 h := absurd h nofun
  i3 h := absurd h nofun
  i4 _ := rfl

/-- A consistent entry of a register other than 0 keeps I1 to I4. -/
theorem entryInv_of_consistent {k : Config} {rn : Nat} {e : Entry k.fmt} (h0 : rn ≠ 0) (h : e.consistent k = true) :
    EntryInv k rn e := by
  obtain ⟨i1, i2, i3⟩ := (Entry.consistent_iff k e).1 h
  exact ⟨i1, i2, i3, fun h => absurd h h0⟩

/-- A register other than 0 after reset keeps I1 to I3. -/
theorem resetEntry_consistent (k : Config) : (resetEntry k).consistent k = true := entryOfInt_consistent k _

/-- The reset file keeps the invariant (43_regcache.md R198). -/
theorem fileInv_resetFile (k : Config) (n : Nat) : FileInv k (resetFile k n) := by
  intro rn e he
  have hn : rn < n := by simpa using (List.getElem?_eq_some_iff.1 he).1
  by_cases h0 : rn = 0
  · subst h0
    obtain rfl := Option.some.inj ((resetFile_getElem?_zero k hn).symm.trans he)
    exact entryInv_zeroEntry k 0
  · obtain rfl := Option.some.inj ((resetFile_getElem?_of_ne k h0 hn).symm.trans he)
    exact entryInv_of_consistent h0 (resetEntry_consistent k)

/-- A write of a consistent entry keeps the invariant: register 0 is not written. -/
theorem FileInv.written {k : Config} {g : List (Entry k.fmt)} (hg : FileInv k g) (rn : Nat) {w : Entry k.fmt}
    (hw : w.consistent k = true) : FileInv k (written g rn w) := by
  intro j e he
  rw [written_getElem?] at he
  split at he
  case isTrue h =>
    obtain ⟨h0, rfl, -⟩ := h
    obtain rfl := Option.some.inj he
    exact entryInv_of_consistent h0 hw
  case isFalse => exact hg j e he

/-! ## What a read of an entry finds (43_regcache.md R196, R197, R199) -/

/-- Every read of the entry e finds c or its part: the slot or the word, the raw tag, the word and the cursor. -/
structure Entry.ReadsAs (k : Config) (e : Entry k.fmt) (c : Cap k.fmt) : Prop where
  archVal : e.archVal? k = some c
  rawTag : e.rawTag? = some c.tag
  pesbt : e.pesbt = c.pesbt
  cursor : e.cursor = c.cursor

/-- An entry that keeps I1 to I4 has an architectural value, and every read of it agrees with that value. -/
theorem EntryInv.exists_readsAs {k : Config} {rn : Nat} {e : Entry k.fmt} (h : EntryInv k rn e) :
    ∃ c, e.ReadsAs k c := by
  obtain ⟨p, a, st, sl⟩ := e
  obtain ⟨i1, i2, -, -⟩ := h
  cases st with
  | integer =>
    obtain ⟨rfl, -⟩ := i2 rfl
    exact ⟨⟨k.nullPesbt, a, false⟩, rfl, rfl, rfl, rfl⟩
  | taggedCap => exact ⟨⟨p, a, true⟩, rfl, rfl, rfl, rfl⟩
  | untaggedCap => exact ⟨⟨p, a, false⟩, rfl, rfl, rfl, rfl⟩
  | fullyDecompressed =>
    obtain ⟨c, rfl, rfl, rfl⟩ := i1 rfl
    exact ⟨c, rfl, rfl, rfl, rfl⟩

/-- Of an entry that keeps I1 to I4 every read agrees with its architectural value. -/
theorem EntryInv.readsAs {k : Config} {rn : Nat} {e : Entry k.fmt} {c : Cap k.fmt} (h : EntryInv k rn e)
    (hc : e.archVal? k = some c) : e.ReadsAs k c := by
  obtain ⟨c', hc'⟩ := h.exists_readsAs
  obtain rfl := Option.some.inj (hc'.archVal.symm.trans hc)
  exact hc'

/-- Every read of a register of the reset file finds NullCap (43_regcache.md R198). -/
theorem resetFile_readsAs (k : Config) {n rn : Nat} (hn : rn < n) :
    ∃ e, (resetFile k n)[rn]? = some e ∧ e.ReadsAs k (nullCap k) := by
  by_cases h0 : rn = 0
  · subst h0
    exact ⟨_, resetFile_getElem?_zero k hn, rfl, rfl, rfl, rfl⟩
  · exact ⟨_, resetFile_getElem?_of_ne k h0 hn, rfl, rfl, rfl, rfl⟩

/-- Promoting an entry to its architectural value keeps its invariant: register 0 is promoted to itself
(43_regcache.md R192). -/
theorem EntryInv.promoted {k : Config} {rn : Nat} {e : Entry k.fmt} {c : Cap k.fmt} (h : EntryInv k rn e)
    (hc : e.archVal? k = some c) : EntryInv k rn (e.promoted c) where
  i1 _ := ⟨c, rfl, (h.readsAs hc).pesbt.symm, (h.readsAs hc).cursor.symm⟩
  i2 h := absurd h nofun
  i3 h := absurd h nofun
  i4 h0 := by
    obtain rfl := h.i4 h0
    obtain rfl := Option.some.inj hc
    rfl

/-- A read's promotion of an entry to its architectural value keeps the invariant. -/
theorem FileInv.set_promoted {k : Config} {g : List (Entry k.fmt)} {rn : Nat} {e : Entry k.fmt} {c : Cap k.fmt}
    (hg : FileInv k g) (he : g[rn]? = some e) (hc : e.archVal? k = some c) : FileInv k (g.set rn (e.promoted c)) := by
  intro j e' he'
  by_cases hj : rn = j
  · subst hj
    rw [List.getElem?_set_self (List.getElem?_eq_some_iff.1 he).1] at he'
    obtain rfl := Option.some.inj he'
    exact (hg rn e he).promoted hc
  · rw [List.getElem?_set_ne hj] at he'
    exact hg j e' he'

/-! ## Commands and steps keep the invariant (43_regcache.md R199, R200; 60_exceptions.md R212) -/

/-- From a state that keeps the cache invariant every command keeps it and the mark, and delivers an outcome that is no
model fault. -/
theorem exec_of_cacheInv (i : Instr) {s : State} (h : s.CacheInv) :
    ∃ t r, exec i s = .next t ∧ t.response = some r ∧ (∀ x, r ≠ .faulted x) ∧ t.CacheInv ∧ t.mark = s.mark := by
  rcases exec_cases i s with ⟨-, ⟨v, hx⟩ | ⟨r, hx⟩⟩ | ⟨rn, -, ⟨-, hx⟩ | ⟨e, he, hreg⟩⟩ | ⟨-, hx⟩
  case inr.inl.inr =>
    rcases hreg with ⟨v, hx⟩ | ⟨c, hc, hx⟩ | ⟨w, hw, hx⟩ | ⟨hst, hsl, -⟩
    · exact ⟨_, _, hx, rfl, nofun, h, rfl⟩
    · exact ⟨_, _, hx, rfl, nofun, FileInv.set_promoted h he hc, rfl⟩
    · exact ⟨_, _, hx, rfl, nofun, FileInv.written h rn hw, rfl⟩
    · obtain ⟨c, hc, -⟩ := (h rn e he).i1 hst
      exact absurd (hc.symm.trans hsl) nofun
  case inr.inr => exact ⟨_, _, hx, rfl, nofun, fileInv_resetFile _ _, rfl⟩
  all_goals exact ⟨_, _, hx, rfl, nofun, h, rfl⟩

/-- A step with a command issued, from a state in the invariant of a run: it delivers an outcome that is no model fault,
keeps the cache invariant and sets no mark. -/
theorem State.Inv.step_of_pending {s : State} (h : s.Inv) (hp : s.pending ≠ []) :
    ∃ t r, step s = .next t ∧ t.response = some r ∧ (∀ x, r ≠ .faulted x) ∧ t.CacheInv ∧ t.mark = none := by
  rcases step_cases s with ⟨hnil, -⟩ | ⟨cmd, rest, -, ⟨x, hx, -⟩ | ⟨-, ⟨r, -, hs⟩ | ⟨i, -, hs⟩⟩⟩
  · exact absurd hnil hp
  · exact absurd (h.unmarked.symm.trans hx) nofun
  · exact ⟨_, _, hs, rfl, nofun, h.cache, h.unmarked⟩
  · obtain ⟨t, r, hx, hr, hfault, hcache, hmark⟩ := exec_of_cacheInv i (s := s.running cmd rest) h.cache
    rw [hx, afterCommand_of_cacheInv hcache] at hs
    exact ⟨t, r, hs, hr, hfault, hcache, hmark.trans h.unmarked⟩

/-- Settles O8: a waiting step changes nothing, a command keeps the cache invariant and the mark, and every step keeps the
configuration and the number of registers. -/
theorem stepKeepsInv : Obligations.StepKeepsInv := by
  intro s t h hst
  by_cases hp : s.pending = []
  · rcases step_cases s with ⟨-, hs⟩ | ⟨cmd, rest, hcons, -⟩
    · obtain rfl := Host.Outcome.next.inj (hs.symm.trans hst)
      exact h
    · exact absurd (hp.symm.trans hcons) nofun
  · obtain ⟨hcfg, hnum⟩ := configurationFixed s t hst
    obtain ⟨t', r, hs, -, -, hcache, hmark⟩ := h.step_of_pending hp
    obtain rfl := Host.Outcome.next.inj (hs.symm.trans hst)
    exact ⟨hcfg ▸ h.config, hnum ▸ h.registers, hcache, hmark⟩

/-- Settles O10: the outcome of the command at the head of the port. -/
theorem invRunsWithoutFault : Obligations.InvRunsWithoutFault := by
  intro s h hp
  obtain ⟨t, r, hs, hr, hx, -, -⟩ := h.step_of_pending hp
  exact ⟨t, hs, by simp [hr], fun x hf => hx x (Option.some.inj (hr.symm.trans hf))⟩

/-! ## The check after a command (43_regcache.md R199; 60_exceptions.md R212, R214) -/

/-- Every entry before the one the check finds keeps its invariant (log 8). -/
theorem entryInv_of_lt_firstBroken {k : Config} {l : List (Entry k.fmt)} {n rn : Nat} {e : Entry k.fmt}
    (h : firstBroken k n l = some (rn, e)) {j : Nat} (hj : n + j < rn) {e' : Entry k.fmt} (he' : l[j]? = some e') :
    EntryInv k (n + j) e' := by
  induction l generalizing n j with
  | nil => simp at he'
  | cons e₀ l ih =>
    unfold firstBroken at h
    split at h
    case isTrue hkeeps =>
      cases j with
      | zero =>
        obtain rfl : e₀ = e' := by simpa using he'
        exact (entryKeeps_iff k n e₀).1 hkeeps
      | succ j =>
        have := ih h (j := j) (by omega) (by simpa using he')
        rwa [Nat.add_right_comm] at this
    case isFalse =>
      obtain ⟨rfl, -⟩ : n = rn ∧ e₀ = e := by simpa using h
      omega

/-- The check after a command that returned takes CacheDesync with the first broken entry. -/
theorem State.checkCache_of_firstBroken {t : State} {v : Value t.cfg.fmt} {rn : Nat} {e : Entry t.cfg.fmt}
    (hr : t.response = some (.returned v)) (h : firstBroken t.cfg 0 t.gpr = some (rn, e)) :
    t.checkCache = t.takeFault (.cacheDesync rn t.cfg.fmt e) := by
  simp only [State.checkCache, hr, h]

/-- Settles O15: the broken entry is the one the check finds first. -/
theorem desyncTaken : Obligations.DesyncTaken := by
  intro s cmd rest i t v hm hp hd ht hr hbroken
  rw [State.cacheInv_iff, ← Ne, Option.ne_none_iff_exists'] at hbroken
  obtain ⟨⟨rn, e⟩, hfirst⟩ := hbroken
  obtain ⟨j, hj, he, hinv⟩ := firstBroken_spec _ _ _ _ _ hfirst
  obtain rfl : rn = j := by omega
  refine ⟨rn, e, he, hinv, fun j hj e' he' => ?_, ?_⟩
  · simpa using entryInv_of_lt_firstBroken hfirst (j := j) (by omega) he'
  · rw [step_of_decode hm hp hd, ht, afterCommand, State.checkCache_of_firstBroken hr hfirst]

/-! ## The commands of the register cache (43_regcache.md R191 to R198) -/

/-- REG_WRITE of a register of the file (43_regcache.md R193). -/
theorem exec_regWrite {s : State} {rn : Nat} (h : rn < s.numGpr) :
    exec (.regWrite rn) s = .next (s.commit (written s.gpr rn (entryOfCap s.operands.c)) .unit) :=
  congrArg Host.Outcome.next (State.withRegister_of_some (List.getElem?_eq_getElem h))

/-- REG_WRITE_INT of a register of the file (43_regcache.md R194). -/
theorem exec_regWriteInt {s : State} {rn : Nat} (h : rn < s.numGpr) :
    exec (.regWriteInt rn) s = .next (s.commit (written s.gpr rn (entryOfInt s.cfg s.operands.v)) .unit) :=
  congrArg Host.Outcome.next (State.withRegister_of_some (List.getElem?_eq_getElem h))

/-- REG_WRITE_RAW of a register of the file (43_regcache.md R195). -/
theorem exec_regWriteRaw {s : State} {rn : Nat} (h : rn < s.numGpr) :
    exec (.regWriteRaw rn) s =
      .next (s.commit (written s.gpr rn (entryOfRaw s.operands.p s.operands.a s.operands.tag)) .unit) :=
  congrArg Host.Outcome.next (State.withRegister_of_some (List.getElem?_eq_getElem h))

/-- REG_READ_CURSOR returns the cursor of the value an entry reads as (43_regcache.md R196). -/
theorem exec_regReadCursor {s : State} {rn : Nat} {e : Entry s.cfg.fmt} {c : Cap s.cfg.fmt} (he : s.gpr[rn]? = some e)
    (hc : e.ReadsAs s.cfg c) : exec (.regReadCursor rn) s = .next (s.answer (.word c.cursor)) := by
  simp only [exec, execRegReadCursor, State.withRegister_of_some he, hc.cursor]

/-- REG_READ_RAW returns the word, the cursor and the tag of the value an entry reads as (43_regcache.md R197). -/
theorem exec_regReadRaw {s : State} {rn : Nat} {e : Entry s.cfg.fmt} {c : Cap s.cfg.fmt} (he : s.gpr[rn]? = some e)
    (hc : e.ReadsAs s.cfg c) : exec (.regReadRaw rn) s = .next (s.answer (.raw c.pesbt c.cursor c.tag)) := by
  simp only [exec, execRegReadRaw, State.withRegister_of_some he, hc.rawTag, hc.pesbt, hc.cursor]

/-- Settles O18: the entries of the reset file, each of which reads as NullCap. -/
theorem regResetResets : Obligations.RegResetResets := by
  refine ⟨fun w => ⟨fun h => (encodeOfDecode w _ h).2.symm, ?_⟩, fun s => ?_⟩
  · rintro rfl
    decide
  · refine ⟨resetFile s.cfg s.numGpr, rfl, resetFile_length .., fun rn hn => ?_⟩
    obtain ⟨e, he, hc⟩ := resetFile_readsAs s.cfg hn
    refine ⟨by rw [resetFile_getElem?, if_pos hn]; rfl, ?_, ?_⟩
    · exact exec_regReadRaw (s := s.commit (resetFile s.cfg s.numGpr) .unit) he hc
    · exact ⟨_, exec_regRead_of_archVal (s := s.commit (resetFile s.cfg s.numGpr) .unit) he hc.archVal⟩

/-- Settles O19: in each entry state the value named is the architectural value, to which the read promotes the entry. -/
theorem regReadPromotes : Obligations.RegReadPromotes := by
  intro s rn e c he hint htag huntag hslot
  have hc : e.archVal? s.cfg = some c := by
    cases hst : e.state with
    | integer => simp only [Entry.archVal?, hst, hint hst, decompress]
    | taggedCap => simp only [Entry.archVal?, hst, htag hst, decompress]
    | untaggedCap => simp only [Entry.archVal?, hst, huntag hst, decompress]
    | fullyDecompressed => simp only [Entry.archVal?, hst, hslot hst]
  refine ⟨_, exec_regRead_of_archVal he hc, List.length_set, ?_, fun j hj => List.getElem?_set_ne hj.symm⟩
  exact List.getElem?_set_self (List.getElem?_eq_some_iff.1 he).1

/-- Settles O21: each write commits the file with the entry it names written, unless the register is 0. -/
theorem registerWrites : Obligations.RegisterWrites := by
  intro s rn h i e hie
  have hwrite : exec i s = .next (s.commit (written s.gpr rn e) .unit) := by
    simp only [List.mem_cons, List.not_mem_nil, or_false, Prod.mk.injEq] at hie
    rcases hie with ⟨rfl, rfl⟩ | ⟨rfl, rfl⟩ | ⟨rfl, rfl⟩
    · exact exec_regWrite h
    · exact exec_regWriteInt h
    · exact exec_regWriteRaw h
  refine ⟨_, hwrite, written_length .., fun h0 => if_pos h0, fun h0 => ?_, fun j hj => ?_⟩
  · rw [written_getElem?, if_pos ⟨h0, rfl, h⟩]
  · rw [written_getElem?, if_neg fun hw => hj hw.2.1]

/-- A write leaves architectural values that depend on those before it and on that of the entry written, alone. -/
theorem map_archVal?_written {k : Config} {g g' : List (Entry k.fmt)} {w w' : Entry k.fmt} (rn : Nat)
    (hg : g.map (Entry.archVal? k) = g'.map (Entry.archVal? k)) (hw : w.archVal? k = w'.archVal? k) :
    (written g rn w).map (Entry.archVal? k) = (written g' rn w').map (Entry.archVal? k) := by
  unfold written
  split
  · exact hg
  · rw [List.map_set, List.map_set, hg, hw]

/-- A raw write leaves the architectural value of the decompressed word (43_regcache.md R195). -/
theorem archVal?_entryOfRaw (k : Config) (p a : BitVec k.fmt.aw) (tag : Bool) :
    (entryOfRaw p a tag).archVal? k = some (decompress p a tag) := by
  cases tag <;> rfl

/-- Settles O22: the entries written have the same architectural value. -/
theorem writesAgreeOnArchVals : Obligations.WritesAgreeOnArchVals := by
  intro s rn h
  refine ⟨_, written s.gpr rn (entryOfCap (makeNullDerived s.cfg s.operands.v)),
    _, written s.gpr rn (entryOfCap (decompress s.operands.p s.operands.a s.operands.tag)),
    exec_regWriteInt h, ?_, map_archVal?_written rn rfl rfl,
    exec_regWriteRaw h, ?_, map_archVal?_written rn rfl (archVal?_entryOfRaw ..)⟩
  all_goals
    rintro o rfl
    exact exec_regWrite (s := { s with operands := _ }) h

/-- Settles O23: the entry reads as its architectural value. -/
theorem readsWithoutPromotion : Obligations.ReadsWithoutPromotion := by
  intro s rn hinv h
  have he : s.gpr[rn]? = some s.gpr[rn] := List.getElem?_eq_getElem h
  obtain ⟨c, hc⟩ := (hinv rn _ he).exists_readsAs
  exact ⟨_, c, he, hc.archVal, exec_regReadCursor he hc, exec_regReadRaw he hc⟩

/-- Settles O24, by the index check. -/
theorem badRegisterRefused : Obligations.BadRegisterRefused := fun _ _ _ hi =>
  ⟨fun h => exec_register_refused hi h, fun h => ⟨_, List.getElem?_eq_getElem h⟩⟩

/-! ## Laziness cannot be observed (43_regcache.md R200) -/

/-- The command i delivers the same outcome in s and in s with the register file g, and leaves the same architectural
values; nothing but the file and the response changes. -/
def AgreesOnFile (i : Instr) (s : State) (g : List (Entry s.cfg.fmt)) : Prop :=
  ∃ r g1 g2, exec i s = .next { s with gpr := g1, response := some r } ∧
    exec i { s with gpr := g } = .next { s with gpr := g2, response := some r } ∧
    g1.map (Entry.archVal? s.cfg) = g2.map (Entry.archVal? s.cfg)

/-- A command that names a register, with an index below NUM_GPR, agrees on two files whose entries of that register read
as the same value. -/
theorem agreesOnFile_of_readsAs {i : Instr} {s : State} {g : List (Entry s.cfg.fmt)} {rn : Nat} {e e' : Entry s.cfg.fmt}
    {c : Cap s.cfg.fmt} (hi : i.rn? = some rn) (he : s.gpr[rn]? = some e) (hc : e.ReadsAs s.cfg c)
    (he' : g[rn]? = some e') (hc' : e'.ReadsAs s.cfg c)
    (hvals : s.gpr.map (Entry.archVal? s.cfg) = g.map (Entry.archVal? s.cfg)) : AgreesOnFile i s g := by
  have h : rn < s.numGpr := (List.getElem?_eq_some_iff.1 he).1
  have h' : rn < State.numGpr { s with gpr := g } := (List.getElem?_eq_some_iff.1 he').1
  cases i <;> simp only [Instr.rn?, reduceCtorEq, Option.some.injEq] at hi <;> subst hi
  case regRead =>
    refine ⟨_, _, _, exec_regRead_of_archVal he hc.archVal,
      exec_regRead_of_archVal (s := { s with gpr := g }) he' hc'.archVal, ?_⟩
    rw [map_archVal?_set_promoted he hc.archVal, map_archVal?_set_promoted he' hc'.archVal, hvals]
  case regReadCursor =>
    exact ⟨_, _, _, exec_regReadCursor he hc, exec_regReadCursor (s := { s with gpr := g }) he' hc', hvals⟩
  case regReadRaw =>
    exact ⟨_, _, _, exec_regReadRaw he hc, exec_regReadRaw (s := { s with gpr := g }) he' hc', hvals⟩
  case regWrite => exact ⟨_, _, _, exec_regWrite h, exec_regWrite h', map_archVal?_written _ hvals rfl⟩
  case regWriteInt => exact ⟨_, _, _, exec_regWriteInt h, exec_regWriteInt h', map_archVal?_written _ hvals rfl⟩
  case regWriteRaw => exact ⟨_, _, _, exec_regWriteRaw h, exec_regWriteRaw h', map_archVal?_written _ hvals rfl⟩

/-- Entries of one register in two files that keep the invariant and have the same architectural values read as the same
value. -/
theorem FileInv.readsAs_of_map_eq {k : Config} {g g' : List (Entry k.fmt)} (hg : FileInv k g) (hg' : FileInv k g')
    (hvals : g.map (Entry.archVal? k) = g'.map (Entry.archVal? k)) {rn : Nat} {e : Entry k.fmt} (he : g[rn]? = some e) :
    ∃ e' c, g'[rn]? = some e' ∧ e.ReadsAs k c ∧ e'.ReadsAs k c := by
  obtain ⟨c, hc⟩ := (hg rn e he).exists_readsAs
  have hval : (g'.map (Entry.archVal? k))[rn]? = some (some c) := by
    rw [← hvals, List.getElem?_map, he, Option.map_some, hc.archVal]
  rw [List.getElem?_map, Option.map_eq_some_iff] at hval
  obtain ⟨e', he', hc'⟩ := hval
  exact ⟨e', c, he', hc, (hg' rn e' he').readsAs hc'⟩

/-- Settles O26: a codec command does not read the file, REG_RESET only its length, and a command that names a register
only the value its entry reads as. -/
theorem lazinessUnobservable : Obligations.LazinessUnobservable := by
  intro i s g hinv hinv' hvals
  have hlen : g.length = s.gpr.length := by simpa [State.archVals] using congrArg List.length hvals
  rcases exec_cases i s with ⟨hi, -⟩ | ⟨rn, hi, ⟨hrn, hx⟩ | ⟨e, he, -⟩⟩ | ⟨rfl, hx⟩
  · obtain ⟨r, hx⟩ := exec_codec_delivers hi s
    exact ⟨r, s.gpr, g, hx, exec_codec_transfer hi hx .., hvals.symm⟩
  · have hrn' : State.numGpr { s with gpr := g } ≤ rn := hlen.trans_le hrn
    exact ⟨_, s.gpr, g, hx, exec_register_refused hi hrn', hvals.symm⟩
  · obtain ⟨e', c, he', hc, hc'⟩ := FileInv.readsAs_of_map_eq hinv hinv' hvals.symm he
    exact agreesOnFile_of_readsAs hi he hc he' hc' hvals.symm
  · exact ⟨.returned .unit, _, resetFile s.cfg g.length, hx, rfl, by rw [hlen]; rfl⟩

/-! ## The invariant at reset (43_regcache.md R198, R199; 70_reset_and_hazards.md R232) -/

/-- Every fix-up rule of the fifteen is one of the reset configuration's, whatever their free order (log 2). -/
theorem resetRule_mem_reset (i : Fin 15) : Config.resetRule i ∈ Config.reset.fixupRules :=
  List.mem_ofFn.2 ⟨Config.freeFixupOrder.symm i, by rw [Equiv.apply_symm_apply]⟩

/-- The reset configuration has fifteen fix-up rules, F1 to F3 among them (40_permissions.md R98). -/
theorem fixupOk_reset : Config.reset.FixupOk :=
  ⟨List.length_ofFn, resetRule_mem_reset 0, resetRule_mem_reset 1, resetRule_mem_reset 2⟩

/-- The bits of AP128_MAP are distinct, whatever their free order (40_permissions.md R96). -/
theorem ap128Ok_reset : Config.reset.Ap128Ok := List.nodup_ofFn.2 Config.freeAp128Order.injective

/-- Every number of a position gives one of bits 52:50 or 43:28 (30_encoding.md R61). -/
theorem mPosOk_reset : Config.reset.MPosOk := by
  have h : Config.reset.mPos128 = Config.mPosition Config.freeMIndex := rfl
  have hlt := Config.freeMIndex.isLt
  rw [Config.MPosOk, h, Config.mPosition]
  split <;> omega

/-- The reset configuration meets the constraints of R232, whatever its free values (log 2). -/
theorem valid_reset : Config.reset.Valid where
  fixup := fixupOk_reset
  ap128 _ := ap128Ok_reset
  mPos _ := mPosOk_reset
  c64 h := absurd h nofun

/-- Settles O9: a valid configuration, the reset file, and no mark. -/
theorem resetInv : Obligations.ResetInv where
  config := valid_reset
  registers := by decide
  cache := (State.cacheInv_iff_fileInv State.reset).2 (fileInv_resetFile Config.reset 32)
  unmarked := rfl

end Sys2Proof.Machine

/-! SUPPORT and PROOFS. Outcomes (60_exceptions.md): the three ways a command ends (R210, R215), a refusal that changes no
state (R213, R214), PoisonRead (R212), and the sticky fault mark (R216). -/

namespace Sys2Proof.Machine

/-! ## The outcome of a command (60_exceptions.md R210, R213, R215) -/

/-- A command ends in one of three ways: it returns a result, it is refused, or it takes a model fault; the last two
change nothing else. -/
theorem exec_outcome_cases (i : Instr) (s : State) :
    (∃ t v, exec i s = .next t ∧ t.response = some (.returned v)) ∨
      (∃ r, exec i s = .next (s.refuse r)) ∨ ∃ x, exec i s = .next (s.takeFault x) := by
  rcases exec_cases i s with ⟨-, ⟨v, h⟩ | ⟨r, h⟩⟩ | ⟨rn, -, ⟨-, h⟩ | ⟨e, -, hreg⟩⟩ | ⟨-, h⟩
  · exact .inl ⟨s.answer v, v, h, rfl⟩
  · exact .inr (.inl ⟨r, h⟩)
  · exact .inr (.inl ⟨_, h⟩)
  · rcases hreg with ⟨v, h⟩ | ⟨c, -, h⟩ | ⟨w, -, h⟩ | ⟨-, -, h⟩
    · exact .inl ⟨s.answer v, v, h, rfl⟩
    · exact .inl ⟨_, _, h, rfl⟩
    · exact .inl ⟨_, _, h, rfl⟩
    · exact .inr (.inr ⟨_, h⟩)
  · exact .inl ⟨_, _, h, rfl⟩

/-- Settles O14: of the three ways a command ends only a refusal delivers one. -/
theorem refusedChangesNothing : Obligations.RefusedChangesNothing := by
  intro i s t r ht hr
  rcases exec_outcome_cases i s with ⟨t', v, h, hv⟩ | ⟨r', h⟩ | ⟨x, h⟩ <;>
    obtain rfl := Host.Outcome.next.inj (h.symm.trans ht)
  · exact absurd (hv.symm.trans hr) nofun
  · obtain rfl : r' = r := by simpa using hr
    rfl
  · exact absurd hr nofun

/-! ## PoisonRead (60_exceptions.md R212) -/

/-- REG_READ_RAW of an entry without a tag to read is PoisonRead (60_exceptions.md R212). -/
theorem exec_regReadRaw_of_poison {s : State} {rn : Nat} {e : Entry s.cfg.fmt} (he : s.gpr[rn]? = some e)
    (ht : e.rawTag? = none) : exec (.regReadRaw rn) s = .next (s.takeFault (.poisonRead rn)) := by
  simp only [exec, execRegReadRaw, State.withRegister_of_some he, ht]

/-- Settles O16: such an entry has neither an architectural value nor a tag to read. -/
theorem poisonReadTaken : Obligations.PoisonReadTaken := fun _ _ e he hst hsl =>
  ⟨exec_regRead_of_poison he ((Entry.archVal?_eq_none _ e).2 ⟨hst, hsl⟩),
    exec_regReadRaw_of_poison he ((Entry.rawTag?_eq_none e).2 ⟨hst, hsl⟩)⟩

/-! ## The sticky fault mark (60_exceptions.md R216) -/

/-- A command issued with the mark set returns the marked fault, whatever its word. -/
theorem step_of_mark {s : State} {x : Fault} {cmd : Command s.cfg.fmt} {rest : List (Command s.cfg.fmt)}
    (hm : s.mark = some x) (hp : s.pending = cmd :: rest) : step s = .fault x := by
  simp only [step, runNext, State.takeCommand_of_cons hp, hm]

/-- The mark agrees with the outcome delivered: a model fault is marked, and beside a refusal no mark is set. -/
structure State.MarkAgrees (t : State) : Prop where
  faulted : ∀ x, t.response = some (.faulted x) → t.mark = some x
  refused : ∀ r, t.response = some (.refused r) → t.mark = none

/-- A refusal sets no mark. -/
theorem State.markAgrees_refuse {s : State} (hm : s.mark = none) (r : Refusal) : (s.refuse r).MarkAgrees where
  faulted _ h := absurd h nofun
  refused _ _ := hm

/-- A model fault sets the mark to itself. -/
theorem State.markAgrees_takeFault (s : State) (x : Fault) : (s.takeFault x).MarkAgrees where
  faulted y h := by simpa using h
  refused _ h := absurd h nofun

/-- A result asks nothing of the mark. -/
theorem State.markAgrees_of_returned {t : State} {v : Value t.cfg.fmt} (h : t.response = some (.returned v)) :
    t.MarkAgrees where
  faulted _ hx := absurd (h.symm.trans hx) nofun
  refused _ hr := absurd (h.symm.trans hr) nofun

/-- The cache check keeps the agreement: where it acts, it takes a model fault. -/
theorem State.MarkAgrees.checkCache {t : State} (h : t.MarkAgrees) : t.checkCache.MarkAgrees := by
  rcases t.checkCache_cases with hc | ⟨rn, e, v, -, -, -, hc⟩ <;> rw [hc]
  · exact h
  · exact t.markAgrees_takeFault _

/-- A command executed with no mark set, the cache check after it included, leaves the mark in agreement with its
outcome. -/
theorem afterCommand_exec_markAgrees {i : Instr} {s t : State} (hm : s.mark = none)
    (h : afterCommand (exec i s) = .next t) : t.MarkAgrees := by
  rcases exec_outcome_cases i s with ⟨t', v, hx, hv⟩ | ⟨r, hx⟩ | ⟨x, hx⟩ <;> rw [hx] at h <;>
    obtain rfl := Host.Outcome.next.inj h
  · exact (State.markAgrees_of_returned hv).checkCache
  · exact (State.markAgrees_refuse hm r).checkCache
  · exact (s.markAgrees_takeFault x).checkCache

/-- A step that goes on either waited, or ran a command with no mark set and leaves the mark in agreement with its
outcome. -/
theorem step_next_cases {s t : State} (h : step s = .next t) :
    (s.pending = [] ∧ t = s) ∨ (s.mark = none ∧ t.MarkAgrees) := by
  rcases step_cases s with ⟨hp, hs⟩ | ⟨cmd, rest, -, ⟨x, -, hs⟩ | ⟨hm, ⟨r, -, hs⟩ | ⟨i, -, hs⟩⟩⟩ <;> rw [hs] at h
  · exact .inl ⟨hp, (Host.Outcome.next.inj h).symm⟩
  · exact absurd h nofun
  · obtain rfl := Host.Outcome.next.inj h
    exact .inr ⟨hm, State.markAgrees_refuse (s := s.running cmd rest) hm _⟩
  · exact .inr ⟨hm, afterCommand_exec_markAgrees (s := s.running cmd rest) hm h⟩

/-- Settles O7: with the mark set a step goes on only where it waits, and every command that runs leaves the mark in
agreement with its outcome. -/
theorem markedFaultSticks : Obligations.MarkedFaultSticks := by
  refine ⟨fun s x cmd rest hm hp => step_of_mark hm hp, fun s t h => ?_⟩
  rcases step_next_cases h with ⟨hp, rfl⟩ | ⟨hm, hagrees⟩
  · exact ⟨fun x hx => hx, fun hne => absurd hp hne⟩
  · exact ⟨fun x hx => absurd (hm.symm.trans hx) nofun, fun _ => ⟨hagrees.faulted, hagrees.refused⟩⟩

end Sys2Proof.Machine

namespace Sys2Proof.Machine

/-! ## The empty command port (70_reset_and_hazards.md R230, R231) -/

/-- A step with an empty port changes nothing, whatever the fault mark. -/
theorem step_of_pending_nil {s : State} (hp : s.pending = []) : step s = .next s := by
  simp only [step, runNext, State.takeCommand_of_nil hp]

/-- At power-on the operands of the port are zero. -/
@[simp] theorem State.powerOn_operands (k : Config) (n : Nat) : (powerOn k n).operands = Operands.zero k.fmt := rfl

/-- Settles O6: an empty port gives no command, and with none the step waits. -/
theorem emptyPortWaits : Obligations.EmptyPortWaits := fun _ => step_of_pending_nil

/-- Settles O59: the port's fields as power-on sets them, and the wait on its empty list of commands. -/
theorem powerOnWaits : Obligations.PowerOnWaits := fun k n =>
  ⟨State.powerOn_pending k n, State.powerOn_operands k n, State.powerOn_response k n,
    step_of_pending_nil (State.powerOn_pending k n)⟩

end Sys2Proof.Machine
